-- ==== Sys2Proof/Word.lean ====
section
/-! DEFINITION. The word and byte types, and the two records of words the spec names everywhere: a coefficient set and one
frame of a block. -/

namespace Sys2Proof

/-- Every port word and every register is 32 bits (spec/00_scope.md R6 `WORD`, R61). -/
abbrev Word := BitVec 32

/-- One byte of a byte transport that carries a port (spec/20_memory.md R62). The core itself never sees one. -/
abbrev Byte := BitVec 8

/-- A coefficient set: the feed-forward gains `f0 f1 f2` and the feedback gains `b1 b2` (R32). The element type is a
parameter, so that the formulas of R114 and R140 are written once and read both over float words and over exact numbers
(R117, R118, R142). -/
structure CoefSet (α : Type) where
  f0 : α
  f1 : α
  f2 : α
  b1 : α
  b2 : α
  deriving DecidableEq, Repr, Inhabited

/-- The five words of a set in the order the commands list them (R89). -/
abbrev CoefSet.words {α : Type} (c : CoefSet α) : List α := [c.f0, c.f1, c.f2, c.b1, c.b2]

/-- One frame of a BLOCK: one sample for each channel, in operand order (R173). -/
structure Frame where
  mainLeft  : Word
  mainRight : Word
  subLeft   : Word
  subRight  : Word
  deriving DecidableEq, Repr, Inhabited

/-- The four words of a frame in port order (R173). -/
abbrev Frame.words (f : Frame) : List Word := [f.mainLeft, f.mainRight, f.subLeft, f.subRight]

end Sys2Proof
end

