-- ==== Sys2Proof/Config.lean ====
section
/-! DEFINITION. The implementation parameters of spec/00_scope.md R6 as plain data, and the free values of the model.

R6 marks some parameters OPEN: "A parameter marked OPEN is an argument of the model". `step` takes a state and nothing else,
so the argument stands in State as the field `cfg : Config`, which no command and no reset changes (log entry 1). A statement
about every state is therefore a statement about every choice of the parameters. The values themselves (the reference
configuration) are in Machine/Params.lean. -/

namespace Sys2Proof

/-- The four arithmetic primitives of the parameter `FP` (R9). -/
inductive FpOp where
  | add | sub | mul | div
  deriving DecidableEq, Repr

/-- The parameter `FP` (R6, D3): the reference arithmetic (binary32, round to nearest even, one rounding per operation), or any
other arithmetic, of which nothing is known. -/
inductive FpChoice where
  | binary32
  | other (n : Nat)
  deriving DecidableEq, Repr

/-- The parameter `NAN_OUT` (R6, D5): the bits of a NaN an operation produces are a draw, or one fixed pattern (as in the
reference simulator, 0x7FC00000). A pattern that is no NaN is read as 0x7FC00000 (Machine/Fp.lean `asNaN`). -/
inductive NanChoice where
  | draw
  | fixed (w : Word)
  deriving DecidableEq, Repr

/-- The parameter `LP_DESIGN` (R113, D6): the reference formula of R114, or any other function with properties (a), (b) and (c) of R113
(Machine/Formulas.lean `soundDesign`; log entry 4). -/
inductive DesignChoice where
  | bilinear
  | other (n : Nat)
  deriving DecidableEq, Repr

/-- The parameter `PORT_BYTE_ORDER` (R62, D20). DESIGN CHOICE (log entry 16): the spec leaves the parameter open and names no order but the
little-endian reference; that it takes exactly these two values, and that big-endian is the four bytes reversed, is the model's. -/
inductive ByteOrder where
  | little | big
  deriving DecidableEq, Repr

/-- The parameters of R6 that a chip may choose. `kDefault` and `qDefault` are not marked OPEN in R6, but
spec/93_implementation_defined.md I19 treats the default as a parameter. -/
structure Config where
  fp        : FpChoice
  ftz       : Bool
  nanOut    : NanChoice
  design    : DesignChoice
  kMin      : Word
  kMax      : Word
  qMin      : Word
  qMax      : Word
  kDefault  : Word
  qDefault  : Word
  byteOrder : ByteOrder
  deriving DecidableEq, Repr

/-- What names one draw of `NAN_OUT`: the running number of a sample operation (drawn afresh each time, I5), or, inside the
calculator, the clamped operands and the operation, because R110 makes the calculator a function of its inputs (log entry 3). -/
inductive NanKey where
  | sample (n : Nat)
  | design (k q : Word) (slot : Nat)
  deriving DecidableEq, Repr

/-- FREE VALUE (log entry 3): the draws of `NAN_OUT`. No body, so nothing is known of any of them. -/
opaque Config.freeNaN : NanKey → Word

/-- FREE VALUE (log entry 2): the arithmetic of a chip whose `FP` is not the reference. -/
opaque Config.otherFp : Nat → FpOp → Word → Word → Word

/-- FREE VALUE (log entry 4): the design function of a chip whose `LP_DESIGN` is not the reference. -/
opaque Config.otherDesign : Nat → Word → Word → CoefSet Word

end Sys2Proof
end

