-- ==== Sys2Proof/Syntax.lean ====
section
/-! DEFINITION. The instruction set: the eleven commands of spec/30_encoding.md R89, one constructor per row of
spec/opcode_table.json, and the small name types the encoding uses. An instruction is a whole packet, header fields and operand
words together (R80). -/

namespace Sys2Proof

/-- The four filter instances (R6 `N_INST`, R83): main-left 0, main-right 1, sub-left 2, sub-right 3. -/
inductive Channel where
  | mainLeft | mainRight | subLeft | subRight
  deriving DecidableEq, Repr

/-- The eleven opcodes (R89). -/
inductive Op where
  | nop | init | reset | assign | process | compute | broadcast | ctrlSet | block | readInst | readCtrl
  deriving DecidableEq, Repr

/-- The four header formats (R81): no field, channel, index, frames. -/
inductive Format where
  | fn | fc | fi | ff
  deriving DecidableEq, Repr

/-- Why a header is illegal (R87, R222). -/
inductive IllegalCause where
  | unknownOpcode
  | reservedBits
  deriving DecidableEq, Repr

/-- A command packet. The field IDX of CTRL_SET is kept as its 16 bits (R84). The field FRAMES of BLOCK is the length of the list of
frames (R85), so it has no field of its own. -/
inductive Instr where
  | nop
  | init
  | reset     (ch : Channel)
  | assign    (ch : Channel) (c : CoefSet Word)
  | process   (ch : Channel) (x : Word)
  | compute   (k q : Word)
  | broadcast (c : CoefSet Word)
  | ctrlSet   (idx : BitVec 16) (v : Word)
  | block     (frames : List Frame)
  | readInst  (ch : Channel)
  | readCtrl
  deriving DecidableEq, Repr

/-- The pseudo-commands of the assembler (R93). They are no rows of the opcode table: each stands for packets of core commands. -/
inductive Pseudo where
  | setCutoff    (v : Word)
  | setResonance (v : Word)
  | resetAll
  | assignAll    (c : CoefSet Word)
  | frame        (f : Frame)
  deriving DecidableEq, Repr

/-- The opcode of a command. -/
abbrev Instr.op : Instr → Op
  | .nop => .nop
  | .init => .init
  | .reset _ => .reset
  | .assign _ _ => .assign
  | .process _ _ => .process
  | .compute _ _ => .compute
  | .broadcast _ => .broadcast
  | .ctrlSet _ _ => .ctrlSet
  | .block _ => .block
  | .readInst _ => .readInst
  | .readCtrl => .readCtrl

end Sys2Proof
end

