-- ==== Sys2Proof/WellFormed.lean ====
section
/-! DEFINITION. What a command must satisfy beyond its type: a BLOCK has at most 65535 frames (R6 `FRAMES_MAX`, R85), since its
FRAMES field has 16 bits. Every other field admits every value of its type (R83, R84). -/

namespace Sys2Proof

/-- The largest frame count of one BLOCK (R6, D30). -/
abbrev framesMax : Nat := 65535

/-- The command can be written as a packet. -/
def Instr.wellFormed : Instr → Bool
  | .block frames => decide (frames.length ≤ framesMax)
  | .nop => true
  | .init => true
  | .reset _ => true
  | .assign _ _ => true
  | .process _ _ => true
  | .compute _ _ => true
  | .broadcast _ => true
  | .ctrlSet _ _ => true
  | .readInst _ => true
  | .readCtrl => true

end Sys2Proof
end

