-- ==== Sys2Proof/Decode.lean ====
section
/-! DEFINITION. The encoding of spec/30_encoding.md: header fields, legality, packet length, the decoder from port words, the
encoder, the opcode map as match/mask rows, and the byte order of a byte transport (spec/20_memory.md R62). The decoder is total
on any list of words and rejects by name. -/

namespace Sys2Proof

/-- `w[hi:lo]` read as an unsigned integer (R7). -/
def field (w : Word) (hi lo : Nat) : Nat := (w.toNat >>> lo) % 2 ^ (hi + 1 - lo)

/-- OPC, bits 31:24 (R80). -/
def opcField (h : Word) : Nat := field h 31 24

/-- CH, bits 17:16 (R80, R83). -/
def chField (h : Word) : Nat := field h 17 16

/-- IMM16, bits 15:0 (R80, R84, R85). -/
def imm16Field (h : Word) : Nat := field h 15 0

/-- The channel that a CH field names (R83). -/
def Channel.ofField : Nat → Channel
  | 0 => .mainLeft
  | 1 => .mainRight
  | 2 => .subLeft
  | _ => .subRight

/-- The CH field of a channel (R83). -/
def Channel.index : Channel → Nat
  | .mainLeft => 0
  | .mainRight => 1
  | .subLeft => 2
  | .subRight => 3

/-- The opcode map, OPC to mnemonic (R89). Every other value is reserved and illegal (R90). -/
def Op.ofCode : Nat → Option Op
  | 0x00 => some .nop
  | 0x01 => some .init
  | 0x02 => some .reset
  | 0x03 => some .assign
  | 0x04 => some .process
  | 0x05 => some .compute
  | 0x06 => some .broadcast
  | 0x07 => some .ctrlSet
  | 0x08 => some .block
  | 0x09 => some .readInst
  | 0x0A => some .readCtrl
  | _ => none

/-- The OPC value of a mnemonic (R89). -/
def Op.code : Op → Nat
  | .nop => 0x00
  | .init => 0x01
  | .reset => 0x02
  | .assign => 0x03
  | .process => 0x04
  | .compute => 0x05
  | .broadcast => 0x06
  | .ctrlSet => 0x07
  | .block => 0x08
  | .readInst => 0x09
  | .readCtrl => 0x0A

/-- The format of a mnemonic (R81). -/
def Op.format : Op → Format
  | .nop => .fn
  | .init => .fn
  | .reset => .fc
  | .assign => .fc
  | .process => .fc
  | .compute => .fn
  | .broadcast => .fn
  | .ctrlSet => .fi
  | .block => .ff
  | .readInst => .fc
  | .readCtrl => .fn

/-- The bits below OPC that a format marks 0 (R81). -/
def Format.mustBeZero : Format → Word
  | .fn => 0x00FFFFFF
  | .fc => 0x00FCFFFF
  | .fi => 0x00FF0000
  | .ff => 0x00FF0000

/-- The header check of R87: the mnemonic of a legal header, or the cause. Check (1) comes first, so a header that fails both
reports `unknownOpcode`. -/
def decodeHeader (h : Word) : Except IllegalCause Op :=
  match Op.ofCode (opcField h) with
  | none => .error .unknownOpcode
  | some op => if h &&& op.format.mustBeZero = 0 then .ok op else .error .reservedBits

/-- The "operands" column of R89: how many operand words follow the header. -/
def operandCount (op : Op) (h : Word) : Nat :=
  match op with
  | .nop => 0
  | .init => 0
  | .reset => 0
  | .assign => 5
  | .process => 1
  | .compute => 2
  | .broadcast => 5
  | .ctrlSet => 1
  | .block => 4 * imm16Field h
  | .readInst => 0
  | .readCtrl => 0

/-- `Operand(i)`: the i-th operand word of a packet (R11). -/
def operand (ops : List Word) (i : Nat) : Word := ops.getD i 0

/-- The five operand words of ASSIGN and BROADCAST as a set (R145, R146). -/
def operandSet (ops : List Word) : CoefSet Word :=
  { f0 := operand ops 0, f1 := operand ops 1, f2 := operand ops 2, b1 := operand ops 3, b2 := operand ops 4 }

/-- The operand words of a BLOCK grouped by frame: frame i is operands 4i to 4i+3 (R173). -/
def framesOf : List Word → List Frame
  | mL :: mR :: sL :: sR :: rest => ⟨mL, mR, sL, sR⟩ :: framesOf rest
  | _ => []

/-- The command that a legal header and its operand words spell (R80 to R85). -/
def assemblePacket (op : Op) (h : Word) (ops : List Word) : Instr :=
  match op with
  | .nop => .nop
  | .init => .init
  | .reset => .reset (.ofField (chField h))
  | .assign => .assign (.ofField (chField h)) (operandSet ops)
  | .process => .process (.ofField (chField h)) (operand ops 0)
  | .compute => .compute (operand ops 0) (operand ops 1)
  | .broadcast => .broadcast (operandSet ops)
  | .ctrlSet => .ctrlSet (.ofNat 16 (imm16Field h)) (operand ops 0)
  | .block => .block (framesOf ops)
  | .readInst => .readInst (.ofField (chField h))
  | .readCtrl => .readCtrl

/-- At least `n` words stand in the list. -/
def hasAtLeast : Nat → List Word → Bool
  | 0, _ => true
  | _ + 1, [] => false
  | n + 1, _ :: xs => hasAtLeast n xs

/-- What a decoder reads at the start of a list of port words. -/
inductive Decoded where
  /-- a whole packet, and the words after it -/
  | command (i : Instr) (rest : List Word)
  /-- an illegal header, which is consumed alone (R86), and the words after it -/
  | illegal (cause : IllegalCause) (h : Word) (rest : List Word)
  /-- a legal header whose operand words have not all arrived (R64): the header, the number needed, the words received -/
  | truncated (h : Word) (need : Nat) (got : List Word)
  /-- no word at all -/
  | empty
  deriving DecidableEq, Repr

/-- Decode from parser state IDLE (R86). -/
def decode : List Word → Decoded
  | [] => .empty
  | h :: rest =>
    match decodeHeader h with
    | .error cause => .illegal cause h rest
    | .ok op =>
      let n := operandCount op h
      if hasAtLeast n rest then .command (assemblePacket op h (rest.take n)) (rest.drop n)
      else .truncated h n rest

/-! ### The encoder (R80, R89, R91) -/

/-- `OPC << 24 | CH << 16 | IMM16` (R80). -/
def header (op : Op) (ch : Nat) (imm : Nat) : Word :=
  BitVec.ofNat 32 (op.code * 2 ^ 24 + ch * 2 ^ 16 + imm)

/-- The header word of a command. -/
def Instr.header : Instr → Word
  | .nop => Sys2Proof.header .nop 0 0
  | .init => Sys2Proof.header .init 0 0
  | .reset ch => Sys2Proof.header .reset ch.index 0
  | .assign ch _ => Sys2Proof.header .assign ch.index 0
  | .process ch _ => Sys2Proof.header .process ch.index 0
  | .compute _ _ => Sys2Proof.header .compute 0 0
  | .broadcast _ => Sys2Proof.header .broadcast 0 0
  | .ctrlSet idx _ => Sys2Proof.header .ctrlSet 0 idx.toNat
  | .block frames => Sys2Proof.header .block 0 frames.length
  | .readInst ch => Sys2Proof.header .readInst ch.index 0
  | .readCtrl => Sys2Proof.header .readCtrl 0 0

/-- The operand words of a command, in port order (R89). -/
def Instr.operands : Instr → List Word
  | .nop => []
  | .init => []
  | .reset _ => []
  | .assign _ c => c.words
  | .process _ x => [x]
  | .compute k q => [k, q]
  | .broadcast c => c.words
  | .ctrlSet _ v => [v]
  | .block frames => frames.flatMap Frame.words
  | .readInst _ => []
  | .readCtrl => []

/-- The port words of a command: its header, then its operand words (R91 "The assembler emits the header of rule R89 with the
fields filled, then the operand words in the order written"). -/
def encode (i : Instr) : List Word := i.header :: i.operands

/-- The expansion of a pseudo-command (R93). -/
def Pseudo.expand : Pseudo → List Instr
  | .setCutoff v => [.ctrlSet 0 v]
  | .setResonance v => [.ctrlSet 1 v]
  | .resetAll => [.reset .mainLeft, .reset .mainRight, .reset .subLeft, .reset .subRight]
  | .assignAll c => [.broadcast c]
  | .frame f => [.block [f]]

/-- The "responses" column of R89: how many response words a command gives. -/
def responseCount : Instr → Nat
  | .nop => 0
  | .init => 0
  | .reset _ => 0
  | .assign _ _ => 0
  | .process _ _ => 1
  | .compute _ _ => 5
  | .broadcast _ => 0
  | .ctrlSet _ _ => 0
  | .block frames => 4 * frames.length
  | .readInst _ => 7
  | .readCtrl => 4

/-! ### The opcode map as rows (R89) -/

/-- One row of R89's table. -/
structure OpRow where
  op      : Op
  pattern : Word
  mask    : Word
  deriving DecidableEq, Repr

/-- R89's columns "match" and "mask", as spec/opcode_table.json repeats them. -/
def opTable : List OpRow :=
  [ ⟨.nop,       0x00000000, 0xFFFFFFFF⟩,
    ⟨.init,      0x01000000, 0xFFFFFFFF⟩,
    ⟨.reset,     0x02000000, 0xFFFCFFFF⟩,
    ⟨.assign,    0x03000000, 0xFFFCFFFF⟩,
    ⟨.process,   0x04000000, 0xFFFCFFFF⟩,
    ⟨.compute,   0x05000000, 0xFFFFFFFF⟩,
    ⟨.broadcast, 0x06000000, 0xFFFFFFFF⟩,
    ⟨.ctrlSet,   0x07000000, 0xFFFF0000⟩,
    ⟨.block,     0x08000000, 0xFFFF0000⟩,
    ⟨.readInst,  0x09000000, 0xFFFCFFFF⟩,
    ⟨.readCtrl,  0x0A000000, 0xFFFFFFFF⟩ ]

/-- `H & mask(M) = match(M)` (R89). -/
def OpRow.spells (r : OpRow) (h : Word) : Bool := decide (h &&& r.mask = r.pattern)

/-! ### A table word (the host's numbering: bit 0 is the least significant bit of the first word) -/

/-- `n` words cut from a number, the first from its low bits. -/
def cutWords : Nat → Nat → List Word
  | 0, _ => []
  | n + 1, w => BitVec.ofNat 32 w :: cutWords n (w >>> 32)

/-- The packet that a number spells: the header is its low 32 bits, and as many operand words follow as that header needs, taken
from the bits above (0 above `nbits`). -/
def tableWords (nbits w : Nat) : List Word :=
  let v := w % 2 ^ nbits
  let h : Word := BitVec.ofNat 32 v
  match decodeHeader h with
  | .error _ => [h]
  | .ok op => h :: cutWords (operandCount op h) (v >>> 32)

/-- The instruction the decoder reads from a table word. -/
def decodeTableWord (nbits w : Nat) : Option Instr :=
  match decode (tableWords nbits w) with
  | .command i _ => some i
  | .illegal _ _ _ => none
  | .truncated _ _ _ => none
  | .empty => none

/-! ### Byte order of a byte transport (R62, D20) -/

/-- The word that four bytes spell, in the order they come off the transport. -/
def wordOfBytes (order : ByteOrder) (a b c d : Byte) : Word :=
  match order with
  | .little => d ++ c ++ b ++ a
  | .big => a ++ b ++ c ++ d

/-- The four bytes of a word, in transport order. -/
def bytesOfWord (order : ByteOrder) (w : Word) : List Byte :=
  let b : List Byte := [w.extractLsb' 0 8, w.extractLsb' 8 8, w.extractLsb' 16 8, w.extractLsb' 24 8]
  match order with
  | .little => b
  | .big => b.reverse

end Sys2Proof
end

