-- ==== Sys2Proof/Machine/Params.lean ====
section
/-! DEFINITION. The reference configuration: the values that spec/00_scope.md R6 gives for the parameters of Config, and its sample rate. -/

namespace Sys2Proof.Machine

/-- `FS`, the sample rate in Hz, "used only by the host-side mapping" (R6); the core never reads it (R232). -/
def sampleRate : Nat := 48000

/-- R6's "value" column. `NAN_OUT` is the draw ("a draw (any NaN)"), not the pattern of the reference simulator. -/
def referenceConfig : Config :=
  { fp := .binary32
    ftz := false
    nanOut := .draw
    design := .bilinear
    kMin := 0x3B4DE35B
    kMax := 0x41FE907B
    qMin := 0x3F3504F3
    qMax := 0x413504F3
    kDefault := 0x41FE907B
    qDefault := 0x3F3504F3
    byteOrder := .little }

end Sys2Proof.Machine
end

