-- ==== Sys2Proof/Machine/Fp.lean ====
section
/-! DEFINITION. Float words (spec/00_scope.md R8), the arithmetic primitives (R9) and the comparisons (R10).

The reference arithmetic computes exactly and rounds once. A finite float word is a signed whole number of units of 2^-149 (the
smallest subnormal), so sums are whole numbers of units, products whole numbers over 2^149, and quotients plain fractions. One
function, `roundMagnitude`, rounds a fraction of units to the nearest binary32 magnitude, ties to even. -/

namespace Sys2Proof.Machine

/-! ### Format and classes (R8) -/

/-- Bit 31. -/
def fpSign (w : Word) : Bool := w.getLsbD 31

/-- Bits 30:23. -/
def fpExponent (w : Word) : Nat := field w 30 23

/-- Bits 22:0. -/
def fpFraction (w : Word) : Nat := field w 22 0

/-- "A float word is *finite* when its exponent is not 255." -/
def isFinite (w : Word) : Bool := decide (fpExponent w ≠ 255)

/-- "Exponent 255 with … a nonzero fraction it is a NaN." -/
def isNaN (w : Word) : Bool := decide (fpExponent w = 255 ∧ fpFraction w ≠ 0)

/-- "Exponent 255 with a fraction of 0 is ±Infinity". -/
def isInfinite (w : Word) : Bool := decide (fpExponent w = 255 ∧ fpFraction w = 0)

/-- "Exponent 0 with a fraction of 0 is ±0". -/
def isZero (w : Word) : Bool := decide (fpExponent w = 0 ∧ fpFraction w = 0)

/-- "Exponent 0 … with a nonzero fraction it is subnormal." -/
def isSubnormal (w : Word) : Bool := decide (fpExponent w = 0 ∧ fpFraction w ≠ 0)

/-- The magnitude bits (30:0) of infinity. -/
def infMagnitude : Nat := 0x7F800000

/-- A word from its sign and its magnitude bits. -/
def packWord (sign : Bool) (magnitude : Nat) : Word :=
  BitVec.ofNat 32 (magnitude + if sign then 2 ^ 31 else 0)

/-- The magnitude of a finite float word, in units of 2^-149. -/
def fpUnits (w : Word) : Nat :=
  if fpExponent w = 0 then fpFraction w else (2 ^ 23 + fpFraction w) * 2 ^ (fpExponent w - 1)

/-- The value of a finite float word, in units of 2^-149. -/
def fpValue (w : Word) : Int :=
  if fpSign w then - (fpUnits w : Int) else (fpUnits w : Int)

/-- The float word with the other sign. -/
def fpNegate (w : Word) : Word := w ^^^ 0x80000000

/-- The float words of 1.0 and 2.0 (R9). -/
def fpOne : Word := 0x3F800000
def fpTwo : Word := 0x40000000

/-! ### Rounding (R9: roundTiesToEven, one rounding per operation) -/

/-- How far the significand of `num / den` units is shifted, so that at most 24 bits of it stay: 0 for a subnormal. -/
def roundShift (num den : Nat) : Nat := Nat.log2 (num / den) - 23

/-- The nearest whole number to `num / den`, ties to even. -/
def roundNearestEven (num den : Nat) : Nat :=
  let q := num / den
  let r := num % den
  if 2 * r > den ∨ (2 * r = den ∧ q % 2 = 1) then q + 1 else q

/-- The magnitude bits of the binary32 nearest to `num / den` units of 2^-149, ties to even, before the overflow check. A carry out
of the significand runs into the exponent field, as it should. -/
def roundMagnitude (num den : Nat) : Nat :=
  let t := roundShift num den
  t * 2 ^ 23 + roundNearestEven num (den * 2 ^ t)

/-- The rounded float word: "a finite result whose magnitude rounds above 0x7F7FFFFF is ±Inf". -/
def roundWord (sign : Bool) (num den : Nat) : Word :=
  packWord sign (min (roundMagnitude num den) infMagnitude)

/-! ### The reference operations (R9). `none` stands for a NaN result. -/

/-- `fadd`: an exact zero sum is −0 only when both operands are negative ("`fadd(−0, +0)` is +0, and `fadd(−0, −0)` is −0",
"`fsub(x, x)` for finite `x` is +0"). -/
def refAdd (a b : Word) : Option Word :=
  if isNaN a || isNaN b then none
  else if isInfinite a then
    if isInfinite b && fpSign a != fpSign b then none else some a
  else if isInfinite b then some b
  else
    let v := fpValue a + fpValue b
    if v = 0 then some (packWord (fpSign a && fpSign b) 0)
    else some (roundWord (decide (v < 0)) v.natAbs 1)

/-- `fsub(a, b)` is `fadd(a, −b)`; a NaN stays a NaN under the sign change. -/
def refSub (a b : Word) : Option Word := refAdd a (fpNegate b)

/-- `fmul`: "`fmul(±0, ±Inf)` is a NaN". -/
def refMul (a b : Word) : Option Word :=
  let sign := fpSign a != fpSign b
  if isNaN a || isNaN b then none
  else if isInfinite a || isInfinite b then
    if isZero a || isZero b then none else some (packWord sign infMagnitude)
  else some (roundWord sign (fpUnits a * fpUnits b) (2 ^ 149))

/-- `fdiv`: "`fdiv(x, ±0)` for a nonzero, non-NaN `x` is ±Inf with the XOR of the two signs", "`fdiv(±0, ±0)` is a NaN". -/
def refDiv (a b : Word) : Option Word :=
  let sign := fpSign a != fpSign b
  if isNaN a || isNaN b then none
  else if isInfinite a then
    if isInfinite b then none else some (packWord sign infMagnitude)
  else if isInfinite b then some (packWord sign 0)
  else if isZero b then
    if isZero a then none else some (packWord sign infMagnitude)
  else some (roundWord sign (fpUnits a * 2 ^ 149) (fpUnits b))

/-- One reference operation. -/
def refOp : FpOp → Word → Word → Option Word
  | .add => refAdd
  | .sub => refSub
  | .mul => refMul
  | .div => refDiv

/-! ### The primitives under a configuration -/

/-- A NaN pattern: the word itself if it is one. Every NaN pattern is the image of itself, so a draw over all words is a draw over
all NaNs. -/
def asNaN (w : Word) : Word := if isNaN w then w else 0x7FC00000

/-- A finite word: the word itself if it is one (property (b) of R113 for a design that is not the reference). -/
def asFinite (w : Word) : Word := if isFinite w then w else 0

/-- The NaN that an operation produces (R9, D5, I5). -/
def nanOut (c : Config) (key : NanKey) : Word :=
  match c.nanOut with
  | .draw => asNaN (Config.freeNaN key)
  | .fixed w => asNaN w

/-- `FTZ` (R6, D4): a subnormal result becomes the zero of the same sign (spec/95_test_vectors.md section 1.1). -/
def flushSubnormal (w : Word) : Word := if isSubnormal w then packWord (fpSign w) 0 else w

/-- The result of an operation before the NaN draw and the flush: the reference, or an arithmetic of which nothing is known. -/
def rawOp (c : Config) (op : FpOp) (a b : Word) : Option Word :=
  match c.fp with
  | .binary32 => refOp op a b
  | .other n =>
    let w := Config.otherFp n op a b
    if isNaN w then none else some w

/-- One primitive of R9 under the parameters `FP`, `FTZ` and `NAN_OUT`. -/
def fpOp (c : Config) (op : FpOp) (key : NanKey) (a b : Word) : Word :=
  match rawOp c op a b with
  | none => nanOut c key
  | some w => if c.ftz then flushSubnormal w else w

/-! ### Comparisons (R10) -/

/-- The order of non-NaN float words as integers; −0 and +0 get the same. -/
def fpOrder (w : Word) : Int :=
  if fpSign w then - (field w 30 0 : Int) else (field w 30 0 : Int)

/-- `a < b`, false when either operand is a NaN. -/
def fpLess (a b : Word) : Bool := !isNaN a && !isNaN b && decide (fpOrder a < fpOrder b)

/-- `a > b`, false when either operand is a NaN. -/
def fpGreater (a b : Word) : Bool := fpLess b a

/-! ### An arithmetic as a record -/

/-- The record of the four primitives and the two constants that the formulas of R114 and R140 use. The number is the place of the
operation in its formula; only the NaN draw reads it. -/
structure Arith (α : Type) where
  add : Nat → α → α → α
  sub : Nat → α → α → α
  mul : Nat → α → α → α
  div : Nat → α → α → α
  one : α
  two : α

/-- The arithmetic of the core: `FP` with its draws named by `key`. -/
def floatArith (c : Config) (key : Nat → NanKey) : Arith Word :=
  { add := fun i a b => fpOp c .add (key i) a b
    sub := fun i a b => fpOp c .sub (key i) a b
    mul := fun i a b => fpOp c .mul (key i) a b
    div := fun i a b => fpOp c .div (key i) a b
    one := fpOne
    two := fpTwo }

/-- Exact arithmetic in a field: what the derived properties R117, R118 and R142 call "in real arithmetic". -/
def exactArith (F : Type) [Field F] : Arith F :=
  { add := fun _ a b => a + b
    sub := fun _ a b => a - b
    mul := fun _ a b => a * b
    div := fun _ a b => a / b
    one := 1
    two := 2 }

end Sys2Proof.Machine
end

