-- ==== Sys2Proof/Machine/State.lean ====
section
/-! DEFINITION. The state of biquad_filter_core: every register of spec/10_state.md R30, the port-side state of R40 and R41, the
words waiting on the command port, the hardware reset input (R250), and two fields of the model's own (`cfg`, `nanDraws`). Plain
data. The core has no memory and no program counter (R31, R60), so the state holds none. -/

namespace Sys2Proof.Machine

/-- The registers of one filter instance: `COEF[ch]` (R32) and `Z1[ch]`, `Z2[ch]` (R33). -/
structure FilterInstance where
  coef : CoefSet Word
  z1   : Word
  z2   : Word
  deriving DecidableEq, Repr, Inhabited

/-- The four instances, distinct registers each (R34). -/
structure Bank where
  mainLeft  : FilterInstance
  mainRight : FilterInstance
  subLeft   : FilterInstance
  subRight  : FilterInstance
  deriving DecidableEq, Repr, Inhabited

/-- The parser state (R41): IDLE, or COLLECT with the accepted header, the number of operand words the packet needs, and the words
received so far. -/
inductive Parser where
  | idle
  | collect (h : Word) (need : Nat) (got : List Word)
  deriving DecidableEq, Repr

/-- The machine. -/
structure State where
  /-- `COEF[ch]`, `Z1[ch]`, `Z2[ch]` (R32, R33) -/
  bank      : Bank
  /-- `P_K`, the pending warped cutoff (R35) -/
  pK        : Word
  /-- `P_Q`, the pending resonance (R36) -/
  pQ        : Word
  /-- `STATUS` (R37); its fields are read and written through Machine/Flags.lean -/
  status    : Word
  /-- `ERRINFO` (R39) -/
  errInfo   : Word
  /-- the response queue, head first (R40) -/
  responses : List Word
  /-- the parser state (R41) -/
  parser    : Parser
  /-- the words the host has put on the command port and the core has not consumed, head first (R60, R66) -/
  cmdPort   : List Word
  /-- the hardware reset input is asserted (R250) -/
  resetLine : Bool
  /-- the model's own: the implementation parameters (R6; log entry 1) -/
  cfg       : Config
  /-- the model's own: the number of the next draw of `NAN_OUT` (log entry 3) -/
  nanDraws  : Nat
  deriving DecidableEq, Repr

/-- Why the machine has no step. Neither is raised by a command: both mean that the host has sent no more words. Safe: the core goes
on as soon as a word arrives, and no claim about a next state is lost but those that need that word. -/
inductive Fault where
  /-- Raised by `step` when the parser is IDLE and no word waits: the end of a run ("A run ends when the command port holds no
  complete packet", R13; R236). Safe. -/
  | commandPortEmpty
  /-- Raised by `step` when the parser is in COLLECT and no word waits: the stuck state of
  spec/93_implementation_defined.md I10 ("has no step until a word arrives"; R64). Safe. -/
  | packetIncomplete
  deriving DecidableEq, Repr

/-- Why a command has no meaning. No command of this model is refused. -/
inductive Refusal where
  /-- Raised by `exec` for a command whose meaning is not written yet; safe. No arm uses it. -/
  | notModelled (mnemonic : String)
  deriving DecidableEq, Repr

/-- A filter instance as created: "Created zero-initialized" (R43). -/
def FilterInstance.zero : FilterInstance :=
  { coef := { f0 := 0, f1 := 0, f2 := 0, b1 := 0, b2 := 0 }, z1 := 0, z2 := 0 }

/-- The machine right after hardware reset (R43), in the reference configuration, with nothing on the command port. -/
def State.reset : State :=
  { bank := { mainLeft := .zero, mainRight := .zero, subLeft := .zero, subRight := .zero }
    pK := 0
    pQ := 0
    status := 0
    errInfo := 0
    responses := []
    parser := .idle
    cmdPort := []
    resetLine := false
    cfg := referenceConfig
    nanDraws := 0 }

end Sys2Proof.Machine
end

