-- ==== Sys2Proof/Machine/Flags.lean ====
section
/-! DEFINITION. The fields of STATUS (spec/10_state.md R37) and every way they are set and cleared, and the decoder of a STATUS
word that software reads (R222, spec/93_implementation_defined.md I12, I13). The core has no other flags (R45). -/

namespace Sys2Proof.Machine

/-- The bit positions of R37. -/
def dirtyBit : Nat := 0
def initBit : Nat := 1
def errBit : Nat := 2
def nfBit : Nat := 3

/-- A STATUS word with one bit set. -/
def setBit (i : Nat) (w : Word) : Word := w ||| (1#32 <<< i)

/-- A STATUS word with one bit cleared. -/
def clearBit (i : Nat) (w : Word) : Word := w &&& ~~~(1#32 <<< i)

/-- The field ERRCODE, bits 7:4, of a STATUS word. -/
def errCodeField (w : Word) : Nat := field w 7 4

/-- A STATUS word with its field ERRCODE replaced. -/
def withErrCode (code : Nat) (w : Word) : Word :=
  (w &&& ~~~(0xF0#32)) ||| (BitVec.ofNat 32 (code % 16) <<< 4)

/-- `STATUS.DIRTY`: coefficients must be recomputed before the next block (R37, R38). -/
def State.dirty (s : State) : Bool := s.status.getLsbD dirtyBit

/-- `STATUS.INIT`: INIT has executed since hardware reset. -/
def State.initDone (s : State) : Bool := s.status.getLsbD initBit

/-- `STATUS.ERR`: an illegal command was seen. -/
def State.err (s : State) : Bool := s.status.getLsbD errBit

/-- `STATUS.NF`: a non-finite value was stored or emitted. -/
def State.nonFinite (s : State) : Bool := s.status.getLsbD nfBit

/-- `STATUS.ERRCODE`. -/
def State.errCode (s : State) : Nat := errCodeField s.status

/-- `STATUS.DIRTY <- 1` -/
def State.setDirty (s : State) : State := { s with status := setBit dirtyBit s.status }

/-- `STATUS.DIRTY <- 0` -/
def State.clearDirty (s : State) : State := { s with status := clearBit dirtyBit s.status }

/-- `STATUS.INIT <- 1` -/
def State.setInit (s : State) : State := { s with status := setBit initBit s.status }

/-- `STATUS.ERR <- 1` -/
def State.setErr (s : State) : State := { s with status := setBit errBit s.status }

/-- `STATUS.NF <- 1` -/
def State.setNonFinite (s : State) : State := { s with status := setBit nfBit s.status }

/-- `STATUS.ERRCODE <- code` -/
def State.setErrCode (code : Nat) (s : State) : State := { s with status := withErrCode code s.status }

/-- "if any of … is not finite: STATUS.NF <- 1" (R225). -/
def State.noteFinite (ws : List Word) (s : State) : State :=
  if ws.all isFinite then s else s.setNonFinite

/-- The cause codes of R222. -/
def causeCode : IllegalCause → Nat
  | .unknownOpcode => 1
  | .reservedBits => 2

/-- A STATUS word as software reads it: its five fields. -/
structure StatusFields where
  dirty     : Bool
  initDone  : Bool
  err       : Bool
  nonFinite : Bool
  cause     : Option IllegalCause
  deriving DecidableEq, Repr

/-- The decoder of STATUS words: it refuses (`none`) a word with one of bits 31:8 set (I13) and an ERRCODE of 3 to 15 (I12). -/
def decodeStatus (w : Word) : Option StatusFields :=
  if field w 31 8 ≠ 0 then none
  else
    let fields (c : Option IllegalCause) : StatusFields :=
      { dirty := w.getLsbD dirtyBit, initDone := w.getLsbD initBit, err := w.getLsbD errBit,
        nonFinite := w.getLsbD nfBit, cause := c }
    match errCodeField w with
    | 0 => some (fields none)
    | 1 => some (fields (some .unknownOpcode))
    | 2 => some (fields (some .reservedBits))
    | _ => none

end Sys2Proof.Machine
end

