-- ==== Sys2Proof/Machine/Formulas.lean ====
section
/-! DEFINITION. The two formulas of the core and the calculator around one of them: the reference design function (R114), the
transposed second-order-section update (R140), the input clamp (R111, R112) and `CALC` (R110). They read no state. -/

namespace Sys2Proof.Machine

/-- `LP_DESIGN_REF(k, q)` (R114), over any arithmetic, in the order the rule writes it. -/
def lpDesignRef {α : Type} (A : Arith α) (k q : α) : CoefSet α :=
  let kk := A.mul 0 k k
  let kq := A.div 1 k q
  let d := A.add 3 (A.add 2 A.one kq) kk
  let inv := A.div 4 A.one d
  let f0 := A.mul 5 kk inv
  let f1 := A.mul 6 A.two f0
  let b1 := A.mul 9 (A.mul 8 A.two (A.sub 7 kk A.one)) inv
  let b2 := A.mul 12 (A.add 11 (A.sub 10 A.one kq) kk) inv
  { f0 := f0, f1 := f1, f2 := f0, b1 := b1, b2 := b2 }

/-- What one sample gives: the output and the two new delay values. -/
structure SosResult (α : Type) where
  acc : α
  nz1 : α
  nz2 : α
  deriving DecidableEq, Repr

/-- How many operations one sample takes, so how many draw numbers it uses up. -/
def sosOps : Nat := 9

/-- `SOS` (R140, R141), over any arithmetic: `a + b - c` is `(a + b) − c`, and all reads are of the values before the sample. -/
def sosUpdate {α : Type} (A : Arith α) (c : CoefSet α) (z1 z2 x : α) : SosResult α :=
  let acc := A.add 1 (A.mul 0 c.f0 x) z1
  { acc := acc
    nz1 := A.sub 5 (A.add 3 (A.mul 2 c.f1 x) z2) (A.mul 4 c.b1 acc)
    nz2 := A.sub 8 (A.mul 6 c.f2 x) (A.mul 7 c.b2 acc) }

/-- `CLAMP_K` (R111). -/
def clampK (c : Config) (k : Word) : Word :=
  if isNaN k || fpLess k c.kMin then c.kMin
  else if fpGreater k c.kMax then c.kMax
  else k

/-- `CLAMP_Q` (R112). -/
def clampQ (c : Config) (q : Word) : Word :=
  if isNaN q || fpLess q c.qMin then c.qMin
  else if fpGreater q c.qMax then c.qMax
  else q

/-- The part of property (c) of R113 that can be read off one set of finite words, whatever the formula (log entry 4): the poles lie strictly
inside the unit circle (R118's inequalities; D25 says that (c) excludes an unstable design), and the gain at Nyquist is below the gain at DC.
The denominator of the gain at z is `1 + b1·z⁻¹ + b2·z⁻²` (R142), so it is `1 + b1 + b2` at DC and `1 − b1 + b2` at Nyquist, both positive when
the poles are inside. All numbers are in units of 2^-149. -/
def lowPassSet (c : CoefSet Word) : Bool :=
  let unit : Int := 2 ^ 149
  let f0 := fpValue c.f0
  let f1 := fpValue c.f1
  let f2 := fpValue c.f2
  let b1 := fpValue c.b1
  let b2 := fpValue c.b2
  decide (-unit < b2 ∧ b2 < unit ∧ |b1| < unit + b2 ∧
    |f0 - f1 + f2| * (unit + b1 + b2) < |f0 + f1 + f2| * (unit - b1 + b2))

/-- A set of finite words with `lowPassSet`: the set itself if it is one, else (1/4, 1/2, 1/4, 0, 0). Every such set is the image of itself, so
nothing but properties (b) and (c) is added to what is known of a design. -/
def asLowPass (c : CoefSet Word) : CoefSet Word :=
  let s : CoefSet Word :=
    { f0 := asFinite c.f0, f1 := asFinite c.f1, f2 := asFinite c.f2, b1 := asFinite c.b1, b2 := asFinite c.b2 }
  if lowPassSet s then s else { f0 := 0x3E800000, f1 := 0x3F000000, f2 := 0x3E800000, b1 := 0, b2 := 0 }

/-- A pair of words of the clamped domain `[K_MIN, K_MAX] × [Q_MIN, Q_MAX]` (R113): finite, and left as they are by the clamps. -/
def inDomain (c : Config) (k q : Word) : Bool :=
  isFinite k && isFinite q && decide (clampK c k = k) && decide (clampQ c q = q)

/-- The numerator of the square of the gain that a set has at the frequency ω with `tan(ω/2) = k`. There `z⁻¹ = (1 − ik)/(1 + ik)`, so
`(f0 + f1·z⁻¹ + f2·z⁻²)(1 + ik)²` is `(f0 + f2)(1 − k²) + f1(1 + k²) + 2ik(f0 − f2)` (R142). In units of 2^-149. -/
def gainNum (c : CoefSet Word) (k : Word) : Int :=
  let unit : Int := 2 ^ 149
  let kv := fpValue k
  ((fpValue c.f0 + fpValue c.f2) * (unit ^ 2 - kv ^ 2) + fpValue c.f1 * (unit ^ 2 + kv ^ 2)) ^ 2 +
    (2 * unit * kv * (fpValue c.f0 - fpValue c.f2)) ^ 2

/-- Its denominator, with 1, b1 and b2 for f0, f1 and f2. -/
def gainDen (c : CoefSet Word) (k : Word) : Int :=
  let unit : Int := 2 ^ 149
  let kv := fpValue k
  ((unit + fpValue c.b2) * (unit ^ 2 - kv ^ 2) + fpValue c.b1 * (unit ^ 2 + kv ^ 2)) ^ 2 +
    (2 * unit * kv * (unit - fpValue c.b2)) ^ 2

/-- Numerator and denominator of the square of the gain relative to DC, which is the frequency with the warped value 0. -/
def relNum (c : CoefSet Word) (k : Word) : Int := gainNum c k * gainDen c 0
def relDen (c : CoefSet Word) (k : Word) : Int := gainDen c k * gainNum c 0

/-- The first relative gain, at the frequency k, is at most twice the second, at k' (its square at most four times). -/
def gainAtMostTwice (c : CoefSet Word) (k : Word) (c' : CoefSet Word) (k' : Word) : Bool :=
  decide (relNum c k * relDen c' k' ≤ 4 * relNum c' k' * relDen c k)

/-- The first relative gain, at the frequency k, is below the second, at k'. -/
def gainBelow (c : CoefSet Word) (k : Word) (c' : CoefSet Word) (k' : Word) : Bool :=
  decide (relNum c k * relDen c' k' < relNum c' k' * relDen c k)

/-- The first relative gain, at the frequency k, is above the second, at k', by no more than rounding: its square by at most one part in 32. -/
def gainNotAbove (c : CoefSet Word) (k : Word) (c' : CoefSet Word) (k' : Word) : Bool :=
  decide (32 * relNum c k * relDen c' k' ≤ 33 * relNum c' k' * relDen c k)

/-- A float word that names a frequency: finite and not negative. -/
def isFrequency (v : Word) : Bool := isFinite v && decide (0 ≤ fpValue v)

/-- The peak height of the first set is not above that of the second, but for rounding: every relative gain of the first is met by one of the
second, at whatever frequency. -/
def peakNotAbove (c c' : CoefSet Word) : Bool :=
  decide (∀ v : Word, isFrequency v = true → ∃ v' : Word, isFrequency v' = true ∧ gainNotAbove c v c' v' = true)

/-- The peak height of the first set is below that of the second: some relative gain of the second is larger than every one of the first. -/
def peakBelow (c c' : CoefSet Word) : Bool :=
  decide (∃ v' : Word, isFrequency v' = true ∧ ∀ v : Word, isFrequency v = true → gainBelow c v c' v' = true)

/-- The frequencies from `n` times k up to 1024, and up to `2n` times k for any k. -/
def isBeyond (n : Int) (k v : Word) : Bool :=
  decide (n * fpValue k ≤ fpValue v ∧ (fpValue v ≤ 2 ^ 159 ∨ fpValue v ≤ 2 * n * fpValue k))

/-- 1/√2, "the Butterworth/no-resonance baseline Q" (R16): from here on a second-order low-pass has a peak that stands above DC. -/
def butterworthQ : Word := 0x3F3504F3

/-- The pass band: at a frequency `v` no higher than half of k, and than half of k·q, the relative gain lies between 1/2 and 2. -/
def passesAt (c : CoefSet Word) (k q v : Word) : Bool :=
  decide (0 ≤ fpValue v → 2 * fpValue v ≤ fpValue k → 2 * fpValue v * 2 ^ 149 ≤ fpValue k * fpValue q →
    relDen c v ≤ 4 * relNum c v ∧ relNum c v ≤ 4 * relDen c v)

/-- The stop band, of second order: at a frequency `v` from twice k up to 1024, and up to four times k for any k, the relative gain is at most
`2(k/v)²`, so it falls by 12 dB an octave. A first-order response, which falls by 6, does not meet it, nor does a flat one. -/
def stopsAt (c : CoefSet Word) (k v : Word) : Bool :=
  decide (isBeyond 2 k v = true → relNum c v * fpValue v ^ 4 ≤ 4 * fpValue k ^ 4 * relDen c v)

/-- Properties (b) and (c) of R113 for a design over the clamped domain. The rule gives (c) in words alone; DESIGN CHOICE (log entry 4) this
reading of them, wide enough for the rounding of each word:
* finite outputs, and a stable low-pass set for every pair;
* "a second-order low-pass response with cutoff set by `k`": the pass band ends no lower than half of k, and of k·q, and the stop band begins at
  twice k and falls like the square of the frequency;
* "cutoff set by `k`", again: at the frequency that k names, the relative gains for any two k differ by a factor of 2 at most; of any two k, the
  larger lets more through in the stop band of both, but for rounding, and strictly so where they are one part in 32 apart; and it is k that
  sets it, not q: from four times k on, the squares of the relative gains for any two q from 1/√2 up differ by a factor of 2 at most;
* "peak height rising with `q`": of any two q, the larger has the larger peak, wherever it stands, and the larger relative gain at the frequency
  that k names, but for rounding (`gainNotAbove`), and strictly so where they are one part in 32 apart (the peak from q = 1/√2 up, below which
  a second-order low-pass has its largest gain at DC).
A strict rise of the words for every pair is more than the reference itself has (Tests/Slice0.lean `test_reference_gain_falls_by_rounding`), and
the reference is an instance (D6). The bounds are to be in their own domain, so that the clamps lead into it (Laws/Formulas.lean `inDomain_clamp`), and eight times K_MAX is to be a
float word, so that the stop bands have frequencies to be asked at. -/
def soundDesign (c : Config) (design : Word → Word → CoefSet Word) : Bool :=
  inDomain c c.kMin c.qMin && inDomain c c.kMax c.qMax && decide (8 * fpValue c.kMax ≤ fpValue 0x7F7FFFFF) &&
    decide (∀ k q : Word, inDomain c k q = true →
      (design k q).words.all isFinite = true ∧ lowPassSet (design k q) = true) &&
    decide (∀ k q v : Word, inDomain c k q = true → isFinite v = true →
      passesAt (design k q) k q v = true ∧ stopsAt (design k q) k v = true) &&
    decide (∀ k k' q : Word, inDomain c k q = true → inDomain c k' q = true →
      gainAtMostTwice (design k q) k (design k' q) k' = true) &&
    decide (∀ k q q' : Word, inDomain c k q = true → inDomain c k q' = true → fpValue q < fpValue q' →
      gainNotAbove (design k q) k (design k q') k = true ∧ peakNotAbove (design k q) (design k q') = true ∧
      (33 * fpValue q ≤ 32 * fpValue q' →
        gainBelow (design k q) k (design k q') k = true ∧
        (fpValue butterworthQ ≤ fpValue q → peakBelow (design k q) (design k q') = true))) &&
    decide (∀ k k' q v : Word, inDomain c k q = true → inDomain c k' q = true → isFinite v = true → fpValue k < fpValue k' →
      isBeyond 2 k' v = true →
      gainNotAbove (design k q) v (design k' q) v = true ∧
      (33 * fpValue k ≤ 32 * fpValue k' → gainBelow (design k q) v (design k' q) v = true)) &&
    decide (∀ k q q' v : Word, inDomain c k q = true → inDomain c k q' = true → isFinite v = true →
      fpValue butterworthQ ≤ fpValue q → fpValue butterworthQ ≤ fpValue q' → isBeyond 4 k v = true →
      relNum (design k q) v * relDen (design k q') v ≤ 2 * relNum (design k q') v * relDen (design k q) v)

/-- The reference design in the arithmetic of a configuration (R114). -/
def referenceDesign (c : Config) (k q : Word) : CoefSet Word := lpDesignRef (floatArith c (fun i => .design k q i)) k q

/-- The reference arithmetic (R6, R9) in place of a configuration's own. -/
def referenceArithmetic (c : Config) : Config := { c with fp := .binary32, ftz := false }

/-- `LP_DESIGN(k, q)` (R113): the reference, or a function of the two words of which only properties (a), (b) and (c) are known. A number whose
free function lacks them names the reference in the reference arithmetic, kept finite, stable and low-pass. Bounds over which the reference
lacks (c) too are no parameters of a chip, and `DesignHasProperties` of Safety.lean is the premise that leaves them out (log entry 4). -/
def lpDesign (c : Config) (k q : Word) : CoefSet Word :=
  match c.design with
  | .bilinear => referenceDesign c k q
  | .other n => asLowPass (if soundDesign c (Config.otherDesign n) then Config.otherDesign n k q
      else referenceDesign (referenceArithmetic c) k q)

/-- `CALC(k, q) = LP_DESIGN(CLAMP_K(k), CLAMP_Q(q))` (R110). -/
def calculator (c : Config) (k q : Word) : CoefSet Word := lpDesign c (clampK c k) (clampQ c q)

end Sys2Proof.Machine
end

