-- ==== Sys2Proof/Machine/Operands.lean ====
section
/-! DEFINITION. The operand forms. A command names its registers by a channel (R83), by a control index (R84), or not at all; real
values come in as operand words, verbatim (R82). There is no other operand form (no address, no immediate, no register number). -/

namespace Sys2Proof.Machine

/-- The registers of one channel (R34). -/
def Bank.get (b : Bank) : Channel → FilterInstance
  | .mainLeft => b.mainLeft
  | .mainRight => b.mainRight
  | .subLeft => b.subLeft
  | .subRight => b.subRight

/-- The bank with one channel's registers replaced; the other three are as they were (R34). -/
def Bank.set (b : Bank) (ch : Channel) (f : FilterInstance) : Bank :=
  match ch with
  | .mainLeft => { b with mainLeft := f }
  | .mainRight => { b with mainRight := f }
  | .subLeft => { b with subLeft := f }
  | .subRight => { b with subRight := f }

/-- `COEF[ch]` -/
def State.coef (s : State) (ch : Channel) : CoefSet Word := (s.bank.get ch).coef

/-- `Z1[ch]` -/
def State.z1 (s : State) (ch : Channel) : Word := (s.bank.get ch).z1

/-- `Z2[ch]` -/
def State.z2 (s : State) (ch : Channel) : Word := (s.bank.get ch).z2

/-- What a control index names (R84, R171): 0 the cutoff, 1 the resonance, every other index nothing. -/
inductive Control where
  | cutoff | resonance | ignored
  deriving DecidableEq, Repr

/-- The control that an IDX field names. -/
def controlOf (idx : BitVec 16) : Control :=
  if idx = 0 then .cutoff else if idx = 1 then .resonance else .ignored

end Sys2Proof.Machine
end

