-- ==== Sys2Proof/Machine/Ops.lean ====
section
/-! DEFINITION. The named operations over the registers and the ports: register writes, `Respond`, the sample update, the commit step,
the one exception (IllegalCommand) and hardware reset, the fetch of a packet, and the moves of the host. -/

namespace Sys2Proof.Machine

/-! ### Register writes -/

/-- `COEF[ch] <- c` -/
def State.writeCoef (ch : Channel) (c : CoefSet Word) (s : State) : State :=
  { s with bank := s.bank.set ch { s.bank.get ch with coef := c } }

/-- `Z1[ch] <- z1; Z2[ch] <- z2` -/
def State.writeDelay (ch : Channel) (z1 z2 : Word) (s : State) : State :=
  { s with bank := s.bank.set ch { s.bank.get ch with z1 := z1, z2 := z2 } }

/-- `for ch in 0..3: COEF[ch] <- c` (R146, R172, R174) -/
def State.writeAllCoefs (c : CoefSet Word) (s : State) : State :=
  (((s.writeCoef .mainLeft c).writeCoef .mainRight c).writeCoef .subLeft c).writeCoef .subRight c

/-- `for ch in 0..3: Z1[ch] <- 0; Z2[ch] <- 0` (R174) -/
def State.zeroAllDelays (s : State) : State :=
  (((s.writeDelay .mainLeft 0 0).writeDelay .mainRight 0 0).writeDelay .subLeft 0 0).writeDelay .subRight 0 0

/-- `P_K <- v` -/
def State.writePK (v : Word) (s : State) : State := { s with pK := v }

/-- `P_Q <- v` -/
def State.writePQ (v : Word) (s : State) : State := { s with pQ := v }

/-- `Respond(w)` for each word in order: appended at the tail of the response queue (R11, R40). -/
def State.respond (ws : List Word) (s : State) : State := { s with responses := s.responses ++ ws }

/-! ### The sample update and the commit step -/

/-- What the sample update of a channel computes, from the values before the sample (R140, R141). -/
def State.sosResult (s : State) (ch : Channel) (x : Word) : SosResult Word :=
  sosUpdate (floatArith s.cfg (fun i => .sample (s.nanDraws + i))) (s.coef ch) (s.z1 ch) (s.z2 ch) x

/-- The registers after `SOS(ch, x)` (R140): the new delay values, NF, and the draw numbers the sample used up. -/
def State.sosState (ch : Channel) (x : Word) (s : State) : State :=
  let r := s.sosResult ch x
  { (s.writeDelay ch r.nz1 r.nz2).noteFinite [r.acc, r.nz1, r.nz2] with nanDraws := s.nanDraws + sosOps }

/-- `Respond(SOS(ch, x))`, the body of PROCESS and of each quarter of a frame (R143, R173). -/
def State.sample (ch : Channel) (x : Word) (s : State) : State :=
  (s.sosState ch x).respond [(s.sosResult ch x).acc]

/-- One frame of a BLOCK: the four channels in response order (R173). -/
def State.frame (s : State) (f : Frame) : State :=
  (((s.sample .mainLeft f.mainLeft).sample .mainRight f.mainRight).sample .subLeft f.subLeft).sample
    .subRight f.subRight

/-- The frames of a BLOCK in order (R173). -/
def State.frames (s : State) (fs : List Frame) : State := fs.foldl State.frame s

/-- `COMMIT` (R172): one computation, the same set to all four channels, DIRTY cleared, NF noted. No delay register is written. -/
def State.commit (s : State) : State :=
  let c := calculator s.cfg s.pK s.pQ
  ((s.writeAllCoefs c).clearDirty).noteFinite c.words

/-- "if STATUS.DIRTY = 1: COMMIT()" (R173) -/
def State.commitIfDirty (s : State) : State := if s.dirty then s.commit else s

/-! ### The exception and hardware reset -/

/-- `raise IllegalCommand(code, H)` (R221): the first error is recorded, ERR is set, nothing else changes. It saves no program counter,
changes no mode and jumps nowhere (R228), and nothing returns from it but hardware reset (R229). -/
def State.raiseIllegal (cause : IllegalCause) (h : Word) (s : State) : State :=
  (if s.err then s else { s.setErrCode (causeCode cause) with errInfo := h }).setErr

/-- Hardware reset (R250): every register to its value of R43, the partial packet discarded, the response queue emptied, and the reset
input released. The words still waiting on the command port stay ("After reset the core reads the next command-port word as a
header"), and so do the two fields that are the model's own (log entries 1, 3 and 6). -/
def State.hardwareReset (s : State) : State :=
  { State.reset with cmdPort := s.cmdPort, cfg := s.cfg, nanDraws := s.nanDraws }

/-! ### Fetching a packet -/

/-- The words of the packet in progress that the parser has already taken. -/
def Parser.taken : Parser → List Word
  | .idle => []
  | .collect h _ got => h :: got

/-- Why the core waits when no word is there (R13, R64). -/
def Parser.waiting : Parser → Fault
  | .idle => .commandPortEmpty
  | .collect _ _ _ => .packetIncomplete

/-- What the next step does. -/
inductive Fetched where
  /-- the reset input is asserted (R250) -/
  | resetAsserted
  /-- a whole packet has arrived: run it in this state (R63) -/
  | run (i : Instr) (s : State)
  /-- an illegal header was consumed: raise the error in this state (R86) -/
  | illegal (cause : IllegalCause) (h : Word) (s : State)
  /-- the words that have arrived do not end the packet: they are in COLLECT now (R64) -/
  | collecting (s : State)
  /-- no word is there -/
  | waiting (f : Fault)
  deriving DecidableEq, Repr

/-- Takes words from the command port up to the end of the next packet (R12, R86). A packet's words are those the parser holds and
then those on the port. -/
def fetch (s : State) : Fetched :=
  if s.resetLine then .resetAsserted
  else
    match s.cmdPort with
    | [] => .waiting s.parser.waiting
    | _ :: _ =>
      match decode (s.parser.taken ++ s.cmdPort) with
      | .command i rest => .run i { s with parser := .idle, cmdPort := rest }
      | .illegal cause h rest => .illegal cause h { s with parser := .idle, cmdPort := rest }
      | .truncated h need got => .collecting { s with parser := .collect h need got, cmdPort := [] }
      | .empty => .waiting s.parser.waiting

/-! ### The same parser one word at a time (R86 as the rule writes it) -/

/-- What one command-port word makes the parser do besides changing its state. -/
inductive WordEvent where
  | nothing
  | run (i : Instr)
  | illegal (cause : IllegalCause) (h : Word)
  deriving DecidableEq, Repr

/-- One word arrives (R86): in IDLE it is a header; in COLLECT it is the next operand word, and the packet is whole when `need` words
are held. -/
def Parser.take (p : Parser) (w : Word) : Parser × WordEvent :=
  match p with
  | .idle =>
    match decodeHeader w with
    | .error cause => (.idle, .illegal cause w)
    | .ok op =>
      let n := operandCount op w
      if n = 0 then (.idle, .run (assemblePacket op w [])) else (.collect w n [], .nothing)
  | .collect h need got =>
    let got' := got ++ [w]
    if got'.length = need then
      match decodeHeader h with
      | .error cause => (.idle, .illegal cause h)
      | .ok op => (.idle, .run (assemblePacket op h got'))
    else (.collect h need got', .nothing)

/-! ### The moves of the host (R12, R66, R250) -/

/-- The host writes words to the command port. -/
def State.hostWrite (ws : List Word) (s : State) : State := { s with cmdPort := s.cmdPort ++ ws }

/-- The host reads a word from the response port, which removes it (R66). `none` when no word is there. -/
def State.hostRead (s : State) : Option (Word × State) :=
  match s.responses with
  | [] => none
  | w :: rest => some (w, { s with responses := rest })

/-- The host asserts the hardware reset input. The core acts on it at its next step (log entry 6). -/
def State.assertReset (s : State) : State := { s with resetLine := true }

/-- The host writes one word over a byte transport: four bytes in the order of the parameter `PORT_BYTE_ORDER` (R62). -/
def State.hostWriteBytes (a b c d : Byte) (s : State) : State :=
  s.hostWrite [wordOfBytes s.cfg.byteOrder a b c d]

/-- The host reads one word over a byte transport: its four bytes in that order (R62). -/
def State.hostReadBytes (s : State) : Option (List Byte × State) :=
  match s.hostRead with
  | none => none
  | some (w, s') => some (bytesOfWord s.cfg.byteOrder w, s')

end Sys2Proof.Machine
end

