-- ==== Sys2Proof/Machine/Calculator.lean ====
section
/-! DEFINITION. The command of spec/40_coefficient_calculator.md: COMPUTE. -/

namespace Sys2Proof.Machine

/-- COMPUTE (R116): the calculator on two operand words, its five words as responses, NF if one of them is not finite. -/
def execCompute (k q : Word) (s : State) : Host.Outcome State Fault Refusal :=
  let c := calculator s.cfg k q
  .next ((s.respond c.words).noteFinite c.words)

end Sys2Proof.Machine
end

