-- ==== Sys2Proof/Machine/Control.lean ====
section
/-! DEFINITION. The commands of spec/43_control_and_debug.md: NOP, READ_INST, READ_CTRL. -/

namespace Sys2Proof.Machine

/-- NOP (R200): no state changes. -/
def execNop (s : State) : Host.Outcome State Fault Refusal := .next s

/-- READ_INST (R201): one instance's five coefficients and two delay registers. -/
def execReadInst (ch : Channel) (s : State) : Host.Outcome State Fault Refusal :=
  .next (s.respond ((s.coef ch).words ++ [s.z1 ch, s.z2 ch]))

/-- READ_CTRL (R202): the pending parameters and the status. DIRTY is read, not consumed. -/
def execReadCtrl (s : State) : Host.Outcome State Fault Refusal :=
  .next (s.respond [s.pK, s.pQ, s.status, s.errInfo])

end Sys2Proof.Machine
end

