-- ==== Sys2Proof/Machine/Filter.lean ====
section
/-! DEFINITION. The commands of spec/41_filter_instance.md: PROCESS, RESET, ASSIGN, BROADCAST. -/

namespace Sys2Proof.Machine

/-- PROCESS (R143): one sample on one channel. It never commits. -/
def execProcess (ch : Channel) (x : Word) (s : State) : Host.Outcome State Fault Refusal :=
  .next (s.sample ch x)

/-- RESET (R144): zero one instance's delay state. -/
def execReset (ch : Channel) (s : State) : Host.Outcome State Fault Refusal :=
  .next (s.writeDelay ch 0 0)

/-- ASSIGN (R145): load one instance's coefficient set, verbatim. -/
def execAssign (ch : Channel) (c : CoefSet Word) (s : State) : Host.Outcome State Fault Refusal :=
  .next ((s.writeCoef ch c).noteFinite c.words)

/-- BROADCAST (R146): load one coefficient set into all four instances, verbatim. -/
def execBroadcast (c : CoefSet Word) (s : State) : Host.Outcome State Fault Refusal :=
  .next ((s.writeAllCoefs c).noteFinite c.words)

end Sys2Proof.Machine
end

