-- ==== Sys2Proof/Machine/Update.lean ====
section
/-! DEFINITION. The commands of spec/42_update_protocol.md: CTRL_SET, BLOCK, INIT. -/

namespace Sys2Proof.Machine

/-- CTRL_SET (R171): store a pending parameter, verbatim, and set DIRTY; an unknown index changes nothing. -/
def execCtrlSet (idx : BitVec 16) (v : Word) (s : State) : Host.Outcome State Fault Refusal :=
  match controlOf idx with
  | .cutoff => .next (s.writePK v).setDirty
  | .resonance => .next (s.writePQ v).setDirty
  | .ignored => .next s

/-- BLOCK (R173): commit if DIRTY, then every frame in order. -/
def execBlock (frames : List Frame) (s : State) : Host.Outcome State Fault Refusal :=
  .next (s.commitIfDirty.frames frames)

/-- INIT (R174): defaults, zeroed delays, one computation to all four instances, DIRTY = 0, INIT = 1, NF noted. -/
def execInit (s : State) : Host.Outcome State Fault Refusal :=
  let s1 := ((s.writePK s.cfg.kDefault).writePQ s.cfg.qDefault).zeroAllDelays
  let c := calculator s1.cfg s1.pK s1.pQ
  .next ((s1.writeAllCoefs c).clearDirty.setInit.noteFinite c.words)

end Sys2Proof.Machine
end

