-- ==== Sys2Proof/Machine/Dispatch.lean ====
section
/-! DEFINITION. One arm per command. -/

namespace Sys2Proof.Machine

def exec (i : Instr) (s : State) : Host.Outcome State Fault Refusal :=
  match i with
  | .nop => Sys2Proof.Machine.execNop s
  | .init => Sys2Proof.Machine.execInit s
  | .reset ch => Sys2Proof.Machine.execReset ch s
  | .assign ch c => Sys2Proof.Machine.execAssign ch c s
  | .process ch x => Sys2Proof.Machine.execProcess ch x s
  | .compute k q => Sys2Proof.Machine.execCompute k q s
  | .broadcast c => Sys2Proof.Machine.execBroadcast c s
  | .ctrlSet idx v => Sys2Proof.Machine.execCtrlSet idx v s
  | .block frames => Sys2Proof.Machine.execBlock frames s
  | .readInst ch => Sys2Proof.Machine.execReadInst ch s
  | .readCtrl => Sys2Proof.Machine.execReadCtrl s

end Sys2Proof.Machine
end

