-- ==== Sys2Proof/Machine/Step.lean ====
section
/-! DEFINITION. One step of the core ("The *core* executes one complete command packet per step", spec/00_scope.md R12), and the same
machine fed one command-port word at a time (spec/30_encoding.md R86). -/

namespace Sys2Proof.Machine

/-- One step: hardware reset, a command, the error of an illegal header, or the taking in of a partial packet. It stops where no word
is there. -/
def step (s : State) : Host.Outcome State Fault Refusal :=
  match fetch s with
  | .resetAsserted => .next s.hardwareReset
  | .run i s' => exec i s'
  | .illegal cause h s' => .next (s'.raiseIllegal cause h)
  | .collecting s' => .next s'
  | .waiting f => .fault f

/-- One command-port word arrives (R86): what the core does at that moment. -/
def receive (w : Word) (s : State) : Host.Outcome State Fault Refusal :=
  match s.parser.take w with
  | (p, .nothing) => .next { s with parser := p }
  | (p, .run i) => exec i { s with parser := p }
  | (p, .illegal cause h) => .next ({ s with parser := p }.raiseIllegal cause h)

/-- Words arrive one after the other. -/
def receiveAll : List Word → State → Host.Outcome State Fault Refusal
  | [], s => .next s
  | w :: ws, s =>
    match receive w s with
    | .next s' => receiveAll ws s'
    | .fault f => .fault f
    | .refused r => .refused r

/-- The packet of a table word put where the next step fetches: the next words of the command port, with the parser IDLE and the reset
input released. -/
def State.withFetchWord (s : State) (nbits w : Nat) : State :=
  { s with resetLine := false, parser := .idle, cmdPort := tableWords nbits w ++ s.cmdPort }

end Sys2Proof.Machine
end

