-- ==== Sys2Proof/Machine/HostMap.lean ====
section
/-! DEFINITION. The host's side of the boundary (spec/00_scope.md R15, R16, R18): the two control mappings, in exact arithmetic, and the
carrying of interleaved sample buffers by one BLOCK packet. The core computes none of it and no step reads it; a claim about audio is
stated for parameters that these mappings give (R14 e). The precision of the host's own arithmetic is its own (D31). -/

namespace Sys2Proof.Machine

/-- The constant of the cutoff mapping, `K = log2(490)` (R15, D26). -/
noncomputable def hostK : ℝ := Real.logb 2 490

/-- `frequency = 0.001 * sampleRate * 2^(value * K)`, in Hz (R15). -/
noncomputable def hostFrequency (v : ℝ) : ℝ := 0.001 * (sampleRate : ℝ) * (2 : ℝ) ^ (v * hostK)

/-- The normalized cutoff `t = frequency / sampleRate`, in turns, of a control value (R15). -/
noncomputable def hostTurns (v : ℝ) : ℝ := hostFrequency v / (sampleRate : ℝ)

/-- The warped cutoff `k = tan(π·t)` that the host passes with CTRL_SET 0 (R15, D31). -/
noncomputable def hostCutoff (v : ℝ) : ℝ := Real.tan (Real.pi * hostTurns v)

/-- The resonance `q = 2^(value * 4) / sqrt(2)` that the host passes with CTRL_SET 1 (R16; the formula, not the dB figure: C1). -/
noncomputable def hostResonance (v : ℝ) : ℝ := (2 : ℝ) ^ (v * 4) / Real.sqrt 2

/-- The frames that two interleaved stereo buffers hold, main and sub (R18, R173): frame i is `main[2i], main[2i+1], sub[2i], sub[2i+1]`. -/
def framesOfBuffers : List Word → List Word → List Frame
  | mL :: mR :: main, sL :: sR :: sub => ⟨mL, mR, sL, sR⟩ :: framesOfBuffers main sub
  | _, _ => []

/-- The two output buffers from the response words of a BLOCK, "in the same order" (R18). -/
def buffersOfResponses : List Word → List Word × List Word
  | mL :: mR :: sL :: sR :: rest =>
    let b := buffersOfResponses rest
    (mL :: mR :: b.1, sL :: sR :: b.2)
  | _ => ([], [])

end Sys2Proof.Machine
end

