-- ==== Sys2Proof/Safety.lean ====
section
/-! DEFINITION. What claims are stated in: faulted and clean states (spec/00_scope.md R13, spec/60_exceptions.md R221), the invariant that
every step keeps, four-channel coherence (spec/10_state.md R44), runs of commands, and the host contract (R14). -/

namespace Sys2Proof.Machine

/-- "A model treats a state with ERR = 1 as *faulted*" (R221). The core itself goes on (R224). -/
def Faulted (s : State) : Prop := s.err = true

/-- The premises R13 names for a claim about a run: no illegal command, and no NaN or infinity stored or emitted. -/
def Clean (s : State) : Prop := s.err = false ∧ s.nonFinite = false

/-- Every word of the four instances is finite. -/
def AllFinite (s : State) : Prop :=
  ∀ ch, (s.coef ch).words.all isFinite = true ∧ isFinite (s.z1 ch) = true ∧ isFinite (s.z2 ch) = true

/-- STATUS, bits 31:8, "always 0" (R37). -/
def ReservedClear (s : State) : Prop := field s.status 31 8 = 0

/-- The error record (R39, R221, R222): ERRCODE and ERRINFO are 0 until an error is seen, and then they are the cause and the header of an
illegal header. -/
def ErrorRecord (s : State) : Prop :=
  if s.err then ∃ cause, decodeHeader s.errInfo = .error cause ∧ s.errCode = causeCode cause
  else s.errCode = 0 ∧ s.errInfo = 0

/-- The parser in COLLECT (R41): a legal header, its operand count, and fewer words than that. -/
def ParserSound (p : Parser) : Prop :=
  match p with
  | .idle => True
  | .collect h need got => ∃ op, decodeHeader h = .ok op ∧ need = operandCount op h ∧ got.length < need

/-- The invariant of the machine. Its last part is what R225 is for: while NF is 0, no NaN and no infinity stands in a register. -/
structure Inv (s : State) : Prop where
  reserved : ReservedClear s
  record   : ErrorRecord s
  parser   : ParserSound s.parser
  finite   : s.nonFinite = false → AllFinite s

/-- "the four coefficient sets `COEF[0..3]` are bit-identical" (R44). -/
def Coherent (s : State) : Prop := ∀ ch, s.coef ch = s.coef .mainLeft

/-- The configuration is the reference of R6 but for the bits of a produced NaN, which may be a draw or fixed. -/
def ReferenceUpToNaN (c : Config) : Prop := { c with nanOut := referenceConfig.nanOut } = referenceConfig

/-- Commands one after the other (R68). -/
def execAll : List Instr → State → Host.Outcome State Fault Refusal
  | [], s => .next s
  | i :: is, s =>
    match exec i s with
    | .next s' => execAll is s'
    | .fault f => .fault f
    | .refused r => .refused r

/-- The moves of the two agents (R12): the host writes words, reads a word, or asserts hardware reset (R250); the core takes a step. -/
inductive Event where
  | hostWrite (ws : List Word)
  | hostRead
  | assertReset
  | coreStep
  deriving DecidableEq, Repr

/-- One move, with the words the host has read so far. Where the core has no step it is idle "and it keeps all state" (R236); a read of an
empty response port gives nothing. -/
def runEvent (e : Event) (s : State) (got : List Word) : State × List Word :=
  match e with
  | .hostWrite ws => (s.hostWrite ws, got)
  | .hostRead =>
    match s.hostRead with
    | none => (s, got)
    | some (w, s') => (s', got ++ [w])
  | .assertReset => (s.assertReset, got)
  | .coreStep =>
    match step s with
    | .next s' => (s', got)
    | .fault _ => (s, got)
    | .refused _ => (s, got)

/-- A run: the moves in order. -/
def runEvents : List Event → State → List Word → State × List Word
  | [], s, got => (s, got)
  | e :: es, s, got => runEvents es (runEvent e s got).1 (runEvent e s got).2

/-- The observation of a run (R13): the words of the response port, read by the host or still in the queue, and the final registers. -/
structure Observation where
  emitted : List Word
  bank    : Bank
  pK      : Word
  pQ      : Word
  status  : Word
  errInfo : Word
  deriving DecidableEq, Repr

/-- The observation at the end of a run. -/
def observe (r : State × List Word) : Observation :=
  { emitted := r.2 ++ r.1.responses, bank := r.1.bank, pK := r.1.pK, pQ := r.1.pQ, status := r.1.status, errInfo := r.1.errInfo }

/-- The sample of a frame that belongs to a channel (R173). -/
def frameSample (f : Frame) : Channel → Word
  | .mainLeft => f.mainLeft
  | .mainRight => f.mainRight
  | .subLeft => f.subLeft
  | .subRight => f.subRight

/-- A frame as four PROCESS commands, in response order (R143, R173). -/
def frameCommands (f : Frame) : List Instr :=
  [.process .mainLeft f.mainLeft, .process .mainRight f.mainRight, .process .subLeft f.subLeft,
    .process .subRight f.subRight]

/-- The last value that a list of commands writes to the control parameter of an index, or the value held before (R175). -/
def lastControl (idx : BitVec 16) (held : Word) : List Instr → Word
  | [] => held
  | i :: is =>
    match i with
    | .ctrlSet j v => lastControl idx (if j = idx then v else held) is
    | _ => lastControl idx held is

/-- The exact result of a primitive on finite operands, in units of 2^-149 (R9); a division by zero is not asked for. -/
def exactResult (op : FpOp) (a b : Word) : ℚ :=
  match op with
  | .add => (fpValue a : ℚ) + fpValue b
  | .sub => (fpValue a : ℚ) - fpValue b
  | .mul => (fpValue a : ℚ) * fpValue b / 2 ^ 149
  | .div => (fpValue a : ℚ) * 2 ^ 149 / fpValue b

/-- The least magnitude that rounds above 0x7F7FFFFF, in units of 2^-149: half a unit in the last place above the largest finite word. -/
def overflowUnits : ℚ := (2 ^ 25 - 1) * 2 ^ 252

/-- The value of a finite float word as a real number (R8). -/
noncomputable def realValue (w : Word) : ℝ := (fpValue w : ℝ) / 2 ^ 149

/-- A coefficient set of finite words as real numbers. -/
noncomputable def realSet (c : CoefSet Word) : CoefSet ℝ :=
  { f0 := realValue c.f0, f1 := realValue c.f1, f2 := realValue c.f2, b1 := realValue c.b1, b2 := realValue c.b2 }

/-- Both poles lie strictly inside the unit circle, by R118's inequalities. -/
def PolesInside (c : CoefSet ℝ) : Prop := -1 < c.b2 ∧ c.b2 < 1 ∧ |c.b1| < 1 + c.b2

/-- The gain `|H|` of the recurrence (R142) where `z⁻¹` is `w`. DC is w = 1 and Nyquist is w = −1. -/
noncomputable def gainAt (c : CoefSet ℝ) (w : ℂ) : ℝ :=
  ‖((c.f0 : ℂ) + c.f1 * w + c.f2 * w ^ 2) / (1 + c.b1 * w + c.b2 * w ^ 2)‖

/-- `z⁻¹` on the unit circle at the frequency ω whose warped value `tan(ω/2)` is k: `s = (1/k)(1 − z⁻¹)/(1 + z⁻¹)` is i there (R117). -/
noncomputable def cutoffPoint (k : ℝ) : ℂ := (1 - k * Complex.I) / (1 + k * Complex.I)

/-- The gain relative to DC. -/
noncomputable def relativeGain (c : CoefSet ℝ) (w : ℂ) : ℝ := gainAt c w / gainAt c 1

/-- The parameters meet R113: the design function that the core uses, the reference too, has properties (b) and (c) over the clamped domain ((a)
it has by its type). A premise for claims (log entry 4); it leaves out bounds and arithmetics under which a formula gives no such design, such as
a K_MIN at which R114 gives a NaN. -/
def DesignHasProperties (c : Config) : Prop := soundDesign c (lpDesign c) = true

/-- Property (c) of R113 for a design in real arithmetic, "a second-order low-pass response with cutoff set by `k` and peak height rising with
`q`". DESIGN CHOICE (log entry 4): the rule gives no formula, and this reading of its words is the model's. It is stated over real numbers,
since one rounding of a word may undo a strict rise; `soundDesign` of Machine/Formulas.lean is the form for float words, which `lpDesign` asks
of every design that is not the reference. -/
structure LowPassDesign (design : ℝ → ℝ → CoefSet ℝ) (kMin kMax qMin qMax : ℝ) : Prop where
  /-- stable (D25) -/
  stable : ∀ k q, kMin ≤ k → k ≤ kMax → qMin ≤ q → q ≤ qMax → PolesInside (design k q)
  /-- low-pass: Nyquist comes out weaker than DC -/
  lowPass : ∀ k q, kMin ≤ k → k ≤ kMax → qMin ≤ q → q ≤ qMax → gainAt (design k q) (-1) < gainAt (design k q) 1
  /-- the pass band: frequencies no higher than half of k, and of k·q -/
  passBand : ∀ k q v, kMin ≤ k → k ≤ kMax → qMin ≤ q → q ≤ qMax → 0 ≤ v → 2 * v ≤ k → 2 * v ≤ k * q →
    1 / 2 ≤ relativeGain (design k q) (cutoffPoint v) ∧ relativeGain (design k q) (cutoffPoint v) ≤ 2
  /-- the stop band, of second order: frequencies from twice k on -/
  stopBand : ∀ k q v, kMin ≤ k → k ≤ kMax → qMin ≤ q → q ≤ qMax → 2 * k ≤ v →
    relativeGain (design k q) (cutoffPoint v) * v ^ 2 ≤ 2 * k ^ 2
  /-- cutoff set by k: what the filter does at the frequency that k names is the same for every k -/
  cutoff : ∀ k k' q, kMin ≤ k → k ≤ kMax → kMin ≤ k' → k' ≤ kMax → qMin ≤ q → q ≤ qMax →
    relativeGain (design k q) (cutoffPoint k) = relativeGain (design k' q) (cutoffPoint k')
  /-- of two k the larger lets more through in the stop band of both -/
  skirt : ∀ k k' q v, kMin ≤ k → k < k' → k' ≤ kMax → qMin ≤ q → q ≤ qMax → 2 * k' ≤ v →
    relativeGain (design k q) (cutoffPoint v) < relativeGain (design k' q) (cutoffPoint v)
  /-- the cutoff is set by k and not by q: far in the stop band, q from 1/√2 up changes little -/
  skirtOfK : ∀ k q q' v, kMin ≤ k → k ≤ kMax → qMin ≤ q → q ≤ qMax → qMin ≤ q' → q' ≤ qMax →
    1 / Real.sqrt 2 ≤ q → 1 / Real.sqrt 2 ≤ q' → 4 * k ≤ v →
    relativeGain (design k q) (cutoffPoint v) ^ 2 ≤ 2 * relativeGain (design k q') (cutoffPoint v) ^ 2
  /-- the peak, wherever it stands, does not fall with q, and it rises from q = 1/√2 up -/
  peakHeight : ∀ k q q', kMin ≤ k → k ≤ kMax → qMin ≤ q → q < q' → q' ≤ qMax →
    (∀ v, 0 ≤ v → ∃ v', 0 ≤ v' ∧ relativeGain (design k q) (cutoffPoint v) ≤ relativeGain (design k q') (cutoffPoint v')) ∧
    (1 / Real.sqrt 2 ≤ q → ∃ v', 0 ≤ v' ∧
      ∀ v, 0 ≤ v → relativeGain (design k q) (cutoffPoint v) < relativeGain (design k q') (cutoffPoint v'))
  /-- the gain at the frequency that k names rises with q -/
  peak : ∀ k q q', kMin ≤ k → k ≤ kMax → qMin ≤ q → q < q' → q' ≤ qMax →
    relativeGain (design k q) (cutoffPoint k) < relativeGain (design k q') (cutoffPoint k)

/-- The command writes a pending parameter that the core knows (R171). -/
def updatesControl : Instr → Bool
  | .ctrlSet idx _ => decide (idx = 0 ∨ idx = 1)
  | .nop => false
  | .init => false
  | .reset _ => false
  | .assign _ _ => false
  | .process _ _ => false
  | .compute _ _ => false
  | .broadcast _ => false
  | .block _ => false
  | .readInst _ => false
  | .readCtrl => false

/-- The host duty (a) of R14 alone: an INIT has been sent before every BLOCK. The argument says whether one has been sent already. -/
def initBeforeBlock (initSent : Bool) : List Instr → Bool
  | [] => true
  | .init :: is => initBeforeBlock true is
  | .block _ :: is => initSent && initBeforeBlock initSent is
  | .nop :: is => initBeforeBlock initSent is
  | .reset _ :: is => initBeforeBlock initSent is
  | .assign _ _ :: is => initBeforeBlock initSent is
  | .process _ _ :: is => initBeforeBlock initSent is
  | .compute _ _ :: is => initBeforeBlock initSent is
  | .broadcast _ :: is => initBeforeBlock initSent is
  | .ctrlSet _ _ :: is => initBeforeBlock initSent is
  | .readInst _ :: is => initBeforeBlock initSent is
  | .readCtrl :: is => initBeforeBlock initSent is

/-- The host duties (a) and (b) of R14 on the commands it sends, with R252: INIT once, before the first BLOCK, and neither RESET nor INIT
from the first BLOCK on. The arguments say whether INIT has been sent and whether the stream has begun. Breaking them is defined
behaviour of the core, so no definition of the machine reads this. DESIGN CHOICE (log entry 17): the spec does not say where a continuous
stream (R253) begins and ends; here the first BLOCK begins it, PROCESS never does, and it does not end. -/
def hostContract (initSent streaming : Bool) : List Instr → Bool
  | [] => true
  | .init :: is => !initSent && !streaming && hostContract true streaming is
  | .block _ :: is => initSent && hostContract initSent true is
  | .reset _ :: is => !streaming && hostContract initSent streaming is
  | .nop :: is => hostContract initSent streaming is
  | .assign _ _ :: is => hostContract initSent streaming is
  | .process _ _ :: is => hostContract initSent streaming is
  | .compute _ _ :: is => hostContract initSent streaming is
  | .broadcast _ :: is => hostContract initSent streaming is
  | .ctrlSet _ _ :: is => hostContract initSent streaming is
  | .readInst _ :: is => hostContract initSent streaming is
  | .readCtrl :: is => hostContract initSent streaming is

end Sys2Proof.Machine
end

