-- ==== Sys2Proof/Certificates/Slice0/Obligations.lean ====
section
/-! DEFINITION. The statements for the provers. Each says what the machine does by the rules of spec/, in terms of `exec`, `step`, `decode` and
the state's own fields. OBLIGATIONS.json lists them. Where a statement writes a next state out, every field it does not name is as before:
that is its frame. -/

open Sys2Proof Sys2Proof.Machine

/-! ### The commands: the next state of each (R116, R143 to R146, R171 to R174, R200 to R202) -/

/-- NOP (R200): no state changes, its header is the zero word, and a header with OPC 0x00 and any other bit set is illegal with code 2. A zero word met in IDLE is a
NOP, so a run of them is a run of NOPs; one met in COLLECT is an operand. -/
def Obligations.NopChangesNothing : Prop :=
  (∀ s : State, exec .nop s = .next s) ∧ encode .nop = [0x00000000] ∧
    (∀ h : Word, opcField h = 0 → h ≠ 0 → decodeHeader h = .error .reservedBits) ∧ causeCode .reservedBits = 2 ∧
    (∀ (s : State) (rest : List Word), s.resetLine = false → s.parser = .idle → s.cmdPort = 0 :: rest →
      step s = .next { s with cmdPort := rest }) ∧
    ∀ (h : Word) (need : Nat) (got : List Word), got.length + 1 < need →
      (Parser.collect h need got).take 0 = (.collect h need (got ++ [0]), .nothing)

/-- RESET (R144): both delay registers of the channel become +0; its coefficients, the other channels and every other register stay. -/
def Obligations.ResetZeroesTheDelaysOfOneChannel : Prop :=
  ∀ (ch : Channel) (s : State),
    exec (.reset ch) s = .next { s with bank := s.bank.set ch { coef := s.coef ch, z1 := 0, z2 := 0 } } ∧
    encode (.reset ch) = [0x02000000 ||| (BitVec.ofNat 32 ch.index <<< 16)] ∧
    ∀ ch' : Channel, ch' ≠ ch →
      (s.bank.set ch { coef := s.coef ch, z1 := 0, z2 := 0 }).get ch' = s.bank.get ch'

/-- ASSIGN (R145): the five words verbatim into one channel, its delay registers untouched, NF when a word is not finite, nothing else. -/
def Obligations.AssignLoadsOneCoefficientSet : Prop :=
  ∀ (ch : Channel) (c : CoefSet Word) (s : State),
    exec (.assign ch c) s = .next { s with
      bank := s.bank.set ch { coef := c, z1 := s.z1 ch, z2 := s.z2 ch }
      status := if c.words.all isFinite then s.status else s.status ||| 0x8 } ∧
    encode (.assign ch c) = [0x03000000 ||| (BitVec.ofNat 32 ch.index <<< 16), c.f0, c.f1, c.f2, c.b1, c.b2] ∧
    ∀ ch' : Channel, ch' ≠ ch →
      (s.bank.set ch { coef := c, z1 := s.z1 ch, z2 := s.z2 ch }).get ch' = s.bank.get ch'

/-- BROADCAST (R146): the five words verbatim into all four channels, every delay register untouched, NF when a word is not finite. -/
def Obligations.BroadcastLoadsAllFourCoefficientSets : Prop :=
  ∀ (c : CoefSet Word) (s : State),
    exec (.broadcast c) s = .next { s with
      bank :=
        { mainLeft := { coef := c, z1 := s.z1 .mainLeft, z2 := s.z2 .mainLeft }
          mainRight := { coef := c, z1 := s.z1 .mainRight, z2 := s.z2 .mainRight }
          subLeft := { coef := c, z1 := s.z1 .subLeft, z2 := s.z2 .subLeft }
          subRight := { coef := c, z1 := s.z1 .subRight, z2 := s.z2 .subRight } }
      status := if c.words.all isFinite then s.status else s.status ||| 0x8 } ∧
    encode (.broadcast c) = [0x06000000, c.f0, c.f1, c.f2, c.b1, c.b2]

/-- PROCESS (R143) runs the recurrence of R140 once, all reads of the values before the sample (R141), and responds with `acc`. The operation
numbers name the NaN draws only (the model's choice, log entry 3), and the statement holds for every value of `nanDraws`. -/
def Obligations.ProcessRunsTheRecurrence : Prop :=
  ∀ (ch : Channel) (x : Word) (s : State),
    let fop (op : FpOp) (n : Nat) (a b : Word) : Word := fpOp s.cfg op (.sample (s.nanDraws + n)) a b
    let acc := fop .add 1 (fop .mul 0 (s.coef ch).f0 x) (s.z1 ch)
    let nz1 := fop .sub 5 (fop .add 3 (fop .mul 2 (s.coef ch).f1 x) (s.z2 ch)) (fop .mul 4 (s.coef ch).b1 acc)
    let nz2 := fop .sub 8 (fop .mul 6 (s.coef ch).f2 x) (fop .mul 7 (s.coef ch).b2 acc)
    exec (.process ch x) s = .next { s with
      bank := s.bank.set ch { coef := s.coef ch, z1 := nz1, z2 := nz2 }
      status := if isFinite acc && isFinite nz1 && isFinite nz2 then s.status else s.status ||| 0x8
      responses := s.responses ++ [acc]
      nanDraws := s.nanDraws + 9 } ∧
    encode (.process ch x) = [0x04000000 ||| (BitVec.ofNat 32 ch.index <<< 16), x]

/-- COMPUTE (R116): five response words, the design function on the clamped operands; no register changes but NF. Under the reference design the
five words are R114's formula, operation by operation. The `.design` keys name the NaN draws only (the model's choice, log entry 3). -/
def Obligations.ComputeExposesTheCalculator : Prop :=
  ∀ (k q : Word) (s : State),
    (let c := lpDesign s.cfg (clampK s.cfg k) (clampQ s.cfg q)
     exec (.compute k q) s = .next { s with
      responses := s.responses ++ [c.f0, c.f1, c.f2, c.b1, c.b2]
      status := if c.words.all isFinite then s.status else s.status ||| 0x8 }) ∧
    encode (.compute k q) = [0x05000000, k, q] ∧
    (s.cfg.design = .bilinear →
      let fop (op : FpOp) (n : Nat) (a b : Word) : Word :=
        fpOp s.cfg op (.design (clampK s.cfg k) (clampQ s.cfg q) n) a b
      let kk := fop .mul 0 (clampK s.cfg k) (clampK s.cfg k)
      let kq := fop .div 1 (clampK s.cfg k) (clampQ s.cfg q)
      let d := fop .add 3 (fop .add 2 0x3F800000 kq) kk
      let inv := fop .div 4 0x3F800000 d
      let f0 := fop .mul 5 kk inv
      lpDesign s.cfg (clampK s.cfg k) (clampQ s.cfg q) =
        { f0 := f0
          f1 := fop .mul 6 0x40000000 f0
          f2 := f0
          b1 := fop .mul 9 (fop .mul 8 0x40000000 (fop .sub 7 kk 0x3F800000)) inv
          b2 := fop .mul 12 (fop .add 11 (fop .sub 10 0x3F800000 kq) kk) inv })

/-- CTRL_SET (R171): index 0 writes P_K and index 1 writes P_Q, verbatim, each setting DIRTY; every other index changes nothing. -/
def Obligations.CtrlSetStoresAPendingParameter : Prop :=
  ∀ (idx : BitVec 16) (v : Word) (s : State),
    exec (.ctrlSet idx v) s = .next
      (if idx = 0 then { s with pK := v, status := s.status ||| 0x1 }
       else if idx = 1 then { s with pQ := v, status := s.status ||| 0x1 }
       else s) ∧
    encode (.ctrlSet idx v) = [0x07000000 ||| idx.zeroExtend 32, v]

/-- BLOCK (R172, R173): a commit of `CALC(P_K, P_Q)` to all four channels if DIRTY, and then the frames, each as four PROCESS commands in response
order; four response words a frame, DIRTY clear at the end. -/
def Obligations.BlockCommitsOnceThenProcessesItsFrames : Prop :=
  ∀ (frames : List Frame) (s : State),
    let c := calculator s.cfg s.pK s.pQ
    let cleared := s.status &&& ~~~(0x1#32)
    let committed : State :=
      { s with
        bank :=
          { mainLeft := { coef := c, z1 := s.z1 .mainLeft, z2 := s.z2 .mainLeft }
            mainRight := { coef := c, z1 := s.z1 .mainRight, z2 := s.z2 .mainRight }
            subLeft := { coef := c, z1 := s.z1 .subLeft, z2 := s.z2 .subLeft }
            subRight := { coef := c, z1 := s.z1 .subRight, z2 := s.z2 .subRight } }
        status := if c.words.all isFinite then cleared else cleared ||| 0x8 }
    ∃ (t : State) (ys : List Word),
      exec (.block frames) s = .next t ∧
      execAll (frames.flatMap frameCommands) (if s.dirty then committed else s) = .next t ∧
      t.responses = s.responses ++ ys ∧ ys.length = 4 * frames.length ∧ t.dirty = false

/-- INIT (R174): the defaults into P_K and P_Q, every delay register +0, one calculation into all four coefficient sets, DIRTY = 0, INIT = 1, NF
noted; ERR, ERRCODE, ERRINFO, an NF already set and the response queue stay. The defaults are parameters, with the values of R6 in the reference
configuration. -/
def Obligations.InitLoadsTheDefaults : Prop :=
  ∀ s : State,
    let c := calculator s.cfg s.cfg.kDefault s.cfg.qDefault
    let fresh : FilterInstance := { coef := c, z1 := 0, z2 := 0 }
    let flags := (s.status &&& ~~~(0x1#32)) ||| 0x2
    exec .init s = .next { s with
      bank := { mainLeft := fresh, mainRight := fresh, subLeft := fresh, subRight := fresh }
      pK := s.cfg.kDefault
      pQ := s.cfg.qDefault
      status := if c.words.all isFinite then flags else flags ||| 0x8 } ∧
    encode .init = [0x01000000] ∧
    referenceConfig.kDefault = 0x41FE907B ∧ referenceConfig.qDefault = 0x3F3504F3

/-- READ_INST (R201): seven response words, and nothing else changes. -/
def Obligations.ReadInstReturnsOneChannel : Prop :=
  ∀ (ch : Channel) (s : State),
    exec (.readInst ch) s = .next { s with
      responses := s.responses ++
        [(s.coef ch).f0, (s.coef ch).f1, (s.coef ch).f2, (s.coef ch).b1, (s.coef ch).b2, s.z1 ch, s.z2 ch] } ∧
    encode (.readInst ch) = [0x09000000 ||| (BitVec.ofNat 32 ch.index <<< 16)]

/-- READ_CTRL (R202): four response words, and nothing else changes; DIRTY is not consumed. Where STATUS keeps its reserved bits 0, the word
returned has them 0. -/
def Obligations.ReadCtrlReturnsParametersAndStatus : Prop :=
  (∀ s : State, exec .readCtrl s = .next { s with responses := s.responses ++ [s.pK, s.pQ, s.status, s.errInfo] }) ∧
  encode .readCtrl = [0x0A000000] ∧
  ∀ s : State, ReservedClear s → s.status.toNat < 2 ^ 8

/-! ### Encoding (R80 to R93) -/

/-- Legality of a header (R81, R87), in the fields of R80: which headers give which cause. -/
def Obligations.HeaderLegalityByFields : Prop :=
  ∀ h : Word,
    (decodeHeader h = .error .unknownOpcode ↔ 0x0A < opcField h) ∧
    (decodeHeader h = .error .reservedBits ↔ opcField h ≤ 0x0A ∧
      ¬ (if opcField h = 0x02 ∨ opcField h = 0x03 ∨ opcField h = 0x04 ∨ opcField h = 0x09 then
           field h 23 18 = 0 ∧ field h 15 0 = 0
         else if opcField h = 0x07 ∨ opcField h = 0x08 then field h 23 16 = 0
         else field h 23 0 = 0)) ∧
    causeCode .unknownOpcode = 1 ∧ causeCode .reservedBits = 2

/-- The opcode map as match and mask (R89): a header is legal with a mnemonic exactly when it matches that mnemonic's row, no header matches two rows,
and the operand and response columns are as the table says. -/
def Obligations.HeaderSpellsExactlyOneRow : Prop :=
  (∀ (h : Word) (op : Op), decodeHeader h = .ok op ↔ ∃ r ∈ opTable, r.op = op ∧ h &&& r.mask = r.pattern) ∧
  (∀ (h : Word) (r r' : OpRow), r ∈ opTable → r' ∈ opTable →
    h &&& r.mask = r.pattern → h &&& r'.mask = r'.pattern → r = r') ∧
  opTable.map (fun r => operandCount r.op r.pattern) = [0, 0, 0, 5, 1, 2, 5, 1, 0, 0, 0] ∧
  (∀ h : Word, operandCount .block h = 4 * field h 15 0) ∧
  ∀ (ch : Channel) (c : CoefSet Word) (x k q v : Word) (idx : BitVec 16) (fs : List Frame),
    [.nop, .init, .reset ch, .assign ch c, .process ch x, .compute k q, .broadcast c, .ctrlSet idx v, .block fs, .readInst ch,
      .readCtrl].map responseCount = [0, 0, 0, 0, 1, 5, 0, 0, 4 * fs.length, 7, 4]

/-- Decode and encode agree: the words of a well-formed command, before any other words, decode to that command with all its operands. -/
def Obligations.DecodeReadsBackEveryEncodedCommand : Prop :=
  ∀ (i : Instr) (rest : List Word), i.wellFormed = true → decode (encode i ++ rest) = .command i rest

/-- The other direction: whatever words decode to a command are the words of that command, which is well formed. -/
def Obligations.DecodedWordsAreTheEncodingOfTheCommand : Prop :=
  ∀ (ws : List Word) (i : Instr) (rest : List Word),
    decode ws = .command i rest → ws = encode i ++ rest ∧ i.wellFormed = true

/-- Some words written out from the encoding tables, and what they spell (sanity). -/
def Obligations.WrittenOutWordsDecode : Prop :=
  decode [0x00000000] = .command .nop [] ∧
  decode [0x02030000] = .command (.reset .subRight) [] ∧
  decode [0x03010000, 1, 2, 3, 4, 5, 6] = .command (.assign .mainRight ⟨1, 2, 3, 4, 5⟩) [6] ∧
  decode [0x0700FFFF, 7] = .command (.ctrlSet 65535 7) [] ∧
  decode [0x08000001, 1, 2, 3, 4] = .command (.block [⟨1, 2, 3, 4⟩]) [] ∧
  decode [0x0A000100, 0] = .illegal .reservedBits 0x0A000100 [0] ∧
  decode [0xFF3FFFFF] = .illegal .unknownOpcode 0xFF3FFFFF [] ∧
  decode [0x05000000, 9] = .truncated 0x05000000 2 [9]

/-- Response accounting (R256): every command appends exactly as many words as the "responses" column says, and an illegal header none. -/
def Obligations.EveryCommandReturnsItsResponseCount : Prop :=
  (∀ (i : Instr) (s : State), ∃ (t : State) (ys : List Word),
    exec i s = .next t ∧ t.responses = s.responses ++ ys ∧ ys.length = responseCount i) ∧
  ∀ (cause : IllegalCause) (h : Word) (s : State), (s.raiseIllegal cause h).responses = s.responses

/-- The byte order of a byte transport (R62): in little-endian order the first byte is bits 7:0 and the fourth is bits 31:24; in either order a word
written as bytes reads back. That the order may be big-endian at all, and what that is, is the model's choice (log entry 16): R62 names little-endian alone. -/
def Obligations.ByteTransportKeepsWords : Prop :=
  (∀ a b c d : Byte,
    (wordOfBytes .little a b c d).extractLsb' 0 8 = a ∧ (wordOfBytes .little a b c d).extractLsb' 24 8 = d) ∧
  ∀ (order : ByteOrder) (a b c d : Byte), bytesOfWord order (wordOfBytes order a b c d) = [a, b, c, d]

/-- The pseudo-commands (R93): what each stands for, RESET_ALL as RESET 0, 1, 2, 3 in that order, what RESET_ALL leaves alone, and that BROADCAST gives the state of four ASSIGNs. -/
def Obligations.PseudoCommandsStandForTheirPackets : Prop :=
  (∀ v : Word, (Pseudo.setCutoff v).expand = [.ctrlSet 0 v] ∧ (Pseudo.setResonance v).expand = [.ctrlSet 1 v]) ∧
  Pseudo.resetAll.expand.flatMap encode = [0x02000000, 0x02010000, 0x02020000, 0x02030000] ∧
  Pseudo.resetAll.expand = [.reset .mainLeft, .reset .mainRight, .reset .subLeft, .reset .subRight] ∧
  (∀ c : CoefSet Word, (Pseudo.assignAll c).expand = [.broadcast c]) ∧
  (∀ mL mR sL sR : Word, (Pseudo.frame ⟨mL, mR, sL, sR⟩).expand.flatMap encode = [0x08000001, mL, mR, sL, sR]) ∧
  (∀ s : State, ∃ t : State, execAll Pseudo.resetAll.expand s = .next t ∧
    t.pK = s.pK ∧ t.pQ = s.pQ ∧ t.status = s.status ∧
    ∀ ch : Channel, t.coef ch = s.coef ch ∧ t.z1 ch = 0 ∧ t.z2 ch = 0) ∧
  ∀ (c : CoefSet Word) (s : State), ∃ t : State,
    exec (.broadcast c) s = .next t ∧
    execAll [.assign .mainLeft c, .assign .mainRight c, .assign .subLeft c, .assign .subRight c] s = .next t

/-! ### Steps (R12, R13, R63, R64, R86, R221, R250) -/

/-- A step runs the decoded command: when the words at the parser and the port spell a whole packet, the step is that command's meaning, with the packet
consumed and the parser IDLE. -/
def Obligations.StepRunsTheDecodedCommand : Prop :=
  (∀ (s : State) (i : Instr) (rest : List Word),
    s.resetLine = false → s.parser = .idle → i.wellFormed = true → s.cmdPort = encode i ++ rest →
    step s = exec i { s with cmdPort := rest }) ∧
  ∀ (s : State) (i : Instr) (rest : List Word),
    s.resetLine = false → s.cmdPort ≠ [] → decode (s.parser.taken ++ s.cmdPort) = .command i rest →
    step s = exec i { s with parser := .idle, cmdPort := rest }

/-- An illegal header (R86, R221): it is consumed alone, ERR is set, and the first error alone is recorded in ERRCODE and ERRINFO; nothing else changes.
No command changes the error record, so only hardware reset clears it. -/
def Obligations.IllegalHeaderTakesTheErrorAction : Prop :=
  (∀ (s : State) (h : Word) (rest : List Word) (cause : IllegalCause),
    s.resetLine = false → s.parser = .idle → s.cmdPort = h :: rest → decodeHeader h = .error cause →
    step s = .next { s with
      cmdPort := rest
      status := (if s.err then s.status
        else (s.status &&& ~~~(0xF0#32)) ||| (BitVec.ofNat 32 (causeCode cause) <<< 4)) ||| 0x4
      errInfo := if s.err then s.errInfo else h }) ∧
  ∀ (i : Instr) (s : State), ∃ t : State,
    exec i s = .next t ∧ t.err = s.err ∧ t.errCode = s.errCode ∧ t.errInfo = s.errInfo

/-- A partial packet (R64): cut anywhere, it has no effect but to be collected; the core has no step until a word comes; and when the rest comes the
packet runs as if it had come whole. -/
def Obligations.PartialPacketWaitsForItsRest : Prop :=
  ∀ (s : State) (i : Instr) (front back rest : List Word),
    s.resetLine = false → s.parser = .idle → i.wellFormed = true →
    encode i = front ++ back → front ≠ [] → back ≠ [] → s.cmdPort = front →
    let s1 : State := { s with parser := .collect i.header i.operands.length front.tail, cmdPort := [] }
    step s = .next s1 ∧ step s1 = .fault .packetIncomplete ∧
      step (s1.hostWrite (back ++ rest)) = exec i { s with cmdPort := rest }

/-- The parser of R86, one word at a time, and the step, one packet at a time (log entry 5), are the same machine: feeding the words of a command runs it at its last
word, and so does a step on them; an illegal header is the same error either way; the words of a partial packet leave the same partial packet; and from a sound
COLLECT state a step does what the words it takes do one at a time, whether they end the packet or not. -/
def Obligations.WordSerialAndPacketStepsAgree : Prop :=
  (∀ (s : State) (i : Instr), s.parser = .idle → i.wellFormed = true → receiveAll (encode i) s = exec i s) ∧
  (∀ (s : State) (i : Instr) (rest : List Word),
    s.resetLine = false → s.parser = .idle → i.wellFormed = true → s.cmdPort = encode i ++ rest →
    step s = receiveAll (encode i) { s with cmdPort := rest }) ∧
  (∀ (s : State) (h : Word) (rest : List Word) (cause : IllegalCause),
    s.resetLine = false → s.parser = .idle → s.cmdPort = h :: rest → decodeHeader h = .error cause →
    step s = receive h { s with cmdPort := rest }) ∧
  (∀ (s : State) (i : Instr) (front back : List Word),
    s.resetLine = false → s.parser = .idle → i.wellFormed = true →
    encode i = front ++ back → front ≠ [] → back ≠ [] → s.cmdPort = front →
    step s = receiveAll front { s with cmdPort := [] }) ∧
  ∀ (s : State) (h : Word) (need : Nat) (got : List Word),
    s.resetLine = false → s.parser = .collect h need got → ParserSound s.parser → s.cmdPort ≠ [] →
    let n := need - got.length
    step s = receiveAll (s.cmdPort.take n) { s with cmdPort := s.cmdPort.drop n }

/-- A step that has a word, or the reset input, gives a next state (R63: every command completes; R220: nothing interrupts one). R13 ends a run when the port
holds no complete packet; that `step` collects the words of a partial packet first, and stops exactly where no word is there, is the model's choice
(log entry 5), and so are the two faults it stops with, named by whether a packet is half read (log entry 7). -/
def Obligations.StepStopsOnlyForWantOfWords : Prop :=
  ∀ s : State,
    (s.resetLine = false ∧ s.cmdPort = [] →
      step s = .fault (if s.parser = .idle then .commandPortEmpty else .packetIncomplete)) ∧
    (s.resetLine = true ∨ s.cmdPort ≠ [] → ∃ t : State, step s = .next t)

/-- Hardware reset (R43, R250): every register to its reset value, the partial packet discarded, the response queue emptied. The words on the command
port, the configuration and the draw counter stay, which is the model's reading (log entries 1, 3, 6). -/
def Obligations.HardwareResetGivesTheResetValues : Prop :=
  ∀ s : State, s.resetLine = true →
    ∃ t : State, step s = .next t ∧
      (∀ ch : Channel, t.coef ch = { f0 := 0, f1 := 0, f2 := 0, b1 := 0, b2 := 0 } ∧ t.z1 ch = 0 ∧ t.z2 ch = 0) ∧
      t.pK = 0 ∧ t.pQ = 0 ∧ t.status = 0 ∧ t.errInfo = 0 ∧ t.responses = [] ∧ t.parser = .idle ∧
      t.resetLine = false ∧ t.cmdPort = s.cmdPort ∧ t.cfg = s.cfg ∧ t.nanDraws = s.nanDraws

/-- The state after reset (R43). -/
def Obligations.ResetStateHoldsTheResetValues : Prop :=
  (∀ ch : Channel, State.reset.coef ch = { f0 := 0, f1 := 0, f2 := 0, b1 := 0, b2 := 0 } ∧
    State.reset.z1 ch = 0 ∧ State.reset.z2 ch = 0) ∧
  State.reset.pK = 0 ∧ State.reset.pQ = 0 ∧ State.reset.dirty = false ∧ State.reset.initDone = false ∧
  State.reset.err = false ∧ State.reset.nonFinite = false ∧ State.reset.errCode = 0 ∧ State.reset.status = 0 ∧
  State.reset.errInfo = 0 ∧ State.reset.responses = [] ∧ State.reset.parser = .idle

/-! ### Invariants and whole-machine rules -/

/-- Every step keeps the invariant: the reserved bits of STATUS 0, the error record sound, the parser sound, and no NaN or infinity in a coefficient or delay
register while NF is 0 (R37, R39, R41, R221, R222, R225). -/
def Obligations.EveryStepKeepsTheInvariant : Prop :=
  ∀ s t : State, Inv s → step s = .next t → Inv t

/-- The invariant holds after reset. -/
def Obligations.ResetStateMeetsTheInvariant : Prop := Inv State.reset

/-- The response queue is first in, first out (R40, R66): a step other than hardware reset only appends, and the host takes words from the head. -/
def Obligations.ResponseQueueIsFirstInFirstOut : Prop :=
  (∀ s t : State, s.resetLine = false → step s = .next t → ∃ ys : List Word, t.responses = s.responses ++ ys) ∧
  (∀ s : State, s.responses = [] → s.hostRead = none) ∧
  ∀ (s : State) (w : Word) (ws : List Word),
    s.responses = w :: ws → s.hostRead = some (w, { s with responses := ws })

/-- When the host reads its responses makes no difference (R13, R40, R66): over any run without a reset, the same moves without the reads give the same observation,
and every word emitted before stays in place: nothing is dropped, duplicated or reordered. -/
def Obligations.HostReadsDisturbNothing : Prop :=
  ∀ (es : List Event) (s : State), s.resetLine = false → Event.assertReset ∉ es →
    observe (runEvents es s []) = observe (runEvents (es.filter (· ≠ .hostRead)) s []) ∧
    ∃ ys : List Word, (observe (runEvents es s [])).emitted = s.responses ++ ys

/-- No step changes the implementation parameters (the model's own field, log entry 1). -/
def Obligations.NoStepChangesTheConfiguration : Prop :=
  ∀ s t : State, step s = .next t → t.cfg = s.cfg

/-- Where the invariant holds, the decoder of STATUS words reads the word and gives its fields (R37, R222); and it refuses exactly the words with a reserved bit
31:8 set (I13) or an ERRCODE from 3 to 15 (I12). -/
def Obligations.StatusWordOfASoundStateDecodes : Prop :=
  (∀ s : State, Inv s →
    ∃ f : StatusFields, decodeStatus s.status = some f ∧
      f.dirty = s.dirty ∧ f.initDone = s.initDone ∧ f.err = s.err ∧ f.nonFinite = s.nonFinite ∧
      (f.cause = none ↔ s.err = false) ∧ ∀ cause, f.cause = some cause → s.errCode = causeCode cause) ∧
  ∀ w : Word, decodeStatus w = none ↔ field w 31 8 ≠ 0 ∨ 3 ≤ field w 7 4

/-- Who writes a coefficient set (R32): ASSIGN of that channel, BROADCAST, INIT, or a BLOCK that finds DIRTY set. -/
def Obligations.OnlyTheNamedCommandsWriteCoefficients : Prop :=
  ∀ (i : Instr) (s t : State) (ch : Channel),
    exec i s = .next t → t.coef ch ≠ s.coef ch →
    (∃ c, i = .assign ch c) ∨ (∃ c, i = .broadcast c) ∨ i = .init ∨ (∃ fs, i = .block fs ∧ s.dirty = true)

/-- Who writes a delay register (R33, R177): PROCESS and RESET of that channel, INIT, or a BLOCK with a frame. So no parameter change resets a delay. -/
def Obligations.OnlyTheNamedCommandsWriteDelays : Prop :=
  ∀ (i : Instr) (s t : State) (ch : Channel),
    exec i s = .next t → (t.z1 ch ≠ s.z1 ch ∨ t.z2 ch ≠ s.z2 ch) →
    (∃ x, i = .process ch x) ∨ i = .reset ch ∨ i = .init ∨ (∃ fs, i = .block fs ∧ fs ≠ [])

/-- Who writes P_K, P_Q and the STATUS fields DIRTY and INIT (R35, R36, R37); that no command touches the reserved bits of STATUS; and that on the response port a
command only appends. The last four equations are about the model's own form: the parser between packets and the waiting words (log entry 5), the reset input
(log entry 6) and the configuration (log entry 1), none of which a command touches. -/
def Obligations.OnlyTheNamedCommandsWriteControlState : Prop :=
  ∀ (i : Instr) (s t : State), exec i s = .next t →
    (t.pK ≠ s.pK → i = .init ∨ ∃ v, i = .ctrlSet 0 v) ∧
    (t.pQ ≠ s.pQ → i = .init ∨ ∃ v, i = .ctrlSet 1 v) ∧
    (t.dirty = true → s.dirty = false → updatesControl i = true) ∧
    (t.dirty = false → s.dirty = true → i = .init ∨ ∃ fs, i = .block fs) ∧
    t.initDone = (s.initDone || decide (i = .init)) ∧
    field t.status 31 8 = field s.status 31 8 ∧
    (∃ ys : List Word, t.responses = s.responses ++ ys) ∧
    t.parser = s.parser ∧ t.cmdPort = s.cmdPort ∧ t.resetLine = s.resetLine ∧ t.cfg = s.cfg

/-- NF (R225): no command clears it; CTRL_SET, RESET, NOP, READ_INST and READ_CTRL never set it; ASSIGN, BROADCAST and COMPUTE set it exactly for a non-finite
word; and a BLOCK that leaves it 0 has returned finite words only. -/
def Obligations.NonFiniteFlagIsStickyAndExact : Prop :=
  (∀ (i : Instr) (s t : State), exec i s = .next t → s.nonFinite = true → t.nonFinite = true) ∧
  (∀ (i : Instr) (s t : State), exec i s = .next t →
    (i = .nop ∨ i = .readCtrl ∨ (∃ ch, i = .readInst ch) ∨ (∃ ch, i = .reset ch) ∨ ∃ idx v, i = .ctrlSet idx v) →
    t.nonFinite = s.nonFinite) ∧
  (∀ (i : Instr) (c : CoefSet Word) (s t : State), exec i s = .next t →
    (i = .broadcast c ∨ (∃ ch, i = .assign ch c) ∨ ∃ k q, i = .compute k q ∧ c = calculator s.cfg k q) →
    t.nonFinite = (s.nonFinite || !c.words.all isFinite)) ∧
  ∀ (fs : List Frame) (s t : State) (ys : List Word), exec (.block fs) s = .next t →
    t.responses = s.responses ++ ys → t.nonFinite = false → ys.all isFinite = true

/-- "NF changes no datapath value" (R225): a command run with NF set does the same as without, and leaves NF set. READ_CTRL is left out, since the word it
returns is STATUS itself. -/
def Obligations.NonFiniteFlagChangesNoResult : Prop :=
  ∀ (i : Instr) (s : State), i ≠ .readCtrl →
    ∃ t : State, exec i s = .next t ∧
      exec i { s with status := s.status ||| 0x8 } = .next { t with status := t.status ||| 0x8 }

/-- Four-channel coherence (R44, R176): INIT, BROADCAST and a BLOCK that commits make the four sets bit-identical, and every step keeps them so unless it runs
an ASSIGN. -/
def Obligations.CoherenceHoldsUntilAnAssign : Prop :=
  (∀ (i : Instr) (s t : State), exec i s = .next t →
    (i = .init ∨ (∃ c, i = .broadcast c) ∨ ∃ fs, i = .block fs ∧ s.dirty = true) → Coherent t) ∧
  ∀ s t : State, Coherent s → (∀ ch c s', fetch s ≠ .run (.assign ch c) s') → step s = .next t → Coherent t

/-- At most one recompute per block (R175): with any CTRL_SETs between two BLOCKs, the second uses `CALC` of the last values written if one of them was for index 0
or 1, and otherwise the coefficients the first one left; and where no such CTRL_SET and no INIT lies between, the second runs no COMMIT at all. -/
def Obligations.AtMostOneRecomputePerBlock : Prop :=
  (∀ (s : State) (fs1 fs2 : List Frame) (cs : List Instr), (∀ i ∈ cs, ∃ idx v, i = .ctrlSet idx v) →
    ∃ u v t : State, exec (.block fs1) s = .next u ∧ execAll cs u = .next v ∧ exec (.block fs2) v = .next t ∧
      t.dirty = false ∧
      ∀ ch : Channel, t.coef ch =
        if cs.any updatesControl then calculator u.cfg (lastControl 0 u.pK cs) (lastControl 1 u.pQ cs) else u.coef ch) ∧
  ∀ (s : State) (fs1 fs2 : List Frame) (cs : List Instr), (∀ i ∈ cs, i ≠ .init ∧ updatesControl i = false) →
    ∃ u v : State, exec (.block fs1) s = .next u ∧ execAll cs u = .next v ∧
      exec (.block fs2) v = execAll (fs2.flatMap frameCommands) v

/-- Zero-state invariance (R149): with finite coefficients and the reference arithmetic, after RESET a row of ±0 samples gives outputs that are all ±0, and the
delay registers stay ±0. The same for a BLOCK whose samples on that channel are ±0, whatever the other channels hold or get; where the BLOCK commits, the
coefficients it commits are the ones to be finite. -/
def Obligations.SilenceInGivesSilenceOut : Prop :=
  (∀ (ch : Channel) (s : State) (xs : List Word),
    s.cfg.fp = .binary32 → (s.coef ch).words.all isFinite = true → xs.all isZero = true →
    ∃ (t : State) (ys : List Word),
      execAll (.reset ch :: xs.map (.process ch)) s = .next t ∧
      t.responses = s.responses ++ ys ∧ ys.length = xs.length ∧ ys.all isZero = true ∧
      isZero (t.z1 ch) = true ∧ isZero (t.z2 ch) = true) ∧
  ∀ (ch : Channel) (s : State) (fs : List Frame),
    s.cfg.fp = .binary32 → (if s.dirty then calculator s.cfg s.pK s.pQ else s.coef ch).words.all isFinite = true →
    (fs.map (frameSample · ch)).all isZero = true →
    ∃ (t : State) (ys : List Word),
      execAll [.reset ch, .block fs] s = .next t ∧
      t.responses = s.responses ++ ys ∧ ys.length = 4 * fs.length ∧
      (∀ n < fs.length, ∃ y, ys[4 * n + ch.index]? = some y ∧ isZero y = true) ∧
      isZero (t.z1 ch) = true ∧ isZero (t.z2 ch) = true

/-- Coefficient-swap continuity (R150): an ASSIGN or a BROADCAST leaves the delay registers bit-identical, and the first output after it is
`fadd(fmul(f0_new, x), z1)`. The draw keys of the two operations are the model's choice (log entry 3). -/
def Obligations.CoefficientSwapKeepsTheDelays : Prop :=
  ∀ (ch : Channel) (c : CoefSet Word) (x : Word) (s : State) (i : Instr),
    (i = .assign ch c ∨ i = .broadcast c) →
    ∃ u t : State, exec i s = .next u ∧ u.z1 ch = s.z1 ch ∧ u.z2 ch = s.z2 ch ∧
      exec (.process ch x) u = .next t ∧
      t.responses = s.responses ++
        [fpOp s.cfg .add (.sample (s.nanDraws + 1)) (fpOp s.cfg .mul (.sample (s.nanDraws + 0)) c.f0 x) (s.z1 ch)]

/-- Channel isolation (R34): what a BLOCK does to a channel and answers for it depends on that channel's registers and samples, and on P_K and P_Q where the block
commits. Two states that agree on one channel's delays and samples, and on its coefficients (or, with DIRTY set in both, on P_K and P_Q), end alike on it,
whatever the other channels hold. Equal parameters (`cfg`, log entry 1) and equal draw numbers (`nanDraws`, log entry 3) are premises, which are the model's. -/
def Obligations.ChannelsDoNotInterfere : Prop :=
  ∀ (ch : Channel) (fs fs' : List Frame) (s s' t t' : State),
    s.z1 ch = s'.z1 ch → s.z2 ch = s'.z2 ch → s.cfg = s'.cfg → s.nanDraws = s'.nanDraws → s.dirty = s'.dirty →
    (s.dirty = false → s.coef ch = s'.coef ch) → (s.dirty = true → s.pK = s'.pK ∧ s.pQ = s'.pQ) →
    fs.map (frameSample · ch) = fs'.map (frameSample · ch) →
    exec (.block fs) s = .next t → exec (.block fs') s' = .next t' →
    t.bank.get ch = t'.bank.get ch ∧
    ∀ n < fs.length,
      t.responses[s.responses.length + 4 * n + ch.index]? = t'.responses[s'.responses.length + 4 * n + ch.index]?

/-- A NaN stays (R143, R147, R148), under the reference arithmetic: a NaN sample, or a NaN in the first delay register, gives a NaN output, NaN in both delay
registers, and NF, so every later sample does the same, whatever it is; a NaN in the second delay register moves into the first with the next sample and sets
NF. -/
def Obligations.NaNStaysInAChannel : Prop :=
  ∀ (ch : Channel) (x : Word) (s : State), s.cfg.fp = .binary32 →
    ((isNaN x = true ∨ isNaN (s.z1 ch) = true) →
      ∃ (t : State) (y : Word), exec (.process ch x) s = .next t ∧ t.responses = s.responses ++ [y] ∧
        isNaN y = true ∧ isNaN (t.z1 ch) = true ∧ isNaN (t.z2 ch) = true ∧ t.nonFinite = true) ∧
    (isNaN (s.z2 ch) = true →
      ∃ t : State, exec (.process ch x) s = .next t ∧ isNaN (t.z1 ch) = true ∧ t.nonFinite = true)

/-- The host contract (R14 a, R252): a host that sends INIT before its first BLOCK has the INIT bit set whenever a BLOCK runs. The premise is that duty alone, so a
host may send RESET or INIT between streams as it likes. A host that keeps `hostContract`, which is the model's reading of the duties as a premise (log entry 12)
and of where a stream begins and ends (log entry 17), keeps that duty too. -/
def Obligations.InitPrecedesEveryBlock : Prop :=
  (∀ (before after : List Instr) (fs : List Frame) (s t : State),
    initBeforeBlock s.initDone (before ++ .block fs :: after) = true →
    execAll before s = .next t → t.initDone = true) ∧
  ∀ (is : List Instr) (initSent streaming : Bool),
    hostContract initSent streaming is = true → initBeforeBlock initSent is = true

/-! ### Arithmetic (R8 to R10) and the calculator (R110 to R118) -/

/-- The IEEE cases that R9 lists for the reference configuration, and with them every result that is infinite by its operands or by overflow, and the sign of
every result: NaN operands; the invalid operations; an infinite operand; division by zero; a sum or difference of finite words, zero or not; a product or quotient
of finite words; overflow. -/
def Obligations.SpecialCasesOfThePrimitives : Prop :=
  ∀ a b : Word,
    let infinity (sign : Bool) : Word := if sign then 0xFF800000 else 0x7F800000
    let zero (sign : Bool) : Word := if sign then 0x80000000 else 0x00000000
    let signs := fpSign a != fpSign b
    (∀ op, isNaN a = true ∨ isNaN b = true → refOp op a b = none) ∧
    (isZero a = true → isInfinite b = true → refOp .mul a b = none ∧ refOp .mul b a = none) ∧
    (isInfinite a = true → refOp .sub a a = none) ∧
    (isZero a = true → isZero b = true → refOp .div a b = none) ∧
    (isInfinite a = true → isInfinite b = true →
      refOp .div a b = none ∧
      refOp .add a b = (if signs then none else some a) ∧ refOp .sub a b = (if signs then some a else none)) ∧
    (isInfinite a = true → isFinite b = true →
      refOp .add a b = some a ∧ refOp .add b a = some a ∧
      refOp .sub a b = some a ∧ refOp .sub b a = some (infinity (!fpSign a)) ∧
      refOp .div a b = some (infinity signs) ∧ refOp .div b a = some (zero signs)) ∧
    (isInfinite a = true → isNaN b = false → isZero b = false →
      refOp .mul a b = some (infinity signs) ∧ refOp .mul b a = some (infinity signs)) ∧
    (isZero b = true → isZero a = false → isNaN a = false → refOp .div a b = some (infinity signs)) ∧
    (isFinite a = true → refOp .sub a a = some 0x00000000) ∧
    refOp .add 0x80000000 0x00000000 = some 0x00000000 ∧ refOp .add 0x80000000 0x80000000 = some 0x80000000 ∧
    (isFinite a = true → isFinite b = true →
      (fpValue a + fpValue b = 0 → refOp .add a b = some (zero (fpSign a && fpSign b))) ∧
      (fpValue a + fpValue b ≠ 0 → ∃ w, refOp .add a b = some w ∧ fpSign w = decide (fpValue a + fpValue b < 0)) ∧
      (fpValue a = fpValue b → refOp .sub a b = some (zero (fpSign a && !fpSign b))) ∧
      (fpValue a ≠ fpValue b → ∃ w, refOp .sub a b = some w ∧ fpSign w = decide (fpValue a - fpValue b < 0)) ∧
      (∃ w, refOp .mul a b = some w ∧ fpSign w = signs) ∧
      (isZero b = false → ∃ w, refOp .div a b = some w ∧ fpSign w = signs) ∧
      (isZero a = true → refOp .mul a b = some (zero signs) ∧ refOp .mul b a = some (zero signs)) ∧
      (isZero a = true → isZero b = false → refOp .div a b = some (zero signs)) ∧
      ∀ op, (op = .div → isZero b = false) → overflowUnits ≤ |exactResult op a b| →
        refOp op a b = some (infinity (decide (exactResult op a b < 0))))

/-- Each reference primitive rounds once, to nearest, ties to even (R9): on finite operands no finite word is nearer to the exact result than the one returned, a tie
goes to the even fraction, and a result that rounds above 0x7F7FFFFF is the infinity of its sign. -/
def Obligations.PrimitivesRoundOnceToNearestEven : Prop :=
  ∀ (c : Config) (key : NanKey) (op : FpOp) (a b : Word),
    c.fp = .binary32 → c.ftz = false → isFinite a = true → isFinite b = true →
    (op = .div → isZero b = false) →
    let w := fpOp c op key a b
    let e := exactResult op a b
    if |e| < overflowUnits then
      isFinite w = true ∧
        ∀ v : Word, isFinite v = true →
          |(fpValue w : ℚ) - e| ≤ |(fpValue v : ℚ) - e| ∧
          (|(fpValue v : ℚ) - e| = |(fpValue w : ℚ) - e| → fpValue v = fpValue w ∨ fpFraction w % 2 = 0)
    else isInfinite w = true ∧ fpSign w = decide (e < 0)

/-- The comparisons (R10): false on a NaN, by value on finite words (so −0 equals +0), with the infinities outside every finite word and −Inf below +Inf. -/
def Obligations.ComparisonsFollowTheValues : Prop :=
  ∀ a b : Word,
    (isNaN a = true ∨ isNaN b = true → fpLess a b = false ∧ fpGreater a b = false) ∧
    (isFinite a = true → isFinite b = true → (fpLess a b = true ↔ fpValue a < fpValue b) ∧
      (fpGreater a b = true ↔ fpValue b < fpValue a)) ∧
    (isFinite a = true → isInfinite b = true → (fpLess a b = true ↔ fpSign b = false) ∧
      (fpLess b a = true ↔ fpSign b = true)) ∧
    (isInfinite a = true → isInfinite b = true → (fpLess a b = true ↔ fpSign a = true ∧ fpSign b = false)) ∧
    fpGreater a b = fpLess b a ∧ (isNaN a = true ↔ fpExponent a = 255 ∧ fpFraction a ≠ 0)

/-- What the parameters FTZ and NAN_OUT do (R6, R9): with FTZ a subnormal result becomes the zero of its sign and every other result stays, and the operands are taken
as they are (log entry 10); without it a primitive gives what the arithmetic gives; and a NaN result is some NaN, of which nothing more is said (log entry 3). -/
def Obligations.FlushAndNaNDrawActOnResults : Prop :=
  ∀ (c : Config) (op : FpOp) (key : NanKey) (a b : Word),
    (∀ w, c.ftz = true → rawOp c op a b = some w →
      fpOp c op key a b = if isSubnormal w then (if fpSign w then 0x80000000 else 0x00000000) else w) ∧
    (c.ftz = true → isSubnormal (fpOp c op key a b) = false) ∧
    (∀ w, c.ftz = false → rawOp c op a b = some w → fpOp c op key a b = w) ∧
    (c.fp = .binary32 → rawOp c op a b = refOp op a b) ∧
    (rawOp c op a b = none → isNaN (fpOp c op key a b) = true) ∧
    (rawOp c op a b ≠ none → isNaN (fpOp c op key a b) = false)

/-- The clamps (R111, R112): the rules' own three cases, for any bounds; and with the reference bounds, by the bits of the operand: a NaN, a negative operand, a zero and anything below the lower bound become the lower
bound; anything above the upper bound, +Inf too, becomes the upper bound; every other operand passes unchanged. -/
def Obligations.ClampsReplaceOutOfRangeOperands : Prop :=
  ∀ (c : Config) (v : Word),
    (isNaN v = true ∨ fpLess v c.kMin = true → clampK c v = c.kMin) ∧
    (isNaN v = false → fpLess v c.kMin = false → fpGreater v c.kMax = true → clampK c v = c.kMax) ∧
    (isNaN v = false → fpLess v c.kMin = false → fpGreater v c.kMax = false → clampK c v = v) ∧
    (isNaN v = true ∨ fpLess v c.qMin = true → clampQ c v = c.qMin) ∧
    (isNaN v = false → fpLess v c.qMin = false → fpGreater v c.qMax = true → clampQ c v = c.qMax) ∧
    (isNaN v = false → fpLess v c.qMin = false → fpGreater v c.qMax = false → clampQ c v = v) ∧
    (c.kMin = 0x3B4DE35B → c.kMax = 0x41FE907B →
      clampK c v =
        if isNaN v ∨ fpSign v = true ∨ v.toNat < 0x3B4DE35B then 0x3B4DE35B
        else if 0x41FE907B < v.toNat then 0x41FE907B else v) ∧
    (c.qMin = 0x3F3504F3 → c.qMax = 0x413504F3 →
      clampQ c v =
        if isNaN v ∨ fpSign v = true ∨ v.toNat < 0x3F3504F3 then 0x3F3504F3
        else if 0x413504F3 < v.toNat then 0x413504F3 else v)

/-- The exact relations of the reference design (R115), and what they are for: in the reference configuration the calculator gives five finite words for every operand, NaNs
and infinities too, so COMPUTE, INIT and COMMIT never set NF (R116, R174). The `.design` key in the last clause names the NaN draw only (log entry 3). -/
def Obligations.ReferenceCoefficientsAreFinite : Prop :=
  ∀ (c : Config) (k q : Word), ReferenceUpToNaN c →
    let r := calculator c k q
    r.words.all isFinite = true ∧ r.f2 = r.f0 ∧ fpValue r.f1 = 2 * fpValue r.f0 ∧
    (r.b1 = 0x00000000 ↔
      fpOp c .mul (.design (clampK c k) (clampQ c q) 0) (clampK c k) (clampK c k) = 0x3F800000)

/-- Pole stability in exact arithmetic (R118): for every k > 0 and q > 0, b2 lies in (−1, 1) and |b1| < 1 + b2; both poles lie strictly inside the unit circle; a
complex pole has |pole|² = b2; and b2 rises with q. -/
def Obligations.ExactDesignIsStable : Prop :=
  ∀ k q : ℝ, 0 < k → 0 < q →
    let c := lpDesignRef (exactArith ℝ) k q
    c.b2 < 1 ∧ -1 < c.b2 ∧ |c.b1| < 1 + c.b2 ∧
    (∀ z : ℂ, z ^ 2 + (c.b1 : ℂ) * z + (c.b2 : ℂ) = 0 →
      ‖z‖ < 1 ∧ (z.im ≠ 0 → ‖z‖ ^ 2 = c.b2)) ∧
    ∀ q' : ℝ, q < q' → c.b2 < (lpDesignRef (exactArith ℝ) k q').b2

/-- The transfer function of the reference design in exact arithmetic (R117), as one identity of polynomials in w = z⁻¹, with unit gain at DC and a double zero at
Nyquist. -/
def Obligations.ExactDesignHasTheLowPassTransferFunction : Prop :=
  ∀ k q w : ℝ, 0 < k → 0 < q →
    let c := lpDesignRef (exactArith ℝ) k q
    (c.f0 + c.f1 * w + c.f2 * w ^ 2) * ((1 + k / q + k ^ 2) + 2 * (k ^ 2 - 1) * w + (1 - k / q + k ^ 2) * w ^ 2) =
      k ^ 2 * (1 + w) ^ 2 * (1 + c.b1 * w + c.b2 * w ^ 2) ∧
    c.f0 + c.f1 + c.f2 = 1 + c.b1 + c.b2 ∧
    c.f0 + c.f1 * w + c.f2 * w ^ 2 = c.f0 * (1 + w) ^ 2

/-- The difference equation of the recurrence in exact arithmetic (R142), with what the delay registers hold, from the first sample on; `y`, `z1` and `z2` are the outputs and the delay values after
each sample, from zero. -/
def Obligations.ExactRecurrenceIsTheDifferenceEquation : Prop :=
  ∀ (c : CoefSet ℝ) (x y z1 z2 : ℕ → ℝ),
    sosUpdate (exactArith ℝ) c 0 0 (x 0) = ⟨y 0, z1 0, z2 0⟩ →
    (∀ n, sosUpdate (exactArith ℝ) c (z1 n) (z2 n) (x (n + 1)) = ⟨y (n + 1), z1 (n + 1), z2 (n + 1)⟩) →
    y 0 = c.f0 * x 0 ∧ y 1 = c.f0 * x 1 + c.f1 * x 0 - c.b1 * y 0 ∧ z1 0 = c.f1 * x 0 - c.b1 * y 0 ∧
    ∀ n,
      y (n + 2) = c.f0 * x (n + 2) + c.f1 * x (n + 1) + c.f2 * x n - c.b1 * y (n + 1) - c.b2 * y n ∧
      z1 (n + 1) = c.f1 * x (n + 1) + c.f2 * x n - c.b1 * y (n + 1) - c.b2 * y n ∧
      z2 n = c.f2 * x n - c.b2 * y n

/-! ### The host's side (R15, R16, R18) -/

/-- The host mappings in exact arithmetic (R15, R16; log entry 13): at 48 kHz the frequency runs from 48 Hz up to 23520 Hz; the span is 0.001 turns up to 0.49 turns, so the tangent is taken below its pole and the warped cutoff lies between
`tan(π·0.001)` and `tan(π·0.49)`; the resonance runs from 1/√2 up to 16/√2, and `q(0.999)/q(0) = 2^3.996`. -/
def Obligations.HostMappingsStayInTheirRanges : Prop :=
  ∀ v : ℝ, 0 ≤ v → v < 1 →
    hostFrequency 0 = 48 ∧ 48 ≤ hostFrequency v ∧ hostFrequency v < 23520 ∧ hostTurns v = hostFrequency v / 48000 ∧
    0.001 ≤ hostTurns v ∧ hostTurns v < 0.49 ∧
    Real.tan (Real.pi * 0.001) ≤ hostCutoff v ∧ hostCutoff v < Real.tan (Real.pi * 0.49) ∧
    1 / Real.sqrt 2 ≤ hostResonance v ∧ hostResonance v < 16 / Real.sqrt 2 ∧
    hostResonance 0.999 / hostResonance 0 = (2 : ℝ) ^ (3.996 : ℝ)

/-- The block call over interleaved buffers (R18, R173): two buffers of `2n` words make `n` frames, frame i of `main[2i], main[2i+1], sub[2i], sub[2i+1]`; a BLOCK of them
answers words of which `4i` to `4i+3` go back to the same places; and the words of the frames themselves split into the buffers they came from. -/
def Obligations.BlockCallCarriesInterleavedBuffers : Prop :=
  ∀ (n : Nat) (main sub : List Word) (s : State), main.length = 2 * n → sub.length = 2 * n →
    (framesOfBuffers main sub).length = n ∧
    (∀ i < n, (framesOfBuffers main sub)[i]? = some
      { mainLeft := main.getD (2 * i) 0, mainRight := main.getD (2 * i + 1) 0,
        subLeft := sub.getD (2 * i) 0, subRight := sub.getD (2 * i + 1) 0 }) ∧
    buffersOfResponses ((framesOfBuffers main sub).flatMap Frame.words) = (main, sub) ∧
    ∃ (t : State) (ys : List Word), exec (.block (framesOfBuffers main sub)) s = .next t ∧
      t.responses = s.responses ++ ys ∧ ys.length = 4 * n ∧
      (buffersOfResponses ys).1.length = 2 * n ∧ (buffersOfResponses ys).2.length = 2 * n ∧
      ∀ i < n,
        (buffersOfResponses ys).1[2 * i]? = ys[4 * i]? ∧ (buffersOfResponses ys).1[2 * i + 1]? = ys[4 * i + 1]? ∧
        (buffersOfResponses ys).2[2 * i]? = ys[4 * i + 2]? ∧ (buffersOfResponses ys).2[2 * i + 1]? = ys[4 * i + 3]?

/-! ### The parameters of R6 and the properties of R113 -/

/-- The values that R6 gives, and what INIT makes of them (R174's example). That State.reset holds the reference configuration is the model's choice (log entry 1). -/
def Obligations.ReferenceConfigurationHoldsTheValuesOfR6 : Prop :=
  State.reset.cfg = referenceConfig ∧
  referenceConfig.fp = .binary32 ∧ referenceConfig.ftz = false ∧ referenceConfig.nanOut = .draw ∧ referenceConfig.design = .bilinear ∧
  referenceConfig.kMin = 0x3B4DE35B ∧ referenceConfig.kMax = 0x41FE907B ∧
  referenceConfig.qMin = 0x3F3504F3 ∧ referenceConfig.qMax = 0x413504F3 ∧
  referenceConfig.kDefault = 0x41FE907B ∧ referenceConfig.qDefault = 0x3F3504F3 ∧ referenceConfig.byteOrder = .little ∧
  framesMax = 65535 ∧ sampleRate = 48000 ∧
  [Channel.mainLeft, .mainRight, .subLeft, .subRight].map Channel.index = [0, 1, 2, 3] ∧
  ∃ t : State, exec .init State.reset = .next t ∧
    t.pK = 0x41FE907B ∧ t.pQ = 0x3F3504F3 ∧ t.status = 0x00000002 ∧
    ∀ ch : Channel, t.coef ch = ⟨0x3F74E004, 0x3FF4E004, 0x3F74E004, 0x3FF4A21B, 0x3F6A3BDC⟩ ∧ t.z1 ch = 0 ∧ t.z2 ch = 0

/-- What is known of a design function that is not the reference (R113; its reading of (c) is log entry 4): (a) the calculator answers the same five words for the same
clamped operands, whatever the parameters that are not the calculator's; (b) they are finite; (c) as numbers they put both poles strictly inside the unit circle
and pass DC more strongly than Nyquist. -/
def Obligations.OtherDesignsAreFiniteAndLowPass : Prop :=
  ∀ (c : Config) (n : Nat) (k q : Word), c.design = .other n →
    let r := calculator c k q
    (∀ (kDefault qDefault : Word) (byteOrder : ByteOrder) (k' q' : Word),
      let c' : Config := { c with kDefault := kDefault, qDefault := qDefault, byteOrder := byteOrder }
      clampK c' k' = clampK c k → clampQ c' q' = clampQ c q → calculator c' k' q' = r) ∧
    r.words.all isFinite = true ∧
    PolesInside (realSet r) ∧ gainAt (realSet r) (-1) < gainAt (realSet r) 1

/-- The reference design in exact arithmetic has property (c) of R113, as the model reads it (log entry 4), over every domain of positive k and q; and its gain at the
frequency that k names is exactly q, with the gain 1 at DC (R117). -/
def Obligations.ExactDesignHasPropertyC : Prop :=
  (∀ kMin kMax qMin qMax : ℝ, 0 < kMin → 0 < qMin →
    LowPassDesign (lpDesignRef (exactArith ℝ)) kMin kMax qMin qMax) ∧
  ∀ k q : ℝ, 0 < k → 0 < q →
    gainAt (lpDesignRef (exactArith ℝ) k q) (cutoffPoint k) = q ∧ gainAt (lpDesignRef (exactArith ℝ) k q) 1 = 1

/-- The binary32 reference is stable too, rounding included (R118's last sentences, D25): in the reference configuration, for every pair of operand words, the five words of
the calculator are a stable low-pass set. -/
def Obligations.ReferenceCoefficientsAreStable : Prop :=
  ∀ (c : Config) (k q : Word), ReferenceUpToNaN c →
    let r := realSet (calculator c k q)
    PolesInside r ∧ gainAt r (-1) = 0 ∧ 0 < gainAt r 1

/-- Property (c) of R113 for a design that is not the reference, in real numbers (its reading is log entry 4). One of two things holds. Either the free function lacks the
property and the design is the reference of R114 in the reference arithmetic, kept finite and stable, of which this statement says no more. Or the design has it over the
clamped domain: a pass band up to half of k (and of k·q) with a gain between 1/2 and 2 relative to DC; a stop band from twice k up to 1024, and up to four times k for any k, that
falls like the square of the frequency; relative gains at the frequency k names that differ by a factor of 2 at most from one k to another; for any two q, the larger peak, wherever
it stands, and the larger gain at the frequency k names for the larger q; for any two k, the larger gain in the stop band of both for the larger k; each but for one
part in 32 of its square, and strictly the larger where the two are one part in 32 apart (the peak from q = 1/√2 up); and from four times k on, for any two q from
1/√2 up, squares that differ by a factor of 2 at most. -/
def Obligations.OtherDesignsFollowTheirParameters : Prop :=
  ∀ (c : Config) (n : Nat), c.design = .other n →
    let gain (k q v : Word) : ℝ := relativeGain (realSet (lpDesign c k q)) (cutoffPoint (realValue v))
    (soundDesign c (Config.otherDesign n) = false ∧ ∀ k q, lpDesign c k q = asLowPass (referenceDesign (referenceArithmetic c) k q)) ∨
    ((∀ k q v, inDomain c k q = true → isFinite v = true → 0 ≤ realValue v → 2 * realValue v ≤ realValue k →
        2 * realValue v ≤ realValue k * realValue q → 1 / 2 ≤ gain k q v ∧ gain k q v ≤ 2) ∧
      (∀ k q v, inDomain c k q = true → isFinite v = true → 2 * realValue k ≤ realValue v →
        realValue v ≤ 1024 ∨ realValue v ≤ 4 * realValue k →
        gain k q v * realValue v ^ 2 ≤ 2 * realValue k ^ 2) ∧
      (∀ k k' q, inDomain c k q = true → inDomain c k' q = true → gain k q k ≤ 2 * gain k' q k') ∧
      (∀ k q q', inDomain c k q = true → inDomain c k q' = true → realValue q < realValue q' →
        gain k q k ^ 2 ≤ (1 + 1 / 32) * gain k q' k ^ 2 ∧
        (∀ v, isFrequency v = true → ∃ v', isFrequency v' = true ∧ gain k q v ^ 2 ≤ (1 + 1 / 32) * gain k q' v' ^ 2) ∧
        ((1 + 1 / 32) * realValue q ≤ realValue q' →
          gain k q k < gain k q' k ∧
          (realValue 0x3F3504F3 ≤ realValue q →
            ∃ v', isFrequency v' = true ∧ ∀ v, isFrequency v = true → gain k q v < gain k q' v'))) ∧
      (∀ k k' q v, inDomain c k q = true → inDomain c k' q = true → isFinite v = true → realValue k < realValue k' →
        2 * realValue k' ≤ realValue v → realValue v ≤ 1024 ∨ realValue v ≤ 4 * realValue k' →
        gain k q v ^ 2 ≤ (1 + 1 / 32) * gain k' q v ^ 2 ∧
        ((1 + 1 / 32) * realValue k ≤ realValue k' → gain k q v < gain k' q v)) ∧
      ∀ k q q' v, inDomain c k q = true → inDomain c k q' = true → isFinite v = true →
        realValue 0x3F3504F3 ≤ realValue q → realValue 0x3F3504F3 ≤ realValue q' →
        4 * realValue k ≤ realValue v → realValue v ≤ 1024 ∨ realValue v ≤ 8 * realValue k →
        gain k q v ^ 2 ≤ 2 * gain k q' v ^ 2)
end

