-- ==== Sys2Proof/Laws/Fields.lean ====
section
/-! SUPPORT. The bit fields of a word (spec/00_scope.md R7): as slices, as numbers, and when two words agree on one. -/

namespace Sys2Proof.Machine

/-- A header or status field is a slice of bits (R7). -/
theorem field_eq_slice (w : Word) (hi lo : Nat) : field w hi lo = (w.extractLsb' lo (hi + 1 - lo)).toNat := by
  simp [field, BitVec.extractLsb'_toNat]

theorem field_lt (w : Word) (hi lo : Nat) : field w hi lo < 2 ^ (hi + 1 - lo) := Nat.mod_lt _ (by positivity)

/-- Two words with the same bits in a range have the same field there. -/
theorem field_congr {v w : Word} {hi lo : Nat} (h : ∀ j, lo ≤ j → j ≤ hi → v.getLsbD j = w.getLsbD j) :
    field v hi lo = field w hi lo := by
  rw [field_eq_slice, field_eq_slice]
  congr 1
  apply BitVec.eq_of_getLsbD_eq
  intro i hi'
  simp only [BitVec.getLsbD_extractLsb', hi', decide_true, Bool.true_and]
  exact h _ (by omega) (by omega)

/-- A field as a number. -/
theorem field_eq_div (w : Word) (hi lo : Nat) : field w hi lo = w.toNat / 2 ^ lo % 2 ^ (hi + 1 - lo) := by
  rw [field, Nat.shiftRight_eq_div_pow]

end Sys2Proof.Machine
end

