-- ==== Sys2Proof/Laws/Encoding.lean ====
section
/-! SUPPORT. Lemmas of the encoding (spec/30_encoding.md): the length test of the decoder, the grouping of a block's operands, and the
fields of a header that the encoder writes. -/

namespace Sys2Proof

open Sys2Proof.Machine (field_eq_slice)

/-- The decoder's length test is a comparison of lengths. -/
theorem hasAtLeast_iff (n : Nat) (xs : List Word) : hasAtLeast n xs = true ↔ n ≤ xs.length := by
  induction n generalizing xs with
  | zero => simp [hasAtLeast]
  | succ n ih => cases xs <;> simp [hasAtLeast, ih]

theorem hasAtLeast_append (xs rest : List Word) : hasAtLeast xs.length (xs ++ rest) = true := by
  rw [hasAtLeast_iff]; simp

/-- Grouping the operands of a block and writing them out again gives the frames back (R173). -/
theorem framesOf_words (fs : List Frame) : framesOf (fs.flatMap Frame.words) = fs := by
  induction fs with
  | nil => rfl
  | cons f fs ih => simpa [framesOf] using ih

/-- Operand words in whole frames are the words of their frames (R173). -/
theorem words_framesOf (ws : List Word) (n : Nat) (h : ws.length = 4 * n) : (framesOf ws).flatMap Frame.words = ws := by
  induction n generalizing ws with
  | zero => cases ws with
    | nil => rfl
    | cons _ _ => simp at h
  | succ n ih =>
    match ws, h with
    | a :: b :: c :: d :: rest, h =>
      have hr : rest.length = 4 * n := by simp at h; omega
      simp [framesOf, ih rest hr]

theorem framesOf_length (ws : List Word) (n : Nat) (h : ws.length = 4 * n) : (framesOf ws).length = n := by
  have hw := congrArg List.length (words_framesOf ws n h)
  have : ∀ fs : List Frame, (fs.flatMap Frame.words).length = 4 * fs.length := by
    intro fs
    induction fs with
    | nil => rfl
    | cons f fs ih => simp [ih]; omega
  rw [this] at hw; omega

theorem frame_words_length (fs : List Frame) : (fs.flatMap Frame.words).length = 4 * fs.length := by
  induction fs with
  | nil => rfl
  | cons f fs ih => simp [ih]; omega

/-! ### The fields of a written header (R80) -/

/-- A header of format FI or FF is its opcode above its 16-bit field. -/
theorem header_imm (op : Op) (v : BitVec 16) : header op 0 v.toNat = BitVec.ofNat 16 (op.code * 256) ++ v := by
  apply BitVec.eq_of_toNat_eq
  have hv := v.isLt
  have hc : op.code ≤ 10 := by cases op <;> decide
  rw [BitVec.toNat_append, header, BitVec.toNat_ofNat, BitVec.toNat_ofNat, ← Nat.shiftLeft_add_eq_or_of_lt hv,
    Nat.shiftLeft_eq, Nat.mod_eq_of_lt, Nat.mod_eq_of_lt] <;> omega

theorem imm16Field_append (u v : BitVec 16) : imm16Field (u ++ v) = v.toNat := by
  rw [imm16Field, field_eq_slice]
  congr 1
  apply BitVec.eq_of_getLsbD_eq
  intro i hi
  rw [BitVec.getLsbD_extractLsb', BitVec.getLsbD_append]
  simp [show i < 16 from hi]

theorem opcField_append (u v : BitVec 16) : opcField (u ++ v) = u.toNat / 256 := by
  have hu := u.isLt; have hv := v.isLt
  rw [opcField, field, BitVec.toNat_append, ← Nat.shiftLeft_add_eq_or_of_lt hv, Nat.shiftLeft_eq, Nat.shiftRight_eq_div_pow]
  omega

/-- The must-be-zero bits 23:16 of formats FI and FF lie in the upper half. -/
theorem append_and_mask (u v : BitVec 16) : (u ++ v) &&& 0x00FF0000#32 = (u &&& 0x00FF#16) ++ (0#16) := by
  have : (0x00FF0000#32) = (0x00FF#16 ++ 0#16) := by decide
  rw [this, BitVec.and_append]; simp

/-- The header check as one equivalence (R87). -/
theorem decodeHeader_ok_iff (h : Word) (op : Op) :
    decodeHeader h = .ok op ↔ Op.ofCode (opcField h) = some op ∧ h &&& op.format.mustBeZero = 0 := by
  unfold decodeHeader
  cases hc : Op.ofCode (opcField h) with
  | none => simp
  | some op' =>
    by_cases hz : h &&& op'.format.mustBeZero = 0
    · simp only [hz, if_true, Except.ok.injEq, Option.some.injEq]
      constructor
      · rintro rfl; exact ⟨rfl, hz⟩
      · exact And.left
    · simp only [hz, if_false, Option.some.injEq, reduceCtorEq, false_iff, not_and]
      rintro rfl; exact hz

theorem decodeHeader_assign (ch : Channel) : decodeHeader (header .assign ch.index 0) = .ok .assign := by cases ch <;> rfl

theorem decodeHeader_process (ch : Channel) : decodeHeader (header .process ch.index 0) = .ok .process := by cases ch <;> rfl

theorem decodeHeader_compute : decodeHeader (header .compute 0 0) = .ok .compute := rfl

theorem decodeHeader_broadcast : decodeHeader (header .broadcast 0 0) = .ok .broadcast := rfl

theorem decodeHeader_ctrlSet (v : BitVec 16) : decodeHeader (header .ctrlSet 0 v.toNat) = .ok .ctrlSet := by
  rw [header_imm, decodeHeader_ok_iff, opcField_append]
  exact ⟨rfl, (append_and_mask _ _).trans (by decide)⟩

theorem decodeHeader_block (v : BitVec 16) : decodeHeader (header .block 0 v.toNat) = .ok .block := by
  rw [header_imm, decodeHeader_ok_iff, opcField_append]
  exact ⟨rfl, (append_and_mask _ _).trans (by decide)⟩

/-- A frame count up to FRAMES_MAX is a 16-bit field. -/
theorem exists_field16 {n : Nat} (h : n ≤ framesMax) : ∃ v : BitVec 16, v.toNat = n :=
  ⟨BitVec.ofNat 16 n, by rw [BitVec.toNat_ofNat]; exact Nat.mod_eq_of_lt (by simp [framesMax] at h; omega)⟩

theorem imm16Field_header {op : Op} {n : Nat} (h : n ≤ framesMax) : imm16Field (header op 0 n) = n := by
  obtain ⟨v, rfl⟩ := exists_field16 h
  rw [header_imm, imm16Field_append]

/-- The channel that a written CH field names is the channel (R83). -/
theorem ofField_index (ch : Channel) : Channel.ofField ch.index = ch := by cases ch <;> rfl

end Sys2Proof
end

