-- ==== Sys2Proof/Laws/Fp.lean ====
section
/-! SUPPORT. Lemmas of the float words and of the reference arithmetic (spec/00_scope.md R8, R9): the fields of a packed word, the
classes, NaN propagation, products and sums with zero, and what rounding does to zero and to bounded values. -/

namespace Sys2Proof.Machine

/-! ### Fields as numbers -/

theorem fpExponent_eq (w : Word) : fpExponent w = w.toNat / 2 ^ 23 % 256 := field_eq_div w 30 23

theorem fpFraction_eq (w : Word) : fpFraction w = w.toNat % 2 ^ 23 := by
  rw [fpFraction, field_eq_div]; simp

theorem fpSign_eq (w : Word) : fpSign w = decide (2 ^ 31 ≤ w.toNat) := by
  have hw := w.isLt
  rw [fpSign, BitVec.getLsbD, Nat.testBit_eq_decide_div_mod_eq]
  congr 1
  apply propext
  omega

/-! ### Packing -/

theorem packWord_toNat {m : Nat} (h : m < 2 ^ 31) (s : Bool) :
    (packWord s m).toNat = m + if s then 2 ^ 31 else 0 := by
  rw [packWord, BitVec.toNat_ofNat]
  apply Nat.mod_eq_of_lt
  cases s
  · simp; omega
  · simp; omega

@[simp] theorem fpSign_packWord {m : Nat} (h : m < 2 ^ 31) (s : Bool) : fpSign (packWord s m) = s := by
  rw [fpSign_eq, packWord_toNat h]
  cases s
  · simp; omega
  · simp

@[simp] theorem fpExponent_packWord {m : Nat} (h : m < 2 ^ 31) (s : Bool) : fpExponent (packWord s m) = m / 2 ^ 23 := by
  rw [fpExponent_eq, packWord_toNat h]
  cases s
  · simp; omega
  · simp; omega

@[simp] theorem fpFraction_packWord {m : Nat} (h : m < 2 ^ 31) (s : Bool) : fpFraction (packWord s m) = m % 2 ^ 23 := by
  rw [fpFraction_eq, packWord_toNat h]
  cases s
  · simp
  · simp; omega

/-! ### Classes (R8) -/

theorem isNaN_not_finite {w : Word} (h : isNaN w = true) : isFinite w = false := by
  simp only [isNaN, isFinite, decide_eq_true_eq, decide_eq_false_iff_not] at *
  simp [h.1]

theorem isInfinite_not_finite {w : Word} (h : isInfinite w = true) : isFinite w = false := by
  simp only [isInfinite, isFinite, decide_eq_true_eq, decide_eq_false_iff_not] at *
  simp [h.1]

theorem not_nan_of_finite {w : Word} (h : isFinite w = true) : isNaN w = false := by
  simp only [isNaN, isFinite, decide_eq_true_eq, decide_eq_false_iff_not] at *
  exact fun hc => h hc.1

theorem not_infinite_of_finite {w : Word} (h : isFinite w = true) : isInfinite w = false := by
  simp only [isInfinite, isFinite, decide_eq_true_eq, decide_eq_false_iff_not] at *
  exact fun hc => h hc.1

theorem finite_of_zero {w : Word} (h : isZero w = true) : isFinite w = true := by
  simp only [isZero, isFinite, decide_eq_true_eq] at *
  simp [h.1]

theorem fpUnits_eq_zero_iff (w : Word) : fpUnits w = 0 ↔ isZero w = true := by
  simp only [fpUnits, isZero, decide_eq_true_eq]
  split
  · simp [*]
  · simp [*]

theorem fpValue_eq_zero_iff (w : Word) : fpValue w = 0 ↔ isZero w = true := by
  rw [← fpUnits_eq_zero_iff]
  unfold fpValue
  split <;> simp

/-- Packed zeros are zeros. -/
@[simp] theorem isZero_packWord_zero (s : Bool) : isZero (packWord s 0) = true := by cases s <;> decide

@[simp] theorem isFinite_packWord_zero (s : Bool) : isFinite (packWord s 0) = true := by cases s <;> decide

/-- The draw and the fixed pattern are NaNs (D5). -/
@[simp] theorem isNaN_asNaN (w : Word) : isNaN (asNaN w) = true := by
  unfold asNaN
  split
  · assumption
  · decide

@[simp] theorem isNaN_nanOut (c : Config) (key : NanKey) : isNaN (nanOut c key) = true := by
  unfold nanOut
  split <;> simp

@[simp] theorem isFinite_asFinite (w : Word) : isFinite (asFinite w) = true := by
  unfold asFinite
  split
  · assumption
  · decide

/-! ### Sign change -/

theorem signMask_getLsbD : ∀ j, j < 32 → (0x80000000 : Word).getLsbD j = decide (j = 31) := by decide

theorem getLsbD_negate_low (w : Word) {j : Nat} (h : j < 31) : (fpNegate w).getLsbD j = w.getLsbD j := by
  rw [fpNegate, BitVec.getLsbD_xor, signMask_getLsbD j (by omega)]
  simp [show j ≠ 31 by omega]

@[simp] theorem fpExponent_negate (w : Word) : fpExponent (fpNegate w) = fpExponent w :=
  field_congr fun _ _ h => getLsbD_negate_low w (by omega)

@[simp] theorem fpFraction_negate (w : Word) : fpFraction (fpNegate w) = fpFraction w :=
  field_congr fun _ _ h => getLsbD_negate_low w (by omega)

@[simp] theorem fpSign_negate (w : Word) : fpSign (fpNegate w) = !fpSign w := by
  rw [fpSign, fpNegate, BitVec.getLsbD_xor, signMask_getLsbD 31 (by decide)]
  simp [fpSign]

@[simp] theorem isFinite_negate (w : Word) : isFinite (fpNegate w) = isFinite w := by simp [isFinite]
@[simp] theorem isNaN_negate (w : Word) : isNaN (fpNegate w) = isNaN w := by simp [isNaN]
@[simp] theorem isInfinite_negate (w : Word) : isInfinite (fpNegate w) = isInfinite w := by simp [isInfinite]
@[simp] theorem isZero_negate (w : Word) : isZero (fpNegate w) = isZero w := by simp [isZero]
@[simp] theorem fpUnits_negate (w : Word) : fpUnits (fpNegate w) = fpUnits w := by simp [fpUnits]
@[simp] theorem fpValue_negate (w : Word) : fpValue (fpNegate w) = - fpValue w := by
  unfold fpValue; simp; cases fpSign w <;> simp

/-! ### Rounding -/

/-- Rounding a value below a whole number never goes above it. -/
theorem roundNearestEven_le {num den n : Nat} (h : num ≤ n * den) (hd : 0 < den) : roundNearestEven num den ≤ n := by
  unfold roundNearestEven
  have hq : num / den ≤ n := Nat.div_le_of_le_mul (by rw [Nat.mul_comm]; exact h)
  dsimp only
  split
  · rename_i hc
    by_contra hlt
    have hqn : num / den = n := by omega
    have hdm := Nat.div_add_mod num den
    rw [hqn] at hdm
    have : num % den = 0 := by
      have : den * n + num % den ≤ n * den := by omega
      have hcm : den * n = n * den := Nat.mul_comm _ _
      omega
    rw [this] at hc
    omega
  · exact hq

/-- Rounding a value above a whole number never goes below it. -/
theorem le_roundNearestEven {num den n : Nat} (h : n * den ≤ num) (hd : 0 < den) : n ≤ roundNearestEven num den := by
  unfold roundNearestEven
  have hq : n ≤ num / den := (Nat.le_div_iff_mul_le hd).mpr h
  dsimp only
  split <;> omega

@[simp] theorem roundMagnitude_zero (den : Nat) : roundMagnitude 0 den = 0 := by
  have : roundShift 0 den = 0 := by simp [roundShift]
  rw [roundMagnitude, this]
  simp [roundNearestEven]

/-- A rounded zero is the zero of its sign. -/
@[simp] theorem roundWord_zero (s : Bool) (den : Nat) : roundWord s 0 den = packWord s 0 := by
  simp [roundWord]

/-! ### The reference operations (R9) -/

/-- "any NaN operand gives a NaN" -/
theorem refOp_nan_left (op : FpOp) {a : Word} (b : Word) (h : isNaN a = true) : refOp op a b = none := by
  cases op <;> simp [refOp, refAdd, refSub, refMul, refDiv, h]

theorem refOp_nan_right (op : FpOp) (a : Word) {b : Word} (h : isNaN b = true) : refOp op a b = none := by
  cases op <;> simp [refOp, refAdd, refSub, refMul, refDiv, h]

/-- A product of a finite word and a zero is a zero. -/
theorem refMul_zero_right {a b : Word} (ha : isFinite a = true) (hb : isZero b = true) :
    refMul a b = some (packWord (fpSign a != fpSign b) 0) := by
  have hbf := finite_of_zero hb
  simp only [refMul, not_nan_of_finite ha, not_nan_of_finite hbf, not_infinite_of_finite ha, not_infinite_of_finite hbf,
    (fpUnits_eq_zero_iff b).mpr hb, Bool.or_self, Bool.false_eq_true, if_false, Nat.mul_zero, roundWord_zero]

/-- A sum of two zeros is a zero, negative only when both are. -/
theorem refAdd_zero {a b : Word} (ha : isZero a = true) (hb : isZero b = true) :
    refAdd a b = some (packWord (fpSign a && fpSign b) 0) := by
  have haf := finite_of_zero ha
  have hbf := finite_of_zero hb
  simp only [refAdd, not_nan_of_finite haf, not_nan_of_finite hbf, not_infinite_of_finite haf, not_infinite_of_finite hbf,
    (fpValue_eq_zero_iff a).mpr ha, (fpValue_eq_zero_iff b).mpr hb, Bool.or_self, Bool.false_eq_true, if_false, Int.add_zero,
    if_true]

theorem refSub_zero {a b : Word} (ha : isZero a = true) (hb : isZero b = true) :
    refSub a b = some (packWord (fpSign a && !fpSign b) 0) := by
  rw [refSub, refAdd_zero ha (by simpa using hb), fpSign_negate]

/-- The flush leaves zeros alone (R6 `FTZ`). -/
@[simp] theorem flushSubnormal_zero (s : Bool) : flushSubnormal (packWord s 0) = packWord s 0 := by cases s <;> decide

/-- The primitive when the reference gives a value. -/
theorem fpOp_of_some {c : Config} (h : c.fp = .binary32) {op : FpOp} {a b w : Word} (key : NanKey)
    (hw : refOp op a b = some w) : fpOp c op key a b = if c.ftz then flushSubnormal w else w := by
  simp [fpOp, rawOp, h, hw]

/-- The primitive when the reference gives a NaN. -/
theorem fpOp_of_none {c : Config} (h : c.fp = .binary32) {op : FpOp} {a b : Word} (key : NanKey)
    (hw : refOp op a b = none) : fpOp c op key a b = nanOut c key := by
  simp [fpOp, rawOp, h, hw]

end Sys2Proof.Machine
end

