-- ==== Sys2Proof/Laws/Formulas.lean ====
section
/-! SUPPORT. What the design function and the calculator answer (R110, R113). -/

namespace Sys2Proof.Machine

/-- A set that is a stable low-pass set of finite words stays as it is. -/
theorem asLowPass_of_lowPassSet {c : CoefSet Word} (hf : c.words.all isFinite = true) (h : lowPassSet c = true) : asLowPass c = c := by
  simp only [List.all_cons, List.all_nil, Bool.and_true, Bool.and_eq_true] at hf
  obtain ⟨h0, h1, h2, h3, h4⟩ := hf
  have e (w : Word) (hw : isFinite w = true) : asFinite w = w := by simp [asFinite, hw]
  simp only [asLowPass, e _ h0, e _ h1, e _ h2, e _ h3, e _ h4]
  rw [if_pos h]

@[simp] theorem lowPassSet_asLowPass (c : CoefSet Word) : lowPassSet (asLowPass c) = true := by
  unfold asLowPass
  dsimp only
  split
  · assumption
  · decide +kernel

@[simp] theorem words_finite_asLowPass (c : CoefSet Word) : (asLowPass c).words.all isFinite = true := by
  unfold asLowPass
  dsimp only
  split
  · simp
  · decide

/-- The comparison of two words that are no NaN is that of their order. -/
theorem fpLess_of_not_nan {a b : Word} (ha : isNaN a = false) (hb : isNaN b = false) : fpLess a b = decide (fpOrder a < fpOrder b) := by
  simp [fpLess, ha, hb]

/-- A finite word lies strictly between the two infinities. -/
theorem fpOrder_finite {w : Word} (h : isFinite w = true) : -2139095040 < fpOrder w ∧ fpOrder w < 2139095040 := by
  simp only [isFinite, decide_eq_true_eq, fpExponent_eq] at h
  simp only [fpOrder, field_eq_div]
  have := w.isLt
  split <;> omega

/-- A word that is neither a NaN nor finite is an infinity. -/
theorem fpOrder_not_finite {w : Word} (hn : isNaN w = false) (h : isFinite w = false) : fpOrder w = -2139095040 ∨ fpOrder w = 2139095040 := by
  simp only [isNaN, decide_eq_false_iff_not, not_and, not_not, ne_eq, fpExponent_eq, fpFraction_eq] at hn
  simp only [isFinite, decide_eq_false_iff_not, not_not, ne_eq, fpExponent_eq] at h
  have hf := hn h
  simp only [fpOrder, field_eq_div]
  have := w.isLt
  split <;> omega

/-- So a word that is no NaN and lies between two finite ones is finite. -/
theorem finite_of_between {w lo hi : Word} (hn : isNaN w = false) (hlo : isFinite lo = true) (hhi : isFinite hi = true)
    (h1 : fpLess w lo = false) (h2 : fpGreater w hi = false) : isFinite w = true := by
  rw [fpLess_of_not_nan hn (not_nan_of_finite hlo), decide_eq_false_iff_not] at h1
  rw [fpGreater, fpLess_of_not_nan (not_nan_of_finite hhi) hn, decide_eq_false_iff_not] at h2
  by_contra h
  have hlo := fpOrder_finite hlo
  have hhi := fpOrder_finite hhi
  rcases fpOrder_not_finite hn (by simpa using h) with e | e <;> omega

/-- Where the bounds are in their own domain, the clamps lead into it. -/
theorem inDomain_clamp {c : Config} (h1 : inDomain c c.kMin c.qMin = true) (h2 : inDomain c c.kMax c.qMax = true) (k q : Word) :
    inDomain c (clampK c k) (clampQ c q) = true := by
  simp only [inDomain, Bool.and_eq_true, decide_eq_true_eq] at h1 h2 ⊢
  obtain ⟨⟨⟨fk, fq⟩, ek⟩, eq⟩ := h1
  obtain ⟨⟨⟨fk', fq'⟩, ek'⟩, eq'⟩ := h2
  have hk : isFinite (clampK c k) = true ∧ clampK c (clampK c k) = clampK c k := by
    by_cases a : (isNaN k || fpLess k c.kMin) = true
    · have e : clampK c k = c.kMin := by rw [clampK, if_pos a]
      rw [e]; exact ⟨fk, ek⟩
    · by_cases b : fpGreater k c.kMax = true
      · have e : clampK c k = c.kMax := by rw [clampK, if_neg a, if_pos b]
        rw [e]; exact ⟨fk', ek'⟩
      · have e : clampK c k = k := by rw [clampK, if_neg a, if_neg b]
        rw [e]
        simp only [Bool.not_eq_true, Bool.or_eq_false_iff] at a b
        exact ⟨finite_of_between a.1 fk fk' a.2 b, e⟩
  have hq : isFinite (clampQ c q) = true ∧ clampQ c (clampQ c q) = clampQ c q := by
    by_cases a : (isNaN q || fpLess q c.qMin) = true
    · have e : clampQ c q = c.qMin := by rw [clampQ, if_pos a]
      rw [e]; exact ⟨fq, eq⟩
    · by_cases b : fpGreater q c.qMax = true
      · have e : clampQ c q = c.qMax := by rw [clampQ, if_neg a, if_pos b]
        rw [e]; exact ⟨fq', eq'⟩
      · have e : clampQ c q = q := by rw [clampQ, if_neg a, if_neg b]
        rw [e]
        simp only [Bool.not_eq_true, Bool.or_eq_false_iff] at a b
        exact ⟨finite_of_between a.1 fq fq' a.2 b, e⟩
  exact ⟨⟨⟨hk.1, hq.1⟩, hk.2⟩, hq.2⟩

/-- What `soundDesign` says, part by part. -/
theorem soundDesign_iff (c : Config) (design : Word → Word → CoefSet Word) :
    soundDesign c design = true ↔
      inDomain c c.kMin c.qMin = true ∧ inDomain c c.kMax c.qMax = true ∧ 8 * fpValue c.kMax ≤ fpValue 0x7F7FFFFF ∧
      (∀ k q, inDomain c k q = true → (design k q).words.all isFinite = true ∧ lowPassSet (design k q) = true) ∧
      (∀ k q v, inDomain c k q = true → isFinite v = true → passesAt (design k q) k q v = true ∧ stopsAt (design k q) k v = true) ∧
      (∀ k k' q, inDomain c k q = true → inDomain c k' q = true → gainAtMostTwice (design k q) k (design k' q) k' = true) ∧
      (∀ k q q', inDomain c k q = true → inDomain c k q' = true → fpValue q < fpValue q' →
        gainNotAbove (design k q) k (design k q') k = true ∧ peakNotAbove (design k q) (design k q') = true ∧
        (33 * fpValue q ≤ 32 * fpValue q' →
          gainBelow (design k q) k (design k q') k = true ∧
          (fpValue butterworthQ ≤ fpValue q → peakBelow (design k q) (design k q') = true))) ∧
      (∀ k k' q v, inDomain c k q = true → inDomain c k' q = true → isFinite v = true → fpValue k < fpValue k' →
        isBeyond 2 k' v = true →
        gainNotAbove (design k q) v (design k' q) v = true ∧
        (33 * fpValue k ≤ 32 * fpValue k' → gainBelow (design k q) v (design k' q) v = true)) ∧
      ∀ k q q' v, inDomain c k q = true → inDomain c k q' = true → isFinite v = true →
        fpValue butterworthQ ≤ fpValue q → fpValue butterworthQ ≤ fpValue q' → isBeyond 4 k v = true →
        relNum (design k q) v * relDen (design k q') v ≤ 2 * relNum (design k q') v * relDen (design k q) v := by
  simp only [soundDesign, Bool.and_eq_true, decide_eq_true_eq, and_assoc]

/-- A sound design is taken as it is over the clamped domain. -/
theorem asLowPass_of_sound {c : Config} {design : Word → Word → CoefSet Word} (h : soundDesign c design = true) {k q : Word}
    (hd : inDomain c k q = true) : asLowPass (design k q) = design k q :=
  have ⟨_, _, _, hs, _⟩ := (soundDesign_iff c design).mp h
  asLowPass_of_lowPassSet (hs k q hd).1 (hs k q hd).2

/-- The reference design is taken as it is. -/
theorem lpDesign_bilinear {c : Config} (h : c.design = .bilinear) (k q : Word) : lpDesign c k q = referenceDesign c k q := by
  simp only [lpDesign, h]

/-- What a design that is not `bilinear` can be: a sound free function, or the reference; either way kept finite, stable and low-pass. -/
theorem lpDesign_other_cases {c : Config} {n : Nat} (h : c.design = .other n) :
    (soundDesign c (Config.otherDesign n) = true ∧ ∀ k q, lpDesign c k q = asLowPass (Config.otherDesign n k q)) ∨
      (soundDesign c (Config.otherDesign n) = false ∧
        ∀ k q, lpDesign c k q = asLowPass (referenceDesign (referenceArithmetic c) k q)) := by
  by_cases hs : soundDesign c (Config.otherDesign n) = true
  · exact .inl ⟨hs, fun k q => by simp only [lpDesign, h, if_pos hs]⟩
  · exact .inr ⟨by simpa using hs, fun k q => by simp only [lpDesign, h, if_neg hs]⟩

end Sys2Proof.Machine
end

