-- ==== Sys2Proof/Laws/State.lean ====
section
/-! SUPPORT. One lemma per update and field of State, all by unfolding once, tagged simp: what each named write leaves and what it
writes. Later proofs cite these and never unfold a record update. -/

namespace Sys2Proof.Machine

/-! ### The register bank (R34) -/

@[simp] theorem Bank.get_set_same (b : Bank) (ch : Channel) (f : FilterInstance) : (b.set ch f).get ch = f := by
  cases ch <;> rfl

theorem Bank.get_set (b : Bank) (ch ch' : Channel) (f : FilterInstance) :
    (b.set ch f).get ch' = if ch' = ch then f else b.get ch' := by
  cases ch <;> cases ch' <;> rfl

theorem Bank.get_set_other (b : Bank) {ch ch' : Channel} (f : FilterInstance) (h : ch' ≠ ch) :
    (b.set ch f).get ch' = b.get ch' := by
  rw [Bank.get_set, if_neg h]

/-! ### writeCoef -/

@[simp] theorem State.writeCoef_pK (s : State) (ch : Channel) (c : CoefSet Word) : (s.writeCoef ch c).pK = s.pK := rfl
@[simp] theorem State.writeCoef_pQ (s : State) (ch : Channel) (c : CoefSet Word) : (s.writeCoef ch c).pQ = s.pQ := rfl
@[simp] theorem State.writeCoef_status (s : State) (ch : Channel) (c : CoefSet Word) : (s.writeCoef ch c).status = s.status := rfl
@[simp] theorem State.writeCoef_errInfo (s : State) (ch : Channel) (c : CoefSet Word) : (s.writeCoef ch c).errInfo = s.errInfo := rfl
@[simp] theorem State.writeCoef_responses (s : State) (ch : Channel) (c : CoefSet Word) : (s.writeCoef ch c).responses = s.responses := rfl
@[simp] theorem State.writeCoef_parser (s : State) (ch : Channel) (c : CoefSet Word) : (s.writeCoef ch c).parser = s.parser := rfl
@[simp] theorem State.writeCoef_cmdPort (s : State) (ch : Channel) (c : CoefSet Word) : (s.writeCoef ch c).cmdPort = s.cmdPort := rfl
@[simp] theorem State.writeCoef_resetLine (s : State) (ch : Channel) (c : CoefSet Word) : (s.writeCoef ch c).resetLine = s.resetLine := rfl
@[simp] theorem State.writeCoef_cfg (s : State) (ch : Channel) (c : CoefSet Word) : (s.writeCoef ch c).cfg = s.cfg := rfl
@[simp] theorem State.writeCoef_nanDraws (s : State) (ch : Channel) (c : CoefSet Word) : (s.writeCoef ch c).nanDraws = s.nanDraws := rfl
@[simp] theorem State.writeCoef_bank (s : State) (ch : Channel) (c : CoefSet Word) : (s.writeCoef ch c).bank = s.bank.set ch { s.bank.get ch with coef := c } := rfl
@[simp] theorem State.writeCoef_dirty (s : State) (ch : Channel) (c : CoefSet Word) : (s.writeCoef ch c).dirty = s.dirty := rfl
@[simp] theorem State.writeCoef_initDone (s : State) (ch : Channel) (c : CoefSet Word) : (s.writeCoef ch c).initDone = s.initDone := rfl
@[simp] theorem State.writeCoef_err (s : State) (ch : Channel) (c : CoefSet Word) : (s.writeCoef ch c).err = s.err := rfl
@[simp] theorem State.writeCoef_nonFinite (s : State) (ch : Channel) (c : CoefSet Word) : (s.writeCoef ch c).nonFinite = s.nonFinite := rfl
@[simp] theorem State.writeCoef_errCode (s : State) (ch : Channel) (c : CoefSet Word) : (s.writeCoef ch c).errCode = s.errCode := rfl

/-! ### writeDelay -/

@[simp] theorem State.writeDelay_pK (s : State) (ch : Channel) (a b : Word) : (s.writeDelay ch a b).pK = s.pK := rfl
@[simp] theorem State.writeDelay_pQ (s : State) (ch : Channel) (a b : Word) : (s.writeDelay ch a b).pQ = s.pQ := rfl
@[simp] theorem State.writeDelay_status (s : State) (ch : Channel) (a b : Word) : (s.writeDelay ch a b).status = s.status := rfl
@[simp] theorem State.writeDelay_errInfo (s : State) (ch : Channel) (a b : Word) : (s.writeDelay ch a b).errInfo = s.errInfo := rfl
@[simp] theorem State.writeDelay_responses (s : State) (ch : Channel) (a b : Word) : (s.writeDelay ch a b).responses = s.responses := rfl
@[simp] theorem State.writeDelay_parser (s : State) (ch : Channel) (a b : Word) : (s.writeDelay ch a b).parser = s.parser := rfl
@[simp] theorem State.writeDelay_cmdPort (s : State) (ch : Channel) (a b : Word) : (s.writeDelay ch a b).cmdPort = s.cmdPort := rfl
@[simp] theorem State.writeDelay_resetLine (s : State) (ch : Channel) (a b : Word) : (s.writeDelay ch a b).resetLine = s.resetLine := rfl
@[simp] theorem State.writeDelay_cfg (s : State) (ch : Channel) (a b : Word) : (s.writeDelay ch a b).cfg = s.cfg := rfl
@[simp] theorem State.writeDelay_nanDraws (s : State) (ch : Channel) (a b : Word) : (s.writeDelay ch a b).nanDraws = s.nanDraws := rfl
@[simp] theorem State.writeDelay_bank (s : State) (ch : Channel) (a b : Word) : (s.writeDelay ch a b).bank = s.bank.set ch { s.bank.get ch with z1 := a, z2 := b } := rfl
@[simp] theorem State.writeDelay_dirty (s : State) (ch : Channel) (a b : Word) : (s.writeDelay ch a b).dirty = s.dirty := rfl
@[simp] theorem State.writeDelay_initDone (s : State) (ch : Channel) (a b : Word) : (s.writeDelay ch a b).initDone = s.initDone := rfl
@[simp] theorem State.writeDelay_err (s : State) (ch : Channel) (a b : Word) : (s.writeDelay ch a b).err = s.err := rfl
@[simp] theorem State.writeDelay_nonFinite (s : State) (ch : Channel) (a b : Word) : (s.writeDelay ch a b).nonFinite = s.nonFinite := rfl
@[simp] theorem State.writeDelay_errCode (s : State) (ch : Channel) (a b : Word) : (s.writeDelay ch a b).errCode = s.errCode := rfl

/-! ### writeAllCoefs -/

@[simp] theorem State.writeAllCoefs_pK (s : State) (c : CoefSet Word) : (s.writeAllCoefs c).pK = s.pK := rfl
@[simp] theorem State.writeAllCoefs_pQ (s : State) (c : CoefSet Word) : (s.writeAllCoefs c).pQ = s.pQ := rfl
@[simp] theorem State.writeAllCoefs_status (s : State) (c : CoefSet Word) : (s.writeAllCoefs c).status = s.status := rfl
@[simp] theorem State.writeAllCoefs_errInfo (s : State) (c : CoefSet Word) : (s.writeAllCoefs c).errInfo = s.errInfo := rfl
@[simp] theorem State.writeAllCoefs_responses (s : State) (c : CoefSet Word) : (s.writeAllCoefs c).responses = s.responses := rfl
@[simp] theorem State.writeAllCoefs_parser (s : State) (c : CoefSet Word) : (s.writeAllCoefs c).parser = s.parser := rfl
@[simp] theorem State.writeAllCoefs_cmdPort (s : State) (c : CoefSet Word) : (s.writeAllCoefs c).cmdPort = s.cmdPort := rfl
@[simp] theorem State.writeAllCoefs_resetLine (s : State) (c : CoefSet Word) : (s.writeAllCoefs c).resetLine = s.resetLine := rfl
@[simp] theorem State.writeAllCoefs_cfg (s : State) (c : CoefSet Word) : (s.writeAllCoefs c).cfg = s.cfg := rfl
@[simp] theorem State.writeAllCoefs_nanDraws (s : State) (c : CoefSet Word) : (s.writeAllCoefs c).nanDraws = s.nanDraws := rfl
@[simp] theorem State.writeAllCoefs_dirty (s : State) (c : CoefSet Word) : (s.writeAllCoefs c).dirty = s.dirty := rfl
@[simp] theorem State.writeAllCoefs_initDone (s : State) (c : CoefSet Word) : (s.writeAllCoefs c).initDone = s.initDone := rfl
@[simp] theorem State.writeAllCoefs_err (s : State) (c : CoefSet Word) : (s.writeAllCoefs c).err = s.err := rfl
@[simp] theorem State.writeAllCoefs_nonFinite (s : State) (c : CoefSet Word) : (s.writeAllCoefs c).nonFinite = s.nonFinite := rfl
@[simp] theorem State.writeAllCoefs_errCode (s : State) (c : CoefSet Word) : (s.writeAllCoefs c).errCode = s.errCode := rfl

/-! ### zeroAllDelays -/

@[simp] theorem State.zeroAllDelays_pK (s : State) : (s.zeroAllDelays).pK = s.pK := rfl
@[simp] theorem State.zeroAllDelays_pQ (s : State) : (s.zeroAllDelays).pQ = s.pQ := rfl
@[simp] theorem State.zeroAllDelays_status (s : State) : (s.zeroAllDelays).status = s.status := rfl
@[simp] theorem State.zeroAllDelays_errInfo (s : State) : (s.zeroAllDelays).errInfo = s.errInfo := rfl
@[simp] theorem State.zeroAllDelays_responses (s : State) : (s.zeroAllDelays).responses = s.responses := rfl
@[simp] theorem State.zeroAllDelays_parser (s : State) : (s.zeroAllDelays).parser = s.parser := rfl
@[simp] theorem State.zeroAllDelays_cmdPort (s : State) : (s.zeroAllDelays).cmdPort = s.cmdPort := rfl
@[simp] theorem State.zeroAllDelays_resetLine (s : State) : (s.zeroAllDelays).resetLine = s.resetLine := rfl
@[simp] theorem State.zeroAllDelays_cfg (s : State) : (s.zeroAllDelays).cfg = s.cfg := rfl
@[simp] theorem State.zeroAllDelays_nanDraws (s : State) : (s.zeroAllDelays).nanDraws = s.nanDraws := rfl
@[simp] theorem State.zeroAllDelays_dirty (s : State) : (s.zeroAllDelays).dirty = s.dirty := rfl
@[simp] theorem State.zeroAllDelays_initDone (s : State) : (s.zeroAllDelays).initDone = s.initDone := rfl
@[simp] theorem State.zeroAllDelays_err (s : State) : (s.zeroAllDelays).err = s.err := rfl
@[simp] theorem State.zeroAllDelays_nonFinite (s : State) : (s.zeroAllDelays).nonFinite = s.nonFinite := rfl
@[simp] theorem State.zeroAllDelays_errCode (s : State) : (s.zeroAllDelays).errCode = s.errCode := rfl

/-! ### writePK -/

@[simp] theorem State.writePK_pK (s : State) (v : Word) : (s.writePK v).pK = v := rfl
@[simp] theorem State.writePK_pQ (s : State) (v : Word) : (s.writePK v).pQ = s.pQ := rfl
@[simp] theorem State.writePK_status (s : State) (v : Word) : (s.writePK v).status = s.status := rfl
@[simp] theorem State.writePK_errInfo (s : State) (v : Word) : (s.writePK v).errInfo = s.errInfo := rfl
@[simp] theorem State.writePK_responses (s : State) (v : Word) : (s.writePK v).responses = s.responses := rfl
@[simp] theorem State.writePK_parser (s : State) (v : Word) : (s.writePK v).parser = s.parser := rfl
@[simp] theorem State.writePK_cmdPort (s : State) (v : Word) : (s.writePK v).cmdPort = s.cmdPort := rfl
@[simp] theorem State.writePK_resetLine (s : State) (v : Word) : (s.writePK v).resetLine = s.resetLine := rfl
@[simp] theorem State.writePK_cfg (s : State) (v : Word) : (s.writePK v).cfg = s.cfg := rfl
@[simp] theorem State.writePK_nanDraws (s : State) (v : Word) : (s.writePK v).nanDraws = s.nanDraws := rfl
@[simp] theorem State.writePK_bank (s : State) (v : Word) : (s.writePK v).bank = s.bank := rfl
@[simp] theorem State.writePK_coef (s : State) (v : Word) (ch : Channel) : (s.writePK v).coef ch = s.coef ch := rfl
@[simp] theorem State.writePK_z1 (s : State) (v : Word) (ch : Channel) : (s.writePK v).z1 ch = s.z1 ch := rfl
@[simp] theorem State.writePK_z2 (s : State) (v : Word) (ch : Channel) : (s.writePK v).z2 ch = s.z2 ch := rfl
@[simp] theorem State.writePK_dirty (s : State) (v : Word) : (s.writePK v).dirty = s.dirty := rfl
@[simp] theorem State.writePK_initDone (s : State) (v : Word) : (s.writePK v).initDone = s.initDone := rfl
@[simp] theorem State.writePK_err (s : State) (v : Word) : (s.writePK v).err = s.err := rfl
@[simp] theorem State.writePK_nonFinite (s : State) (v : Word) : (s.writePK v).nonFinite = s.nonFinite := rfl
@[simp] theorem State.writePK_errCode (s : State) (v : Word) : (s.writePK v).errCode = s.errCode := rfl

/-! ### writePQ -/

@[simp] theorem State.writePQ_pK (s : State) (v : Word) : (s.writePQ v).pK = s.pK := rfl
@[simp] theorem State.writePQ_pQ (s : State) (v : Word) : (s.writePQ v).pQ = v := rfl
@[simp] theorem State.writePQ_status (s : State) (v : Word) : (s.writePQ v).status = s.status := rfl
@[simp] theorem State.writePQ_errInfo (s : State) (v : Word) : (s.writePQ v).errInfo = s.errInfo := rfl
@[simp] theorem State.writePQ_responses (s : State) (v : Word) : (s.writePQ v).responses = s.responses := rfl
@[simp] theorem State.writePQ_parser (s : State) (v : Word) : (s.writePQ v).parser = s.parser := rfl
@[simp] theorem State.writePQ_cmdPort (s : State) (v : Word) : (s.writePQ v).cmdPort = s.cmdPort := rfl
@[simp] theorem State.writePQ_resetLine (s : State) (v : Word) : (s.writePQ v).resetLine = s.resetLine := rfl
@[simp] theorem State.writePQ_cfg (s : State) (v : Word) : (s.writePQ v).cfg = s.cfg := rfl
@[simp] theorem State.writePQ_nanDraws (s : State) (v : Word) : (s.writePQ v).nanDraws = s.nanDraws := rfl
@[simp] theorem State.writePQ_bank (s : State) (v : Word) : (s.writePQ v).bank = s.bank := rfl
@[simp] theorem State.writePQ_coef (s : State) (v : Word) (ch : Channel) : (s.writePQ v).coef ch = s.coef ch := rfl
@[simp] theorem State.writePQ_z1 (s : State) (v : Word) (ch : Channel) : (s.writePQ v).z1 ch = s.z1 ch := rfl
@[simp] theorem State.writePQ_z2 (s : State) (v : Word) (ch : Channel) : (s.writePQ v).z2 ch = s.z2 ch := rfl
@[simp] theorem State.writePQ_dirty (s : State) (v : Word) : (s.writePQ v).dirty = s.dirty := rfl
@[simp] theorem State.writePQ_initDone (s : State) (v : Word) : (s.writePQ v).initDone = s.initDone := rfl
@[simp] theorem State.writePQ_err (s : State) (v : Word) : (s.writePQ v).err = s.err := rfl
@[simp] theorem State.writePQ_nonFinite (s : State) (v : Word) : (s.writePQ v).nonFinite = s.nonFinite := rfl
@[simp] theorem State.writePQ_errCode (s : State) (v : Word) : (s.writePQ v).errCode = s.errCode := rfl

/-! ### respond -/

@[simp] theorem State.respond_pK (s : State) (ws : List Word) : (s.respond ws).pK = s.pK := rfl
@[simp] theorem State.respond_pQ (s : State) (ws : List Word) : (s.respond ws).pQ = s.pQ := rfl
@[simp] theorem State.respond_status (s : State) (ws : List Word) : (s.respond ws).status = s.status := rfl
@[simp] theorem State.respond_errInfo (s : State) (ws : List Word) : (s.respond ws).errInfo = s.errInfo := rfl
@[simp] theorem State.respond_responses (s : State) (ws : List Word) : (s.respond ws).responses = s.responses ++ ws := rfl
@[simp] theorem State.respond_parser (s : State) (ws : List Word) : (s.respond ws).parser = s.parser := rfl
@[simp] theorem State.respond_cmdPort (s : State) (ws : List Word) : (s.respond ws).cmdPort = s.cmdPort := rfl
@[simp] theorem State.respond_resetLine (s : State) (ws : List Word) : (s.respond ws).resetLine = s.resetLine := rfl
@[simp] theorem State.respond_cfg (s : State) (ws : List Word) : (s.respond ws).cfg = s.cfg := rfl
@[simp] theorem State.respond_nanDraws (s : State) (ws : List Word) : (s.respond ws).nanDraws = s.nanDraws := rfl
@[simp] theorem State.respond_bank (s : State) (ws : List Word) : (s.respond ws).bank = s.bank := rfl
@[simp] theorem State.respond_coef (s : State) (ws : List Word) (ch : Channel) : (s.respond ws).coef ch = s.coef ch := rfl
@[simp] theorem State.respond_z1 (s : State) (ws : List Word) (ch : Channel) : (s.respond ws).z1 ch = s.z1 ch := rfl
@[simp] theorem State.respond_z2 (s : State) (ws : List Word) (ch : Channel) : (s.respond ws).z2 ch = s.z2 ch := rfl
@[simp] theorem State.respond_dirty (s : State) (ws : List Word) : (s.respond ws).dirty = s.dirty := rfl
@[simp] theorem State.respond_initDone (s : State) (ws : List Word) : (s.respond ws).initDone = s.initDone := rfl
@[simp] theorem State.respond_err (s : State) (ws : List Word) : (s.respond ws).err = s.err := rfl
@[simp] theorem State.respond_nonFinite (s : State) (ws : List Word) : (s.respond ws).nonFinite = s.nonFinite := rfl
@[simp] theorem State.respond_errCode (s : State) (ws : List Word) : (s.respond ws).errCode = s.errCode := rfl

/-! ### setDirty -/

@[simp] theorem State.setDirty_pK (s : State) : (s.setDirty).pK = s.pK := rfl
@[simp] theorem State.setDirty_pQ (s : State) : (s.setDirty).pQ = s.pQ := rfl
@[simp] theorem State.setDirty_status (s : State) : (s.setDirty).status = setBit dirtyBit s.status := rfl
@[simp] theorem State.setDirty_errInfo (s : State) : (s.setDirty).errInfo = s.errInfo := rfl
@[simp] theorem State.setDirty_responses (s : State) : (s.setDirty).responses = s.responses := rfl
@[simp] theorem State.setDirty_parser (s : State) : (s.setDirty).parser = s.parser := rfl
@[simp] theorem State.setDirty_cmdPort (s : State) : (s.setDirty).cmdPort = s.cmdPort := rfl
@[simp] theorem State.setDirty_resetLine (s : State) : (s.setDirty).resetLine = s.resetLine := rfl
@[simp] theorem State.setDirty_cfg (s : State) : (s.setDirty).cfg = s.cfg := rfl
@[simp] theorem State.setDirty_nanDraws (s : State) : (s.setDirty).nanDraws = s.nanDraws := rfl
@[simp] theorem State.setDirty_bank (s : State) : (s.setDirty).bank = s.bank := rfl
@[simp] theorem State.setDirty_coef (s : State) (ch : Channel) : (s.setDirty).coef ch = s.coef ch := rfl
@[simp] theorem State.setDirty_z1 (s : State) (ch : Channel) : (s.setDirty).z1 ch = s.z1 ch := rfl
@[simp] theorem State.setDirty_z2 (s : State) (ch : Channel) : (s.setDirty).z2 ch = s.z2 ch := rfl

/-! ### clearDirty -/

@[simp] theorem State.clearDirty_pK (s : State) : (s.clearDirty).pK = s.pK := rfl
@[simp] theorem State.clearDirty_pQ (s : State) : (s.clearDirty).pQ = s.pQ := rfl
@[simp] theorem State.clearDirty_status (s : State) : (s.clearDirty).status = clearBit dirtyBit s.status := rfl
@[simp] theorem State.clearDirty_errInfo (s : State) : (s.clearDirty).errInfo = s.errInfo := rfl
@[simp] theorem State.clearDirty_responses (s : State) : (s.clearDirty).responses = s.responses := rfl
@[simp] theorem State.clearDirty_parser (s : State) : (s.clearDirty).parser = s.parser := rfl
@[simp] theorem State.clearDirty_cmdPort (s : State) : (s.clearDirty).cmdPort = s.cmdPort := rfl
@[simp] theorem State.clearDirty_resetLine (s : State) : (s.clearDirty).resetLine = s.resetLine := rfl
@[simp] theorem State.clearDirty_cfg (s : State) : (s.clearDirty).cfg = s.cfg := rfl
@[simp] theorem State.clearDirty_nanDraws (s : State) : (s.clearDirty).nanDraws = s.nanDraws := rfl
@[simp] theorem State.clearDirty_bank (s : State) : (s.clearDirty).bank = s.bank := rfl
@[simp] theorem State.clearDirty_coef (s : State) (ch : Channel) : (s.clearDirty).coef ch = s.coef ch := rfl
@[simp] theorem State.clearDirty_z1 (s : State) (ch : Channel) : (s.clearDirty).z1 ch = s.z1 ch := rfl
@[simp] theorem State.clearDirty_z2 (s : State) (ch : Channel) : (s.clearDirty).z2 ch = s.z2 ch := rfl

/-! ### setInit -/

@[simp] theorem State.setInit_pK (s : State) : (s.setInit).pK = s.pK := rfl
@[simp] theorem State.setInit_pQ (s : State) : (s.setInit).pQ = s.pQ := rfl
@[simp] theorem State.setInit_status (s : State) : (s.setInit).status = setBit initBit s.status := rfl
@[simp] theorem State.setInit_errInfo (s : State) : (s.setInit).errInfo = s.errInfo := rfl
@[simp] theorem State.setInit_responses (s : State) : (s.setInit).responses = s.responses := rfl
@[simp] theorem State.setInit_parser (s : State) : (s.setInit).parser = s.parser := rfl
@[simp] theorem State.setInit_cmdPort (s : State) : (s.setInit).cmdPort = s.cmdPort := rfl
@[simp] theorem State.setInit_resetLine (s : State) : (s.setInit).resetLine = s.resetLine := rfl
@[simp] theorem State.setInit_cfg (s : State) : (s.setInit).cfg = s.cfg := rfl
@[simp] theorem State.setInit_nanDraws (s : State) : (s.setInit).nanDraws = s.nanDraws := rfl
@[simp] theorem State.setInit_bank (s : State) : (s.setInit).bank = s.bank := rfl
@[simp] theorem State.setInit_coef (s : State) (ch : Channel) : (s.setInit).coef ch = s.coef ch := rfl
@[simp] theorem State.setInit_z1 (s : State) (ch : Channel) : (s.setInit).z1 ch = s.z1 ch := rfl
@[simp] theorem State.setInit_z2 (s : State) (ch : Channel) : (s.setInit).z2 ch = s.z2 ch := rfl

/-! ### setErr -/

@[simp] theorem State.setErr_pK (s : State) : (s.setErr).pK = s.pK := rfl
@[simp] theorem State.setErr_pQ (s : State) : (s.setErr).pQ = s.pQ := rfl
@[simp] theorem State.setErr_status (s : State) : (s.setErr).status = setBit errBit s.status := rfl
@[simp] theorem State.setErr_errInfo (s : State) : (s.setErr).errInfo = s.errInfo := rfl
@[simp] theorem State.setErr_responses (s : State) : (s.setErr).responses = s.responses := rfl
@[simp] theorem State.setErr_parser (s : State) : (s.setErr).parser = s.parser := rfl
@[simp] theorem State.setErr_cmdPort (s : State) : (s.setErr).cmdPort = s.cmdPort := rfl
@[simp] theorem State.setErr_resetLine (s : State) : (s.setErr).resetLine = s.resetLine := rfl
@[simp] theorem State.setErr_cfg (s : State) : (s.setErr).cfg = s.cfg := rfl
@[simp] theorem State.setErr_nanDraws (s : State) : (s.setErr).nanDraws = s.nanDraws := rfl
@[simp] theorem State.setErr_bank (s : State) : (s.setErr).bank = s.bank := rfl
@[simp] theorem State.setErr_coef (s : State) (ch : Channel) : (s.setErr).coef ch = s.coef ch := rfl
@[simp] theorem State.setErr_z1 (s : State) (ch : Channel) : (s.setErr).z1 ch = s.z1 ch := rfl
@[simp] theorem State.setErr_z2 (s : State) (ch : Channel) : (s.setErr).z2 ch = s.z2 ch := rfl

/-! ### setNonFinite -/

@[simp] theorem State.setNonFinite_pK (s : State) : (s.setNonFinite).pK = s.pK := rfl
@[simp] theorem State.setNonFinite_pQ (s : State) : (s.setNonFinite).pQ = s.pQ := rfl
@[simp] theorem State.setNonFinite_status (s : State) : (s.setNonFinite).status = setBit nfBit s.status := rfl
@[simp] theorem State.setNonFinite_errInfo (s : State) : (s.setNonFinite).errInfo = s.errInfo := rfl
@[simp] theorem State.setNonFinite_responses (s : State) : (s.setNonFinite).responses = s.responses := rfl
@[simp] theorem State.setNonFinite_parser (s : State) : (s.setNonFinite).parser = s.parser := rfl
@[simp] theorem State.setNonFinite_cmdPort (s : State) : (s.setNonFinite).cmdPort = s.cmdPort := rfl
@[simp] theorem State.setNonFinite_resetLine (s : State) : (s.setNonFinite).resetLine = s.resetLine := rfl
@[simp] theorem State.setNonFinite_cfg (s : State) : (s.setNonFinite).cfg = s.cfg := rfl
@[simp] theorem State.setNonFinite_nanDraws (s : State) : (s.setNonFinite).nanDraws = s.nanDraws := rfl
@[simp] theorem State.setNonFinite_bank (s : State) : (s.setNonFinite).bank = s.bank := rfl
@[simp] theorem State.setNonFinite_coef (s : State) (ch : Channel) : (s.setNonFinite).coef ch = s.coef ch := rfl
@[simp] theorem State.setNonFinite_z1 (s : State) (ch : Channel) : (s.setNonFinite).z1 ch = s.z1 ch := rfl
@[simp] theorem State.setNonFinite_z2 (s : State) (ch : Channel) : (s.setNonFinite).z2 ch = s.z2 ch := rfl

/-! ### setErrCode -/

@[simp] theorem State.setErrCode_pK (s : State) (n : Nat) : (s.setErrCode n).pK = s.pK := rfl
@[simp] theorem State.setErrCode_pQ (s : State) (n : Nat) : (s.setErrCode n).pQ = s.pQ := rfl
@[simp] theorem State.setErrCode_status (s : State) (n : Nat) : (s.setErrCode n).status = withErrCode n s.status := rfl
@[simp] theorem State.setErrCode_errInfo (s : State) (n : Nat) : (s.setErrCode n).errInfo = s.errInfo := rfl
@[simp] theorem State.setErrCode_responses (s : State) (n : Nat) : (s.setErrCode n).responses = s.responses := rfl
@[simp] theorem State.setErrCode_parser (s : State) (n : Nat) : (s.setErrCode n).parser = s.parser := rfl
@[simp] theorem State.setErrCode_cmdPort (s : State) (n : Nat) : (s.setErrCode n).cmdPort = s.cmdPort := rfl
@[simp] theorem State.setErrCode_resetLine (s : State) (n : Nat) : (s.setErrCode n).resetLine = s.resetLine := rfl
@[simp] theorem State.setErrCode_cfg (s : State) (n : Nat) : (s.setErrCode n).cfg = s.cfg := rfl
@[simp] theorem State.setErrCode_nanDraws (s : State) (n : Nat) : (s.setErrCode n).nanDraws = s.nanDraws := rfl
@[simp] theorem State.setErrCode_bank (s : State) (n : Nat) : (s.setErrCode n).bank = s.bank := rfl
@[simp] theorem State.setErrCode_coef (s : State) (n : Nat) (ch : Channel) : (s.setErrCode n).coef ch = s.coef ch := rfl
@[simp] theorem State.setErrCode_z1 (s : State) (n : Nat) (ch : Channel) : (s.setErrCode n).z1 ch = s.z1 ch := rfl
@[simp] theorem State.setErrCode_z2 (s : State) (n : Nat) (ch : Channel) : (s.setErrCode n).z2 ch = s.z2 ch := rfl

/-! ### noteFinite -/

@[simp] theorem State.noteFinite_pK (s : State) (ws : List Word) : (s.noteFinite ws).pK = s.pK := by unfold State.noteFinite; split <;> rfl
@[simp] theorem State.noteFinite_pQ (s : State) (ws : List Word) : (s.noteFinite ws).pQ = s.pQ := by unfold State.noteFinite; split <;> rfl
@[simp] theorem State.noteFinite_status (s : State) (ws : List Word) : (s.noteFinite ws).status = if ws.all isFinite then s.status else setBit nfBit s.status := by unfold State.noteFinite; split <;> rfl
@[simp] theorem State.noteFinite_errInfo (s : State) (ws : List Word) : (s.noteFinite ws).errInfo = s.errInfo := by unfold State.noteFinite; split <;> rfl
@[simp] theorem State.noteFinite_responses (s : State) (ws : List Word) : (s.noteFinite ws).responses = s.responses := by unfold State.noteFinite; split <;> rfl
@[simp] theorem State.noteFinite_parser (s : State) (ws : List Word) : (s.noteFinite ws).parser = s.parser := by unfold State.noteFinite; split <;> rfl
@[simp] theorem State.noteFinite_cmdPort (s : State) (ws : List Word) : (s.noteFinite ws).cmdPort = s.cmdPort := by unfold State.noteFinite; split <;> rfl
@[simp] theorem State.noteFinite_resetLine (s : State) (ws : List Word) : (s.noteFinite ws).resetLine = s.resetLine := by unfold State.noteFinite; split <;> rfl
@[simp] theorem State.noteFinite_cfg (s : State) (ws : List Word) : (s.noteFinite ws).cfg = s.cfg := by unfold State.noteFinite; split <;> rfl
@[simp] theorem State.noteFinite_nanDraws (s : State) (ws : List Word) : (s.noteFinite ws).nanDraws = s.nanDraws := by unfold State.noteFinite; split <;> rfl
@[simp] theorem State.noteFinite_bank (s : State) (ws : List Word) : (s.noteFinite ws).bank = s.bank := by unfold State.noteFinite; split <;> rfl
@[simp] theorem State.noteFinite_coef (s : State) (ws : List Word) (ch : Channel) : (s.noteFinite ws).coef ch = s.coef ch := by unfold State.noteFinite; split <;> rfl
@[simp] theorem State.noteFinite_z1 (s : State) (ws : List Word) (ch : Channel) : (s.noteFinite ws).z1 ch = s.z1 ch := by unfold State.noteFinite; split <;> rfl
@[simp] theorem State.noteFinite_z2 (s : State) (ws : List Word) (ch : Channel) : (s.noteFinite ws).z2 ch = s.z2 ch := by unfold State.noteFinite; split <;> rfl

/-! ### hostWrite -/

@[simp] theorem State.hostWrite_pK (s : State) (ws : List Word) : (s.hostWrite ws).pK = s.pK := rfl
@[simp] theorem State.hostWrite_pQ (s : State) (ws : List Word) : (s.hostWrite ws).pQ = s.pQ := rfl
@[simp] theorem State.hostWrite_status (s : State) (ws : List Word) : (s.hostWrite ws).status = s.status := rfl
@[simp] theorem State.hostWrite_errInfo (s : State) (ws : List Word) : (s.hostWrite ws).errInfo = s.errInfo := rfl
@[simp] theorem State.hostWrite_responses (s : State) (ws : List Word) : (s.hostWrite ws).responses = s.responses := rfl
@[simp] theorem State.hostWrite_parser (s : State) (ws : List Word) : (s.hostWrite ws).parser = s.parser := rfl
@[simp] theorem State.hostWrite_cmdPort (s : State) (ws : List Word) : (s.hostWrite ws).cmdPort = s.cmdPort ++ ws := rfl
@[simp] theorem State.hostWrite_resetLine (s : State) (ws : List Word) : (s.hostWrite ws).resetLine = s.resetLine := rfl
@[simp] theorem State.hostWrite_cfg (s : State) (ws : List Word) : (s.hostWrite ws).cfg = s.cfg := rfl
@[simp] theorem State.hostWrite_nanDraws (s : State) (ws : List Word) : (s.hostWrite ws).nanDraws = s.nanDraws := rfl
@[simp] theorem State.hostWrite_bank (s : State) (ws : List Word) : (s.hostWrite ws).bank = s.bank := rfl
@[simp] theorem State.hostWrite_coef (s : State) (ws : List Word) (ch : Channel) : (s.hostWrite ws).coef ch = s.coef ch := rfl
@[simp] theorem State.hostWrite_z1 (s : State) (ws : List Word) (ch : Channel) : (s.hostWrite ws).z1 ch = s.z1 ch := rfl
@[simp] theorem State.hostWrite_z2 (s : State) (ws : List Word) (ch : Channel) : (s.hostWrite ws).z2 ch = s.z2 ch := rfl
@[simp] theorem State.hostWrite_dirty (s : State) (ws : List Word) : (s.hostWrite ws).dirty = s.dirty := rfl
@[simp] theorem State.hostWrite_initDone (s : State) (ws : List Word) : (s.hostWrite ws).initDone = s.initDone := rfl
@[simp] theorem State.hostWrite_err (s : State) (ws : List Word) : (s.hostWrite ws).err = s.err := rfl
@[simp] theorem State.hostWrite_nonFinite (s : State) (ws : List Word) : (s.hostWrite ws).nonFinite = s.nonFinite := rfl
@[simp] theorem State.hostWrite_errCode (s : State) (ws : List Word) : (s.hostWrite ws).errCode = s.errCode := rfl

/-! ### assertReset -/

@[simp] theorem State.assertReset_pK (s : State) : (s.assertReset).pK = s.pK := rfl
@[simp] theorem State.assertReset_pQ (s : State) : (s.assertReset).pQ = s.pQ := rfl
@[simp] theorem State.assertReset_status (s : State) : (s.assertReset).status = s.status := rfl
@[simp] theorem State.assertReset_errInfo (s : State) : (s.assertReset).errInfo = s.errInfo := rfl
@[simp] theorem State.assertReset_responses (s : State) : (s.assertReset).responses = s.responses := rfl
@[simp] theorem State.assertReset_parser (s : State) : (s.assertReset).parser = s.parser := rfl
@[simp] theorem State.assertReset_cmdPort (s : State) : (s.assertReset).cmdPort = s.cmdPort := rfl
@[simp] theorem State.assertReset_resetLine (s : State) : (s.assertReset).resetLine = true := rfl
@[simp] theorem State.assertReset_cfg (s : State) : (s.assertReset).cfg = s.cfg := rfl
@[simp] theorem State.assertReset_nanDraws (s : State) : (s.assertReset).nanDraws = s.nanDraws := rfl
@[simp] theorem State.assertReset_bank (s : State) : (s.assertReset).bank = s.bank := rfl
@[simp] theorem State.assertReset_coef (s : State) (ch : Channel) : (s.assertReset).coef ch = s.coef ch := rfl
@[simp] theorem State.assertReset_z1 (s : State) (ch : Channel) : (s.assertReset).z1 ch = s.z1 ch := rfl
@[simp] theorem State.assertReset_z2 (s : State) (ch : Channel) : (s.assertReset).z2 ch = s.z2 ch := rfl
@[simp] theorem State.assertReset_dirty (s : State) : (s.assertReset).dirty = s.dirty := rfl
@[simp] theorem State.assertReset_initDone (s : State) : (s.assertReset).initDone = s.initDone := rfl
@[simp] theorem State.assertReset_err (s : State) : (s.assertReset).err = s.err := rfl
@[simp] theorem State.assertReset_nonFinite (s : State) : (s.assertReset).nonFinite = s.nonFinite := rfl
@[simp] theorem State.assertReset_errCode (s : State) : (s.assertReset).errCode = s.errCode := rfl

/-! ### Channel registers after the bank writes (R32 to R34) -/

@[simp] theorem State.writeCoef_coef (s : State) (ch ch' : Channel) (c : CoefSet Word) :
    (s.writeCoef ch c).coef ch' = if ch' = ch then c else s.coef ch' := by
  cases ch <;> cases ch' <;> rfl

@[simp] theorem State.writeCoef_z1 (s : State) (ch ch' : Channel) (c : CoefSet Word) :
    (s.writeCoef ch c).z1 ch' = s.z1 ch' := by
  cases ch <;> cases ch' <;> rfl

@[simp] theorem State.writeCoef_z2 (s : State) (ch ch' : Channel) (c : CoefSet Word) :
    (s.writeCoef ch c).z2 ch' = s.z2 ch' := by
  cases ch <;> cases ch' <;> rfl

@[simp] theorem State.writeDelay_coef (s : State) (ch ch' : Channel) (a b : Word) :
    (s.writeDelay ch a b).coef ch' = s.coef ch' := by
  cases ch <;> cases ch' <;> rfl

@[simp] theorem State.writeDelay_z1 (s : State) (ch ch' : Channel) (a b : Word) :
    (s.writeDelay ch a b).z1 ch' = if ch' = ch then a else s.z1 ch' := by
  cases ch <;> cases ch' <;> rfl

@[simp] theorem State.writeDelay_z2 (s : State) (ch ch' : Channel) (a b : Word) :
    (s.writeDelay ch a b).z2 ch' = if ch' = ch then b else s.z2 ch' := by
  cases ch <;> cases ch' <;> rfl

@[simp] theorem State.writeAllCoefs_coef (s : State) (c : CoefSet Word) (ch : Channel) :
    (s.writeAllCoefs c).coef ch = c := by
  cases ch <;> rfl

@[simp] theorem State.writeAllCoefs_z1 (s : State) (c : CoefSet Word) (ch : Channel) :
    (s.writeAllCoefs c).z1 ch = s.z1 ch := by
  cases ch <;> rfl

@[simp] theorem State.writeAllCoefs_z2 (s : State) (c : CoefSet Word) (ch : Channel) :
    (s.writeAllCoefs c).z2 ch = s.z2 ch := by
  cases ch <;> rfl

@[simp] theorem State.zeroAllDelays_coef (s : State) (ch : Channel) : s.zeroAllDelays.coef ch = s.coef ch := by
  cases ch <;> rfl

@[simp] theorem State.zeroAllDelays_z1 (s : State) (ch : Channel) : s.zeroAllDelays.z1 ch = 0 := by
  cases ch <;> rfl

@[simp] theorem State.zeroAllDelays_z2 (s : State) (ch : Channel) : s.zeroAllDelays.z2 ch = 0 := by
  cases ch <;> rfl

/-- A bank is its twenty-eight words (R30). -/
theorem Bank.ext_get {a b : Bank} (h : ∀ ch, a.get ch = b.get ch) : a = b := by
  cases a; cases b
  have h0 := h .mainLeft; have h1 := h .mainRight; have h2 := h .subLeft; have h3 := h .subRight
  simp only [Bank.get] at h0 h1 h2 h3
  subst h0 h1 h2 h3; rfl

end Sys2Proof.Machine
end

