-- ==== Sys2Proof/Laws/Status.lean ====
section
/-! SUPPORT. The fields of STATUS after each way of writing it: a field write changes its own field and no other (spec/10_state.md
R37). -/

namespace Sys2Proof.Machine

theorem getLsbD_setBit (i j : Nat) (w : Word) :
    (setBit i w).getLsbD j = (w.getLsbD j || (decide (j < 32) && decide (j = i))) := by
  by_cases hj : j < 32
  · by_cases h : j = i
    · subst h; simp [setBit, hj]
    · have : j - i ≠ 0 ∨ j < i := by omega
      rcases this with h' | h' <;> simp [setBit, hj, h, h']
  · simp [hj]; rw [BitVec.getLsbD_of_ge _ _ (by omega), BitVec.getLsbD_of_ge _ _ (by omega)]

theorem getLsbD_clearBit (i j : Nat) (w : Word) :
    (clearBit i w).getLsbD j = (w.getLsbD j && !decide (j = i)) := by
  by_cases hj : j < 32
  · by_cases h : j = i
    · subst h; simp [clearBit, hj]
    · have : j - i ≠ 0 ∨ j < i := by omega
      rcases this with h' | h' <;> simp [clearBit, hj, h, h']
  · rw [BitVec.getLsbD_of_ge _ _ (by omega), BitVec.getLsbD_of_ge _ _ (by omega)]; rfl

theorem getLsbD_setBit_same {i : Nat} (h : i < 32) (w : Word) : (setBit i w).getLsbD i = true := by
  rw [getLsbD_setBit]; simp [h]

theorem getLsbD_setBit_ne {i j : Nat} (h : j ≠ i) (w : Word) : (setBit i w).getLsbD j = w.getLsbD j := by
  rw [getLsbD_setBit]; simp [h]

theorem getLsbD_clearBit_same (i : Nat) (w : Word) : (clearBit i w).getLsbD i = false := by
  rw [getLsbD_clearBit]; simp

theorem getLsbD_clearBit_ne {i j : Nat} (h : j ≠ i) (w : Word) : (clearBit i w).getLsbD j = w.getLsbD j := by
  rw [getLsbD_clearBit]; simp [h]

theorem errCodeField_setBit {i : Nat} (h : i < 4) (w : Word) : errCodeField (setBit i w) = errCodeField w := by
  apply field_congr
  intro j h1 _
  rw [getLsbD_setBit]
  simp [show j ≠ i by omega]

theorem errCodeField_clearBit {i : Nat} (h : i < 4) (w : Word) : errCodeField (clearBit i w) = errCodeField w := by
  apply field_congr
  intro j h1 _
  rw [getLsbD_clearBit]
  simp [show j ≠ i by omega]

/-- No flag write touches the reserved bits 31:8 (R37). -/
theorem reserved_setBit {i : Nat} (h : i < 8) (w : Word) : field (setBit i w) 31 8 = field w 31 8 := by
  apply field_congr
  intro j h1 _
  rw [getLsbD_setBit]
  simp [show j ≠ i by omega]

theorem reserved_clearBit {i : Nat} (h : i < 8) (w : Word) : field (clearBit i w) 31 8 = field w 31 8 := by
  apply field_congr
  intro j h1 _
  rw [getLsbD_clearBit]
  simp [show j ≠ i by omega]

theorem mask_getLsbD : ∀ j, j < 32 → (0xF0#32).getLsbD j = decide (4 ≤ j ∧ j < 8) := by decide

theorem getLsbD_withErrCode (code j : Nat) (w : Word) :
    (withErrCode code w).getLsbD j =
      if 4 ≤ j ∧ j < 8 then (code % 16).testBit (j - 4) else w.getLsbD j := by
  by_cases hj : j < 32
  · simp only [withErrCode, BitVec.getLsbD_or, BitVec.getLsbD_and, BitVec.getLsbD_not, BitVec.getLsbD_shiftLeft,
      mask_getLsbD j hj, hj, decide_true, Bool.true_and, BitVec.getLsbD_ofNat]
    by_cases h4 : 4 ≤ j
    · by_cases h8 : j < 8
      · simp [h4, h8, show ¬ j < 4 by omega, show j - 4 < 32 by omega]
      · have hz : (code % 16).testBit (j - 4) = false := by
          apply Nat.testBit_lt_two_pow
          calc code % 16 < 2 ^ 4 := Nat.mod_lt _ (by decide)
            _ ≤ 2 ^ (j - 4) := Nat.pow_le_pow_right (by decide) (by omega)
        simp [h8, hz]
    · simp [h4, show j < 4 by omega]
  · rw [BitVec.getLsbD_of_ge _ _ (by omega), BitVec.getLsbD_of_ge _ _ (by omega), if_neg (by omega)]

theorem getLsbD_withErrCode_low {code j : Nat} (h : j < 4) (w : Word) : (withErrCode code w).getLsbD j = w.getLsbD j := by
  rw [getLsbD_withErrCode, if_neg (by omega)]

theorem errCodeField_withErrCode {code : Nat} (h : code < 16) (w : Word) : errCodeField (withErrCode code w) = code := by
  rw [errCodeField, field_eq_slice]
  have : (withErrCode code w).extractLsb' 4 (7 + 1 - 4) = BitVec.ofNat 4 code := by
    apply BitVec.eq_of_getLsbD_eq
    intro i hi
    simp only [BitVec.getLsbD_extractLsb', hi, decide_true, Bool.true_and, getLsbD_withErrCode, BitVec.getLsbD_ofNat]
    rw [if_pos (by omega), Nat.mod_eq_of_lt h]
    congr 1; omega
  rw [this, BitVec.toNat_ofNat]
  exact Nat.mod_eq_of_lt h

theorem reserved_withErrCode (code : Nat) (w : Word) : field (withErrCode code w) 31 8 = field w 31 8 := by
  apply field_congr
  intro j h1 _
  rw [getLsbD_withErrCode, if_neg (by omega)]

/-! ### The flags of a state (R37) -/

@[simp] theorem State.setDirty_dirty (s : State) : s.setDirty.dirty = true :=
  getLsbD_setBit_same (by decide) _
@[simp] theorem State.setDirty_initDone (s : State) : s.setDirty.initDone = s.initDone :=
  getLsbD_setBit_ne (by decide) _
@[simp] theorem State.setDirty_err (s : State) : s.setDirty.err = s.err :=
  getLsbD_setBit_ne (by decide) _
@[simp] theorem State.setDirty_nonFinite (s : State) : s.setDirty.nonFinite = s.nonFinite :=
  getLsbD_setBit_ne (by decide) _
@[simp] theorem State.setDirty_errCode (s : State) : s.setDirty.errCode = s.errCode := errCodeField_setBit (by decide) _

@[simp] theorem State.clearDirty_dirty (s : State) : s.clearDirty.dirty = false :=
  getLsbD_clearBit_same _ _
@[simp] theorem State.clearDirty_initDone (s : State) : s.clearDirty.initDone = s.initDone :=
  getLsbD_clearBit_ne (by decide) _
@[simp] theorem State.clearDirty_err (s : State) : s.clearDirty.err = s.err :=
  getLsbD_clearBit_ne (by decide) _
@[simp] theorem State.clearDirty_nonFinite (s : State) : s.clearDirty.nonFinite = s.nonFinite :=
  getLsbD_clearBit_ne (by decide) _
@[simp] theorem State.clearDirty_errCode (s : State) : s.clearDirty.errCode = s.errCode := errCodeField_clearBit (by decide) _

@[simp] theorem State.setInit_dirty (s : State) : s.setInit.dirty = s.dirty :=
  getLsbD_setBit_ne (by decide) _
@[simp] theorem State.setInit_initDone (s : State) : s.setInit.initDone = true :=
  getLsbD_setBit_same (by decide) _
@[simp] theorem State.setInit_err (s : State) : s.setInit.err = s.err :=
  getLsbD_setBit_ne (by decide) _
@[simp] theorem State.setInit_nonFinite (s : State) : s.setInit.nonFinite = s.nonFinite :=
  getLsbD_setBit_ne (by decide) _
@[simp] theorem State.setInit_errCode (s : State) : s.setInit.errCode = s.errCode := errCodeField_setBit (by decide) _

@[simp] theorem State.setErr_dirty (s : State) : s.setErr.dirty = s.dirty :=
  getLsbD_setBit_ne (by decide) _
@[simp] theorem State.setErr_initDone (s : State) : s.setErr.initDone = s.initDone :=
  getLsbD_setBit_ne (by decide) _
@[simp] theorem State.setErr_err (s : State) : s.setErr.err = true :=
  getLsbD_setBit_same (by decide) _
@[simp] theorem State.setErr_nonFinite (s : State) : s.setErr.nonFinite = s.nonFinite :=
  getLsbD_setBit_ne (by decide) _
@[simp] theorem State.setErr_errCode (s : State) : s.setErr.errCode = s.errCode := errCodeField_setBit (by decide) _

@[simp] theorem State.setNonFinite_dirty (s : State) : s.setNonFinite.dirty = s.dirty :=
  getLsbD_setBit_ne (by decide) _
@[simp] theorem State.setNonFinite_initDone (s : State) : s.setNonFinite.initDone = s.initDone :=
  getLsbD_setBit_ne (by decide) _
@[simp] theorem State.setNonFinite_err (s : State) : s.setNonFinite.err = s.err :=
  getLsbD_setBit_ne (by decide) _
@[simp] theorem State.setNonFinite_nonFinite (s : State) : s.setNonFinite.nonFinite = true :=
  getLsbD_setBit_same (by decide) _
@[simp] theorem State.setNonFinite_errCode (s : State) : s.setNonFinite.errCode = s.errCode := errCodeField_setBit (by decide) _

@[simp] theorem State.setErrCode_dirty (s : State) (n : Nat) : (s.setErrCode n).dirty = s.dirty :=
  getLsbD_withErrCode_low (by decide) _
@[simp] theorem State.setErrCode_initDone (s : State) (n : Nat) : (s.setErrCode n).initDone = s.initDone :=
  getLsbD_withErrCode_low (by decide) _
@[simp] theorem State.setErrCode_err (s : State) (n : Nat) : (s.setErrCode n).err = s.err :=
  getLsbD_withErrCode_low (by decide) _
@[simp] theorem State.setErrCode_nonFinite (s : State) (n : Nat) : (s.setErrCode n).nonFinite = s.nonFinite :=
  getLsbD_withErrCode_low (by decide) _

/-! ### NF (R225) -/

@[simp] theorem State.noteFinite_dirty (s : State) (ws : List Word) : (s.noteFinite ws).dirty = s.dirty := by
  unfold State.noteFinite; split <;> simp
@[simp] theorem State.noteFinite_initDone (s : State) (ws : List Word) : (s.noteFinite ws).initDone = s.initDone := by
  unfold State.noteFinite; split <;> simp
@[simp] theorem State.noteFinite_err (s : State) (ws : List Word) : (s.noteFinite ws).err = s.err := by
  unfold State.noteFinite; split <;> simp
@[simp] theorem State.noteFinite_errCode (s : State) (ws : List Word) : (s.noteFinite ws).errCode = s.errCode := by
  unfold State.noteFinite; split <;> simp
/-- NF after noting words: as before, or set because a word is not finite. -/
@[simp] theorem State.noteFinite_nonFinite (s : State) (ws : List Word) :
    (s.noteFinite ws).nonFinite = (s.nonFinite || !ws.all isFinite) := by
  unfold State.noteFinite; split <;> simp_all

/-- The reserved bits of STATUS after each flag write (R37). -/
theorem State.noteFinite_reserved (s : State) (ws : List Word) :
    field (s.noteFinite ws).status 31 8 = field s.status 31 8 := by
  unfold State.noteFinite
  split
  · rfl
  · exact reserved_setBit (by decide) _

end Sys2Proof.Machine
end

