-- ==== Sys2Proof/Laws/Ops.lean ====
section
/-! SUPPORT. One lemma for each thing a composite operation of Machine/Ops.lean does: the sample update (spec/41_filter_instance.md R140),
a frame and a block of frames (R173), the commit step (R172), the exception (R221), hardware reset (R250), and the fetch (R86). Provers
cite these instead of unfolding the operations. -/

namespace Sys2Proof.Machine

/-! ### The sample update (R140, R143) -/

@[simp] theorem State.sosState_pK (s : State) (ch : Channel) (x : Word) : (s.sosState ch x).pK = s.pK := by
  simp [State.sosState]
@[simp] theorem State.sample_pK (s : State) (ch : Channel) (x : Word) : (s.sample ch x).pK = s.pK := by
  simp [State.sample]
@[simp] theorem State.sosState_pQ (s : State) (ch : Channel) (x : Word) : (s.sosState ch x).pQ = s.pQ := by
  simp [State.sosState]
@[simp] theorem State.sample_pQ (s : State) (ch : Channel) (x : Word) : (s.sample ch x).pQ = s.pQ := by
  simp [State.sample]
@[simp] theorem State.sosState_errInfo (s : State) (ch : Channel) (x : Word) : (s.sosState ch x).errInfo = s.errInfo := by
  simp [State.sosState]
@[simp] theorem State.sample_errInfo (s : State) (ch : Channel) (x : Word) : (s.sample ch x).errInfo = s.errInfo := by
  simp [State.sample]
@[simp] theorem State.sosState_parser (s : State) (ch : Channel) (x : Word) : (s.sosState ch x).parser = s.parser := by
  simp [State.sosState]
@[simp] theorem State.sample_parser (s : State) (ch : Channel) (x : Word) : (s.sample ch x).parser = s.parser := by
  simp [State.sample]
@[simp] theorem State.sosState_cmdPort (s : State) (ch : Channel) (x : Word) : (s.sosState ch x).cmdPort = s.cmdPort := by
  simp [State.sosState]
@[simp] theorem State.sample_cmdPort (s : State) (ch : Channel) (x : Word) : (s.sample ch x).cmdPort = s.cmdPort := by
  simp [State.sample]
@[simp] theorem State.sosState_resetLine (s : State) (ch : Channel) (x : Word) : (s.sosState ch x).resetLine = s.resetLine := by
  simp [State.sosState]
@[simp] theorem State.sample_resetLine (s : State) (ch : Channel) (x : Word) : (s.sample ch x).resetLine = s.resetLine := by
  simp [State.sample]
@[simp] theorem State.sosState_cfg (s : State) (ch : Channel) (x : Word) : (s.sosState ch x).cfg = s.cfg := by
  simp [State.sosState]
@[simp] theorem State.sample_cfg (s : State) (ch : Channel) (x : Word) : (s.sample ch x).cfg = s.cfg := by
  simp [State.sample]
@[simp] theorem State.sosState_dirty (s : State) (ch : Channel) (x : Word) : (s.sosState ch x).dirty = s.dirty := by
  change ((s.writeDelay ch _ _).noteFinite _).dirty = _; simp
@[simp] theorem State.sample_dirty (s : State) (ch : Channel) (x : Word) : (s.sample ch x).dirty = s.dirty := by
  simp [State.sample]
@[simp] theorem State.sosState_initDone (s : State) (ch : Channel) (x : Word) : (s.sosState ch x).initDone = s.initDone := by
  change ((s.writeDelay ch _ _).noteFinite _).initDone = _; simp
@[simp] theorem State.sample_initDone (s : State) (ch : Channel) (x : Word) : (s.sample ch x).initDone = s.initDone := by
  simp [State.sample]
@[simp] theorem State.sosState_err (s : State) (ch : Channel) (x : Word) : (s.sosState ch x).err = s.err := by
  change ((s.writeDelay ch _ _).noteFinite _).err = _; simp
@[simp] theorem State.sample_err (s : State) (ch : Channel) (x : Word) : (s.sample ch x).err = s.err := by
  simp [State.sample]
@[simp] theorem State.sosState_errCode (s : State) (ch : Channel) (x : Word) : (s.sosState ch x).errCode = s.errCode := by
  change ((s.writeDelay ch _ _).noteFinite _).errCode = _; simp
@[simp] theorem State.sample_errCode (s : State) (ch : Channel) (x : Word) : (s.sample ch x).errCode = s.errCode := by
  simp [State.sample]

@[simp] theorem State.sosState_responses (s : State) (ch : Channel) (x : Word) :
    (s.sosState ch x).responses = s.responses := by
  simp [State.sosState]

@[simp] theorem State.sosState_nanDraws (s : State) (ch : Channel) (x : Word) :
    (s.sosState ch x).nanDraws = s.nanDraws + sosOps := rfl

@[simp] theorem State.sosState_coef (s : State) (ch ch' : Channel) (x : Word) :
    (s.sosState ch x).coef ch' = s.coef ch' := by
  change ((s.writeDelay ch _ _).noteFinite _).coef ch' = _; simp

@[simp] theorem State.sosState_z1 (s : State) (ch ch' : Channel) (x : Word) :
    (s.sosState ch x).z1 ch' = if ch' = ch then (s.sosResult ch x).nz1 else s.z1 ch' := by
  change ((s.writeDelay ch _ _).noteFinite _).z1 ch' = _; simp

@[simp] theorem State.sosState_z2 (s : State) (ch ch' : Channel) (x : Word) :
    (s.sosState ch x).z2 ch' = if ch' = ch then (s.sosResult ch x).nz2 else s.z2 ch' := by
  change ((s.writeDelay ch _ _).noteFinite _).z2 ch' = _; simp

/-- NF after a sample: as before, or set because one of the three results is not finite (R225 b). -/
@[simp] theorem State.sosState_nonFinite (s : State) (ch : Channel) (x : Word) :
    (s.sosState ch x).nonFinite = (s.nonFinite ||
      !([(s.sosResult ch x).acc, (s.sosResult ch x).nz1, (s.sosResult ch x).nz2].all isFinite)) := by
  change ((s.writeDelay ch _ _).noteFinite _).nonFinite = _
  rw [State.noteFinite_nonFinite]; rfl

theorem State.sosState_reserved (s : State) (ch : Channel) (x : Word) :
    field (s.sosState ch x).status 31 8 = field s.status 31 8 := by
  change field ((s.writeDelay ch _ _).noteFinite _).status 31 8 = _
  rw [State.noteFinite_reserved]; rfl

@[simp] theorem State.sample_responses (s : State) (ch : Channel) (x : Word) :
    (s.sample ch x).responses = s.responses ++ [(s.sosResult ch x).acc] := by
  simp [State.sample]

@[simp] theorem State.sample_nanDraws (s : State) (ch : Channel) (x : Word) :
    (s.sample ch x).nanDraws = s.nanDraws + sosOps := rfl

@[simp] theorem State.sample_coef (s : State) (ch ch' : Channel) (x : Word) :
    (s.sample ch x).coef ch' = s.coef ch' := by simp [State.sample]

@[simp] theorem State.sample_z1 (s : State) (ch ch' : Channel) (x : Word) :
    (s.sample ch x).z1 ch' = if ch' = ch then (s.sosResult ch x).nz1 else s.z1 ch' := by simp [State.sample]

@[simp] theorem State.sample_z2 (s : State) (ch ch' : Channel) (x : Word) :
    (s.sample ch x).z2 ch' = if ch' = ch then (s.sosResult ch x).nz2 else s.z2 ch' := by simp [State.sample]

@[simp] theorem State.sample_nonFinite (s : State) (ch : Channel) (x : Word) :
    (s.sample ch x).nonFinite = (s.nonFinite ||
      !([(s.sosResult ch x).acc, (s.sosResult ch x).nz1, (s.sosResult ch x).nz2].all isFinite)) := by
  simp [State.sample]

theorem State.sample_reserved (s : State) (ch : Channel) (x : Word) :
    field (s.sample ch x).status 31 8 = field s.status 31 8 := by
  change field (s.sosState ch x).status 31 8 = _
  exact State.sosState_reserved s ch x

/-! ### Frames (R173) -/

/-- A property that every sample keeps is kept by a block of frames. -/
theorem State.frames_induction {P : State → Prop} (hs : ∀ s ch x, P s → P (s.sample ch x)) (s : State) (fs : List Frame)
    (h : P s) : P (s.frames fs) := by
  induction fs generalizing s with
  | nil => exact h
  | cons f fs ih => exact ih _ (hs _ _ _ (hs _ _ _ (hs _ _ _ (hs _ _ _ h))))

@[simp] theorem State.frames_nil (s : State) : s.frames [] = s := rfl

@[simp] theorem State.frames_cons (s : State) (f : Frame) (fs : List Frame) : s.frames (f :: fs) = (s.frame f).frames fs := rfl

@[simp] theorem State.frames_pK (s : State) (fs : List Frame) : (s.frames fs).pK = s.pK :=
  State.frames_induction (P := fun t => t.pK = s.pK) (fun _ _ _ h => by simpa using h) s fs rfl
@[simp] theorem State.frames_pQ (s : State) (fs : List Frame) : (s.frames fs).pQ = s.pQ :=
  State.frames_induction (P := fun t => t.pQ = s.pQ) (fun _ _ _ h => by simpa using h) s fs rfl
@[simp] theorem State.frames_errInfo (s : State) (fs : List Frame) : (s.frames fs).errInfo = s.errInfo :=
  State.frames_induction (P := fun t => t.errInfo = s.errInfo) (fun _ _ _ h => by simpa using h) s fs rfl
@[simp] theorem State.frames_parser (s : State) (fs : List Frame) : (s.frames fs).parser = s.parser :=
  State.frames_induction (P := fun t => t.parser = s.parser) (fun _ _ _ h => by simpa using h) s fs rfl
@[simp] theorem State.frames_cmdPort (s : State) (fs : List Frame) : (s.frames fs).cmdPort = s.cmdPort :=
  State.frames_induction (P := fun t => t.cmdPort = s.cmdPort) (fun _ _ _ h => by simpa using h) s fs rfl
@[simp] theorem State.frames_resetLine (s : State) (fs : List Frame) : (s.frames fs).resetLine = s.resetLine :=
  State.frames_induction (P := fun t => t.resetLine = s.resetLine) (fun _ _ _ h => by simpa using h) s fs rfl
@[simp] theorem State.frames_cfg (s : State) (fs : List Frame) : (s.frames fs).cfg = s.cfg :=
  State.frames_induction (P := fun t => t.cfg = s.cfg) (fun _ _ _ h => by simpa using h) s fs rfl
@[simp] theorem State.frames_dirty (s : State) (fs : List Frame) : (s.frames fs).dirty = s.dirty :=
  State.frames_induction (P := fun t => t.dirty = s.dirty) (fun _ _ _ h => by simpa using h) s fs rfl
@[simp] theorem State.frames_initDone (s : State) (fs : List Frame) : (s.frames fs).initDone = s.initDone :=
  State.frames_induction (P := fun t => t.initDone = s.initDone) (fun _ _ _ h => by simpa using h) s fs rfl
@[simp] theorem State.frames_err (s : State) (fs : List Frame) : (s.frames fs).err = s.err :=
  State.frames_induction (P := fun t => t.err = s.err) (fun _ _ _ h => by simpa using h) s fs rfl
@[simp] theorem State.frames_errCode (s : State) (fs : List Frame) : (s.frames fs).errCode = s.errCode :=
  State.frames_induction (P := fun t => t.errCode = s.errCode) (fun _ _ _ h => by simpa using h) s fs rfl
@[simp] theorem State.frames_coef (s : State) (fs : List Frame) (ch : Channel) : (s.frames fs).coef ch = s.coef ch :=
  State.frames_induction (P := fun t => t.coef ch = s.coef ch) (fun _ _ _ h => by simpa using h) s fs rfl

theorem State.frames_reserved (s : State) (fs : List Frame) :
    field (s.frames fs).status 31 8 = field s.status 31 8 :=
  State.frames_induction (P := fun t => field t.status 31 8 = field s.status 31 8)
    (fun t ch x h => by rw [State.sample_reserved, h]) s fs rfl

/-! ### The commit step (R172) -/

@[simp] theorem State.commit_pK (s : State) : s.commit.pK = s.pK := by simp [State.commit]
@[simp] theorem State.commitIfDirty_pK (s : State) : s.commitIfDirty.pK = s.pK := by
  unfold State.commitIfDirty; split <;> simp
@[simp] theorem State.commit_pQ (s : State) : s.commit.pQ = s.pQ := by simp [State.commit]
@[simp] theorem State.commitIfDirty_pQ (s : State) : s.commitIfDirty.pQ = s.pQ := by
  unfold State.commitIfDirty; split <;> simp
@[simp] theorem State.commit_errInfo (s : State) : s.commit.errInfo = s.errInfo := by simp [State.commit]
@[simp] theorem State.commitIfDirty_errInfo (s : State) : s.commitIfDirty.errInfo = s.errInfo := by
  unfold State.commitIfDirty; split <;> simp
@[simp] theorem State.commit_parser (s : State) : s.commit.parser = s.parser := by simp [State.commit]
@[simp] theorem State.commitIfDirty_parser (s : State) : s.commitIfDirty.parser = s.parser := by
  unfold State.commitIfDirty; split <;> simp
@[simp] theorem State.commit_cmdPort (s : State) : s.commit.cmdPort = s.cmdPort := by simp [State.commit]
@[simp] theorem State.commitIfDirty_cmdPort (s : State) : s.commitIfDirty.cmdPort = s.cmdPort := by
  unfold State.commitIfDirty; split <;> simp
@[simp] theorem State.commit_resetLine (s : State) : s.commit.resetLine = s.resetLine := by simp [State.commit]
@[simp] theorem State.commitIfDirty_resetLine (s : State) : s.commitIfDirty.resetLine = s.resetLine := by
  unfold State.commitIfDirty; split <;> simp
@[simp] theorem State.commit_cfg (s : State) : s.commit.cfg = s.cfg := by simp [State.commit]
@[simp] theorem State.commitIfDirty_cfg (s : State) : s.commitIfDirty.cfg = s.cfg := by
  unfold State.commitIfDirty; split <;> simp
@[simp] theorem State.commit_responses (s : State) : s.commit.responses = s.responses := by simp [State.commit]
@[simp] theorem State.commitIfDirty_responses (s : State) : s.commitIfDirty.responses = s.responses := by
  unfold State.commitIfDirty; split <;> simp
@[simp] theorem State.commit_nanDraws (s : State) : s.commit.nanDraws = s.nanDraws := by simp [State.commit]
@[simp] theorem State.commitIfDirty_nanDraws (s : State) : s.commitIfDirty.nanDraws = s.nanDraws := by
  unfold State.commitIfDirty; split <;> simp
@[simp] theorem State.commit_initDone (s : State) : s.commit.initDone = s.initDone := by simp [State.commit]
@[simp] theorem State.commitIfDirty_initDone (s : State) : s.commitIfDirty.initDone = s.initDone := by
  unfold State.commitIfDirty; split <;> simp
@[simp] theorem State.commit_err (s : State) : s.commit.err = s.err := by simp [State.commit]
@[simp] theorem State.commitIfDirty_err (s : State) : s.commitIfDirty.err = s.err := by
  unfold State.commitIfDirty; split <;> simp
@[simp] theorem State.commit_errCode (s : State) : s.commit.errCode = s.errCode := by simp [State.commit]
@[simp] theorem State.commitIfDirty_errCode (s : State) : s.commitIfDirty.errCode = s.errCode := by
  unfold State.commitIfDirty; split <;> simp

@[simp] theorem State.commit_coef (s : State) (ch : Channel) : s.commit.coef ch = calculator s.cfg s.pK s.pQ := by
  simp [State.commit]

@[simp] theorem State.commit_z1 (s : State) (ch : Channel) : s.commit.z1 ch = s.z1 ch := by simp [State.commit]

@[simp] theorem State.commit_z2 (s : State) (ch : Channel) : s.commit.z2 ch = s.z2 ch := by simp [State.commit]

@[simp] theorem State.commit_dirty (s : State) : s.commit.dirty = false := by simp [State.commit]

@[simp] theorem State.commit_nonFinite (s : State) :
    s.commit.nonFinite = (s.nonFinite || !(calculator s.cfg s.pK s.pQ).words.all isFinite) := by
  simp [State.commit]

theorem State.commit_reserved (s : State) : field s.commit.status 31 8 = field s.status 31 8 := by
  unfold State.commit
  rw [State.noteFinite_reserved, State.clearDirty_status, reserved_clearBit (by decide)]; rfl

@[simp] theorem State.commitIfDirty_dirty (s : State) : s.commitIfDirty.dirty = false := by
  unfold State.commitIfDirty
  split
  · simp
  · simp_all

@[simp] theorem State.commitIfDirty_coef (s : State) (ch : Channel) :
    s.commitIfDirty.coef ch = if s.dirty then calculator s.cfg s.pK s.pQ else s.coef ch := by
  unfold State.commitIfDirty; split <;> simp

@[simp] theorem State.commitIfDirty_z1 (s : State) (ch : Channel) : s.commitIfDirty.z1 ch = s.z1 ch := by
  unfold State.commitIfDirty; split <;> simp

@[simp] theorem State.commitIfDirty_z2 (s : State) (ch : Channel) : s.commitIfDirty.z2 ch = s.z2 ch := by
  unfold State.commitIfDirty; split <;> simp

theorem State.commitIfDirty_reserved (s : State) : field s.commitIfDirty.status 31 8 = field s.status 31 8 := by
  unfold State.commitIfDirty
  split
  · exact State.commit_reserved s
  · rfl

/-! ### The exception (R221) -/

@[simp] theorem State.raiseIllegal_bank (s : State) (cause : IllegalCause) (h : Word) : (s.raiseIllegal cause h).bank = s.bank := by
  unfold State.raiseIllegal; split <;> simp
@[simp] theorem State.raiseIllegal_pK (s : State) (cause : IllegalCause) (h : Word) : (s.raiseIllegal cause h).pK = s.pK := by
  unfold State.raiseIllegal; split <;> simp
@[simp] theorem State.raiseIllegal_pQ (s : State) (cause : IllegalCause) (h : Word) : (s.raiseIllegal cause h).pQ = s.pQ := by
  unfold State.raiseIllegal; split <;> simp
@[simp] theorem State.raiseIllegal_responses (s : State) (cause : IllegalCause) (h : Word) : (s.raiseIllegal cause h).responses = s.responses := by
  unfold State.raiseIllegal; split <;> simp
@[simp] theorem State.raiseIllegal_parser (s : State) (cause : IllegalCause) (h : Word) : (s.raiseIllegal cause h).parser = s.parser := by
  unfold State.raiseIllegal; split <;> simp
@[simp] theorem State.raiseIllegal_cmdPort (s : State) (cause : IllegalCause) (h : Word) : (s.raiseIllegal cause h).cmdPort = s.cmdPort := by
  unfold State.raiseIllegal; split <;> simp
@[simp] theorem State.raiseIllegal_resetLine (s : State) (cause : IllegalCause) (h : Word) : (s.raiseIllegal cause h).resetLine = s.resetLine := by
  unfold State.raiseIllegal; split <;> simp
@[simp] theorem State.raiseIllegal_cfg (s : State) (cause : IllegalCause) (h : Word) : (s.raiseIllegal cause h).cfg = s.cfg := by
  unfold State.raiseIllegal; split <;> simp
@[simp] theorem State.raiseIllegal_nanDraws (s : State) (cause : IllegalCause) (h : Word) : (s.raiseIllegal cause h).nanDraws = s.nanDraws := by
  unfold State.raiseIllegal; split <;> simp
@[simp] theorem State.raiseIllegal_coef (s : State) (cause : IllegalCause) (h : Word) (ch : Channel) :
    (s.raiseIllegal cause h).coef ch = s.coef ch := by
  unfold State.coef; simp
@[simp] theorem State.raiseIllegal_z1 (s : State) (cause : IllegalCause) (h : Word) (ch : Channel) :
    (s.raiseIllegal cause h).z1 ch = s.z1 ch := by
  unfold State.z1; simp
@[simp] theorem State.raiseIllegal_z2 (s : State) (cause : IllegalCause) (h : Word) (ch : Channel) :
    (s.raiseIllegal cause h).z2 ch = s.z2 ch := by
  unfold State.z2; simp
@[simp] theorem State.raiseIllegal_dirty (s : State) (cause : IllegalCause) (h : Word) : (s.raiseIllegal cause h).dirty = s.dirty := by
  unfold State.raiseIllegal; split
  · simp
  · rw [State.setErr_dirty]; exact State.setErrCode_dirty s _
@[simp] theorem State.raiseIllegal_initDone (s : State) (cause : IllegalCause) (h : Word) : (s.raiseIllegal cause h).initDone = s.initDone := by
  unfold State.raiseIllegal; split
  · simp
  · rw [State.setErr_initDone]; exact State.setErrCode_initDone s _
@[simp] theorem State.raiseIllegal_nonFinite (s : State) (cause : IllegalCause) (h : Word) : (s.raiseIllegal cause h).nonFinite = s.nonFinite := by
  unfold State.raiseIllegal; split
  · simp
  · rw [State.setErr_nonFinite]; exact State.setErrCode_nonFinite s _

@[simp] theorem State.raiseIllegal_err (s : State) (cause : IllegalCause) (h : Word) : (s.raiseIllegal cause h).err = true := by
  simp [State.raiseIllegal]

/-- ERRINFO keeps the first offending header (R39). -/
@[simp] theorem State.raiseIllegal_errInfo (s : State) (cause : IllegalCause) (h : Word) :
    (s.raiseIllegal cause h).errInfo = if s.err then s.errInfo else h := by
  unfold State.raiseIllegal; split <;> rfl

theorem causeCode_lt (cause : IllegalCause) : causeCode cause < 16 := by cases cause <;> decide

/-- ERRCODE keeps the first cause (R37, R222). -/
@[simp] theorem State.raiseIllegal_errCode (s : State) (cause : IllegalCause) (h : Word) :
    (s.raiseIllegal cause h).errCode = if s.err then s.errCode else causeCode cause := by
  unfold State.raiseIllegal
  split
  · simp
  · rw [State.setErr_errCode]; exact errCodeField_withErrCode (causeCode_lt cause) _

theorem State.raiseIllegal_reserved (s : State) (cause : IllegalCause) (h : Word) :
    field (s.raiseIllegal cause h).status 31 8 = field s.status 31 8 := by
  unfold State.raiseIllegal
  rw [State.setErr_status, reserved_setBit (by decide)]
  split
  · rfl
  · exact reserved_withErrCode _ _

/-! ### Hardware reset (R43, R250) -/

theorem State.hardwareReset_registers (s : State) (ch : Channel) :
    s.hardwareReset.coef ch = ⟨0, 0, 0, 0, 0⟩ ∧ s.hardwareReset.z1 ch = 0 ∧ s.hardwareReset.z2 ch = 0 := by
  cases ch <;> exact ⟨rfl, rfl, rfl⟩

/-! ### The fetch (R86) -/

/-- When the words that stand at the front spell a whole packet, the fetch gives it and leaves the rest on the port. -/
theorem fetch_run {s : State} {i : Instr} {rest : List Word} (hr : s.resetLine = false) (hp : s.cmdPort ≠ [])
    (hd : decode (s.parser.taken ++ s.cmdPort) = .command i rest) :
    fetch s = .run i { s with parser := .idle, cmdPort := rest } := by
  unfold fetch
  rw [hr]
  cases hc : s.cmdPort with
  | nil => exact absurd hc hp
  | cons w ws => rw [hc] at hd; simp [hd]

/-- Everything the fetch can do. -/
theorem fetch_cases (s : State) :
    (s.resetLine = true ∧ fetch s = .resetAsserted) ∨
    (s.resetLine = false ∧ s.cmdPort = [] ∧ fetch s = .waiting s.parser.waiting) ∨
    (s.resetLine = false ∧ s.cmdPort ≠ [] ∧
      ((∃ i rest, decode (s.parser.taken ++ s.cmdPort) = .command i rest ∧
          fetch s = .run i { s with parser := .idle, cmdPort := rest }) ∨
       (∃ cause h rest, decode (s.parser.taken ++ s.cmdPort) = .illegal cause h rest ∧
          fetch s = .illegal cause h { s with parser := .idle, cmdPort := rest }) ∨
       (∃ h need got, decode (s.parser.taken ++ s.cmdPort) = .truncated h need got ∧
          fetch s = .collecting { s with parser := .collect h need got, cmdPort := [] }))) := by
  unfold fetch
  cases hr : s.resetLine with
  | true => exact .inl ⟨rfl, rfl⟩
  | false =>
    refine .inr ?_
    cases hc : s.cmdPort with
    | nil => exact .inl ⟨rfl, rfl, by simp⟩
    | cons w ws =>
      refine .inr ⟨rfl, by simp, ?_⟩
      cases hd : decode (s.parser.taken ++ w :: ws) with
      | command i rest => exact .inl ⟨i, rest, rfl, by simp⟩
      | illegal cause h rest => exact .inr (.inl ⟨cause, h, rest, rfl, by simp⟩)
      | truncated h need got => exact .inr (.inr ⟨h, need, got, rfl, by simp⟩)
      | empty =>
        exfalso
        cases ht : s.parser.taken ++ w :: ws with
        | nil => simp at ht
        | cons v vs =>
          rw [ht] at hd
          simp only [decode] at hd
          split at hd
          · cases hd
          · split at hd <;> cases hd

end Sys2Proof.Machine
end

