-- ==== Sys2Proof/Laws/PerInstr.lean ====
section
/-! SUPPORT. One lemma per command about its packet as syntax (LAWS.json family PacketHeader): the header that the encoder writes for a
well-formed command is legal, spells its opcode, and asks for exactly the operand words that follow. -/

namespace Sys2Proof.Laws.PacketHeader

/-- A well-formed command's header is legal, has its opcode, and its operand count is the number of its operand words (R86, R87, R89). -/
def Statement (i : Sys2Proof.Instr) : Prop :=
  i.wellFormed = true →
    Sys2Proof.decodeHeader i.header = .ok i.op ∧ Sys2Proof.operandCount i.op i.header = i.operands.length

theorem nop : Statement .nop := fun _ => ⟨rfl, rfl⟩

theorem init : Statement .init := fun _ => ⟨rfl, rfl⟩

theorem reset (ch : Sys2Proof.Channel) : Statement (.reset ch) := fun _ => by cases ch <;> exact ⟨rfl, rfl⟩

theorem assign (ch : Sys2Proof.Channel) (c : Sys2Proof.CoefSet Sys2Proof.Word) : Statement (.assign ch c) :=
  fun _ => ⟨Sys2Proof.decodeHeader_assign ch, rfl⟩

theorem process (ch : Sys2Proof.Channel) (x : Sys2Proof.Word) : Statement (.process ch x) :=
  fun _ => ⟨Sys2Proof.decodeHeader_process ch, rfl⟩

theorem compute (k q : Sys2Proof.Word) : Statement (.compute k q) :=
  fun _ => ⟨Sys2Proof.decodeHeader_compute, rfl⟩

theorem broadcast (c : Sys2Proof.CoefSet Sys2Proof.Word) : Statement (.broadcast c) :=
  fun _ => ⟨Sys2Proof.decodeHeader_broadcast, rfl⟩

theorem ctrlSet (idx : BitVec 16) (v : Sys2Proof.Word) : Statement (.ctrlSet idx v) :=
  fun _ => ⟨Sys2Proof.decodeHeader_ctrlSet idx, rfl⟩

theorem block (frames : List Sys2Proof.Frame) : Statement (.block frames) := fun h => by
  have hle : frames.length ≤ Sys2Proof.framesMax := of_decide_eq_true h
  obtain ⟨v, hv⟩ := Sys2Proof.exists_field16 hle
  refine ⟨?_, ?_⟩
  · simpa [Sys2Proof.Instr.header, hv] using Sys2Proof.decodeHeader_block v
  · simp only [Sys2Proof.operandCount, Sys2Proof.Instr.header, Sys2Proof.Instr.operands]
    rw [Sys2Proof.imm16Field_header hle, Sys2Proof.frame_words_length]

theorem readInst (ch : Sys2Proof.Channel) : Statement (.readInst ch) := fun _ => by cases ch <;> exact ⟨rfl, rfl⟩

theorem readCtrl : Statement .readCtrl := fun _ => ⟨rfl, rfl⟩

end Sys2Proof.Laws.PacketHeader
end

