-- ==== Sys2Proof/Laws/Rounding.lean ====
section
/-! SUPPORT. What the one rounding function of the reference arithmetic does (spec/00_scope.md R9): the rounded significand lies within half a
unit of the exact value and is even on a tie; magnitude bits and values go up together; a magnitude read back gives its significand and
exponent; representable values round to themselves; and rounding is monotone. -/

namespace Sys2Proof.Machine

/-! ### One rounding to a whole number -/

/-- The rounded number is within one half, on either side. -/
theorem roundNearestEven_near (num : Nat) {den : Nat} (hd : 0 < den) :
    2 * (roundNearestEven num den * den) ≤ 2 * num + den ∧ 2 * num ≤ 2 * (roundNearestEven num den * den) + den := by
  have hdm := Nat.div_add_mod num den
  have hr := Nat.mod_lt num hd
  have hc : den * (num / den) = num / den * den := Nat.mul_comm _ _
  unfold roundNearestEven
  dsimp only
  split
  · rename_i h
    have : (num / den + 1) * den = num / den * den + den := by ring
    rw [this]; omega
  · rename_i h
    omega

/-- On a tie the rounded number is even. -/
theorem roundNearestEven_tie {num den : Nat} (hd : 0 < den)
    (h : 2 * (roundNearestEven num den * den) = 2 * num + den ∨ 2 * num = 2 * (roundNearestEven num den * den) + den) :
    roundNearestEven num den % 2 = 0 := by
  have hdm := Nat.div_add_mod num den
  have hr := Nat.mod_lt num hd
  have hc : den * (num / den) = num / den * den := Nat.mul_comm _ _
  unfold roundNearestEven at *
  dsimp only at *
  split at h
  · rename_i hcond
    rw [if_pos hcond]
    have e : (num / den + 1) * den = num / den * den + den := by ring
    rw [e] at h
    omega
  · rename_i hcond
    rw [if_neg hcond]
    omega

/-! ### The shift -/

theorem log2_spec {n : Nat} (h : n ≠ 0) : 2 ^ n.log2 ≤ n ∧ n < 2 ^ (n.log2 + 1) :=
  ⟨Nat.log2_self_le h, Nat.lt_log2_self⟩

/-- At most 24 bits stay above the shift. -/
theorem div_lt_roundShift (num den : Nat) : num / den < 2 ^ (roundShift num den + 24) := by
  by_cases h : num / den = 0
  · rw [h]; positivity
  · have h2 := (log2_spec h).2
    refine lt_of_lt_of_le h2 (Nat.pow_le_pow_right (by decide) ?_)
    unfold roundShift; omega

/-- A positive shift leaves exactly 24 bits. -/
theorem roundShift_le_div {num den : Nat} (h : 0 < roundShift num den) : 2 ^ (roundShift num den + 23) ≤ num / den := by
  have h0 : num / den ≠ 0 := by
    intro h0; simp [roundShift, h0] at h
  have h1 := (log2_spec h0).1
  have : roundShift num den + 23 = (num / den).log2 := by unfold roundShift at *; omega
  rw [this]; exact h1

/-- The rounded significand has at most 24 bits, but for a carry to 2^24. -/
theorem significand_le (num : Nat) {den : Nat} (hd : 0 < den) :
    roundNearestEven num (den * 2 ^ roundShift num den) ≤ 2 ^ 24 := by
  apply roundNearestEven_le _ (by positivity)
  have h := div_lt_roundShift num den
  have h1 : num < 2 ^ (roundShift num den + 24) * den := (Nat.div_lt_iff_lt_mul hd).mp h
  calc num ≤ 2 ^ (roundShift num den + 24) * den := h1.le
    _ = 2 ^ 24 * (den * 2 ^ roundShift num den) := by rw [pow_add]; ring

/-- With a positive shift the significand has its leading bit. -/
theorem le_significand {num den : Nat} (hd : 0 < den) (h : 0 < roundShift num den) :
    2 ^ 23 ≤ roundNearestEven num (den * 2 ^ roundShift num den) := by
  apply le_roundNearestEven _ (by positivity)
  have h1 := (Nat.le_div_iff_mul_le hd).mp (roundShift_le_div h)
  calc 2 ^ 23 * (den * 2 ^ roundShift num den) = 2 ^ (roundShift num den + 23) * den := by rw [pow_add]; ring
    _ ≤ num := h1

/-! ### Reading a magnitude back -/

/-- The units of a packed magnitude below infinity: significand times the power of its exponent. -/
theorem fpUnits_packWord (s : Bool) {t n : Nat} (hn : n ≤ 2 ^ 24) (hl : 0 < t → 2 ^ 23 ≤ n)
    (hi : t * 2 ^ 23 + n < infMagnitude) : fpUnits (packWord s (t * 2 ^ 23 + n)) = n * 2 ^ t := by
  have hlt : t * 2 ^ 23 + n < 2 ^ 31 := by unfold infMagnitude at hi; omega
  unfold fpUnits
  rw [fpExponent_packWord hlt, fpFraction_packWord hlt]
  by_cases h23 : n < 2 ^ 23
  · have ht : t = 0 := by by_contra hc; have := hl (by omega); omega
    subst ht
    rw [if_pos (by omega)]
    omega
  · by_cases h24 : n = 2 ^ 24
    · subst h24
      have e1 : (t * 2 ^ 23 + 2 ^ 24) / 2 ^ 23 = t + 2 := by omega
      have e2 : (t * 2 ^ 23 + 2 ^ 24) % 2 ^ 23 = 0 := by omega
      rw [e1, e2, if_neg (by omega), show t + 2 - 1 = t + 1 by omega]
      ring
    · have e1 : (t * 2 ^ 23 + n) / 2 ^ 23 = t + 1 := by omega
      have e2 : 2 ^ 23 + (t * 2 ^ 23 + n) % 2 ^ 23 = n := by omega
      rw [e1, if_neg (by omega), e2, show t + 1 - 1 = t by omega]

/-- The units of a rounded word that does not overflow. -/
theorem fpUnits_roundWord (s : Bool) (num : Nat) {den : Nat} (hd : 0 < den) (h : roundMagnitude num den < infMagnitude) :
    fpUnits (roundWord s num den) = roundNearestEven num (den * 2 ^ roundShift num den) * 2 ^ roundShift num den := by
  rw [roundWord, Nat.min_eq_left h.le]
  unfold roundMagnitude at *
  exact fpUnits_packWord s (significand_le num hd) (fun ht => le_significand hd ht) h

/-- A rounded word is finite exactly when its magnitude stays below infinity. -/
theorem isFinite_roundWord (s : Bool) (num den : Nat) :
    isFinite (roundWord s num den) = decide (roundMagnitude num den < infMagnitude) := by
  have hlt : min (roundMagnitude num den) infMagnitude < 2 ^ 31 := by unfold infMagnitude; omega
  simp only [isFinite, roundWord, fpExponent_packWord hlt]
  congr 1
  apply propext
  unfold infMagnitude
  omega

theorem fpSign_roundWord (s : Bool) (num den : Nat) : fpSign (roundWord s num den) = s := by
  rw [roundWord, fpSign_packWord]
  unfold infMagnitude; omega

/-- A rounded word is never a NaN. -/
theorem isNaN_roundWord (s : Bool) (num den : Nat) : isNaN (roundWord s num den) = false := by
  have hlt : min (roundMagnitude num den) infMagnitude < 2 ^ 31 := by unfold infMagnitude; omega
  simp only [isNaN, roundWord, fpExponent_packWord hlt, fpFraction_packWord hlt, decide_eq_false_iff_not]
  unfold infMagnitude
  omega

/-! ### Bounds -/

/-- A value of at most `n · 2^t` units, with a significand `n` of 24 bits, has magnitude bits of at most `t · 2^23 + n`. -/
theorem roundMagnitude_le {num den n t : Nat} (hd : 0 < den) (hn : n < 2 ^ 24) (hl : 0 < t → 2 ^ 23 ≤ n)
    (h : num ≤ n * 2 ^ t * den) : roundMagnitude num den ≤ t * 2 ^ 23 + n := by
  have hq : num / den ≤ n * 2 ^ t := Nat.div_le_of_le_mul (by rw [Nat.mul_comm]; exact h)
  have hst : roundShift num den ≤ t := by
    by_contra hc
    have h1 := roundShift_le_div (num := num) (den := den) (by omega)
    have h2 : n * 2 ^ t < 2 ^ 24 * 2 ^ t := Nat.mul_lt_mul_of_pos_right hn (by positivity)
    have h3 : 2 ^ 24 * 2 ^ t ≤ 2 ^ (roundShift num den + 23) := by
      rw [← pow_add]; exact Nat.pow_le_pow_right (by decide) (by omega)
    omega
  unfold roundMagnitude
  dsimp only
  rcases Nat.lt_or_eq_of_le hst with hlt | heq
  · have := significand_le num hd
    have h23 := hl (by omega)
    omega
  · rw [heq]
    have : roundNearestEven num (den * 2 ^ t) ≤ n := by
      apply roundNearestEven_le _ (by positivity)
      calc num ≤ n * 2 ^ t * den := h
        _ = n * (den * 2 ^ t) := by ring
    omega

/-- A value of at least `n · 2^t` units has magnitude bits of at least `t · 2^23 + n`. -/
theorem le_roundMagnitude {num den n t : Nat} (hd : 0 < den) (hn : n < 2 ^ 24) (hl : 0 < t → 2 ^ 23 ≤ n)
    (h : n * 2 ^ t * den ≤ num) : t * 2 ^ 23 + n ≤ roundMagnitude num den := by
  have hq : n * 2 ^ t ≤ num / den := (Nat.le_div_iff_mul_le hd).mpr h
  have hst : t ≤ roundShift num den := by
    by_contra hc
    have h1 := div_lt_roundShift num den
    have h2 : 2 ^ 23 * 2 ^ t ≤ n * 2 ^ t := Nat.mul_le_mul_right _ (hl (by omega))
    have h3 : 2 ^ (roundShift num den + 24) ≤ 2 ^ 23 * 2 ^ t := by
      rw [← pow_add]; exact Nat.pow_le_pow_right (by decide) (by omega)
    omega
  unfold roundMagnitude
  dsimp only
  rcases Nat.lt_or_eq_of_le hst with hlt | heq
  · have := le_significand hd (show 0 < roundShift num den by omega)
    omega
  · rw [← heq]
    have : n ≤ roundNearestEven num (den * 2 ^ t) := by
      apply le_roundNearestEven _ (by positivity)
      calc n * (den * 2 ^ t) = n * 2 ^ t * den := by ring
        _ ≤ num := h
    omega

/-- A representable value rounds to itself. -/
theorem roundMagnitude_exact {den n t : Nat} (hd : 0 < den) (hn : n < 2 ^ 24) (hl : 0 < t → 2 ^ 23 ≤ n) :
    roundMagnitude (n * 2 ^ t * den) den = t * 2 ^ 23 + n :=
  le_antisymm (roundMagnitude_le hd hn hl le_rfl) (le_roundMagnitude hd hn hl le_rfl)

end Sys2Proof.Machine
end

