-- ==== Sys2Proof/Machine/Assembler.lean ====
section
/-! DEFINITION. The assembler syntax of spec/30_encoding.md R91 to R93: from a line of text to port words. It belongs to the host, so
`step` never calls it. A text is a list of characters. Log entry 9 names what the rules leave open. -/

namespace Sys2Proof.Machine

/-- A text, character by character. -/
abbrev Text := List Char

/-- Why a line cannot be assembled. -/
inductive AsmError where
  | unknownMnemonic
  | badOperands
  deriving DecidableEq, Repr

/-- White space inside a line. -/
def isBlank (c : Char) : Bool := c == ' ' || c == '\t' || c == '\r'

/-- A text without the white space at its ends. -/
def trimBlank (t : Text) : Text := ((t.dropWhile isBlank).reverse.dropWhile isBlank).reverse

/-- "Comments run from `;` to the end of the line." -/
def dropComment (t : Text) : Text := t.takeWhile (· != ';')

/-- A text cut at every occurrence of a character. -/
def cutAt (sep : Char) : Text → List Text
  | [] => [[]]
  | c :: cs =>
    if c == sep then [] :: cutAt sep cs
    else
      match cutAt sep cs with
      | [] => [[c]]
      | t :: ts => (c :: t) :: ts

/-- The value of a digit in a base up to 16. -/
def digitValue (base : Nat) (c : Char) : Option Nat :=
  let n := c.toNat
  let v := if 48 ≤ n ∧ n ≤ 57 then n - 48
    else if 65 ≤ n ∧ n ≤ 70 then n - 55
    else if 97 ≤ n ∧ n ≤ 102 then n - 87
    else base
  if v < base then some v else none

/-- A row of digits, most significant first, on top of the digits read so far. -/
def readDigits (base : Nat) : Nat → Text → Option Nat
  | acc, [] => some acc
  | acc, c :: cs =>
    match digitValue base c with
    | none => none
    | some d => readDigits base (acc * base + d) cs

/-- An unsigned decimal integer. -/
def readNat (t : Text) : Option Nat := if t.isEmpty then none else readDigits 10 0 t

/-- `w:0xHHHHHHHH`, "taken as bits verbatim" (R92). -/
def readRaw : Text → Option Word
  | 'w' :: ':' :: '0' :: 'x' :: digits =>
    if digits.length = 8 then (readDigits 16 0 digits).map (BitVec.ofNat 32) else none
  | _ => none

/-- An unsigned decimal literal with its sign: whole part, and an optional fraction part after a point. "The assembler rounds it to the
nearest binary32, with ties to even" (R92). -/
def readDecimal (sign : Bool) (t : Text) : Option Word :=
  match cutAt '.' t with
  | [whole] => (readNat whole).map fun n => roundWord sign (n * 2 ^ 149) 1
  | [whole, frac] =>
    match readNat whole, readNat frac with
    | some _, some _ =>
      (readNat (whole ++ frac)).map fun n => roundWord sign (n * 2 ^ 149) (10 ^ frac.length)
    | _, _ => none
  | _ => none

/-- A float operand (R92). -/
def readFloat (t : Text) : Option Word :=
  if t = "+inf".toList then some 0x7F800000
  else if t = "-inf".toList then some 0xFF800000
  else if t = "nan".toList then some 0x7FC00000
  else
    match t with
    | 'w' :: _ => readRaw t
    | '-' :: rest => readDecimal true rest
    | _ => readDecimal false t

/-- A channel operand: "`ch` is 0–3, or `ML`, `MR`, `SL`, `SR`" (R91). -/
def readChannel (t : Text) : Option Channel :=
  if t = "ML".toList then some .mainLeft
  else if t = "MR".toList then some .mainRight
  else if t = "SL".toList then some .subLeft
  else if t = "SR".toList then some .subRight
  else
    match readNat t with
    | some 0 => some .mainLeft
    | some 1 => some .mainRight
    | some 2 => some .subLeft
    | some 3 => some .subRight
    | _ => none

/-- An index operand: "`idx` is 0–65535, or `CUTOFF` (0) or `RESONANCE` (1)" (R91). -/
def readIndex (t : Text) : Option (BitVec 16) :=
  if t = "CUTOFF".toList then some 0
  else if t = "RESONANCE".toList then some 1
  else
    match readNat t with
    | some n => if n ≤ 65535 then some (BitVec.ofNat 16 n) else none
    | none => none

/-- Float operands, all of them or nothing. -/
def readFloats : List Text → Option (List Word)
  | [] => some []
  | t :: ts =>
    match readFloat t, readFloats ts with
    | some w, some ws => some (w :: ws)
    | _, _ => none

/-- A set operand: five float operands. -/
def readSet (ts : List Text) : Option (CoefSet Word) :=
  match readFloats ts with
  | some [f0, f1, f2, b1, b2] => some ⟨f0, f1, f2, b1, b2⟩
  | _ => none

/-- The operands of BLOCK: the frame count, then "exactly `4·frames` words" (R91). -/
def readBlock (ts : List Text) : Option Instr :=
  match ts with
  | [] => none
  | n :: ws =>
    match readNat n, readFloats ws with
    | some k, some ops =>
      if k ≤ framesMax ∧ ops.length = 4 * k then some (.block (framesOf ops)) else none
    | _, _ => none

/-- What a line says. -/
inductive AsmLine where
  | blank
  | command (i : Instr)
  | pseudo (p : Pseudo)
  | raw (w : Word)
  deriving DecidableEq, Repr

/-- A command with its operands (R91), by its mnemonic in upper case; `none` inside when the operands do not fit. The pseudo-commands of
R93 stand beside the core commands. -/
def readCommand (mnemonic : Text) (ops : List Text) : Except AsmError AsmLine :=
  let give (o : Option AsmLine) : Except AsmError AsmLine :=
    match o with
    | some l => .ok l
    | none => .error .badOperands
  if mnemonic = "NOP".toList then give (if ops = [] then some (.command .nop) else none)
  else if mnemonic = "INIT".toList then give (if ops = [] then some (.command .init) else none)
  else if mnemonic = "READ_CTRL".toList then give (if ops = [] then some (.command .readCtrl) else none)
  else if mnemonic = "RESET_ALL".toList then give (if ops = [] then some (.pseudo .resetAll) else none)
  else if mnemonic = "RESET".toList then
    give (match ops with | [c] => (readChannel c).map fun ch => .command (.reset ch) | _ => none)
  else if mnemonic = "READ_INST".toList then
    give (match ops with | [c] => (readChannel c).map fun ch => .command (.readInst ch) | _ => none)
  else if mnemonic = "ASSIGN".toList then
    give (match ops with
      | c :: ws =>
        match readChannel c, readSet ws with
        | some ch, some set => some (.command (.assign ch set))
        | _, _ => none
      | [] => none)
  else if mnemonic = "PROCESS".toList then
    give (match ops with
      | [c, x] =>
        match readChannel c, readFloat x with
        | some ch, some w => some (.command (.process ch w))
        | _, _ => none
      | _ => none)
  else if mnemonic = "COMPUTE".toList then
    give (match readFloats ops with | some [k, q] => some (.command (.compute k q)) | _ => none)
  else if mnemonic = "BROADCAST".toList then give ((readSet ops).map fun set => .command (.broadcast set))
  else if mnemonic = "CTRL_SET".toList then
    give (match ops with
      | [i, v] =>
        match readIndex i, readFloat v with
        | some idx, some w => some (.command (.ctrlSet idx w))
        | _, _ => none
      | _ => none)
  else if mnemonic = "BLOCK".toList then give ((readBlock ops).map .command)
  else if mnemonic = "SET_CUTOFF".toList then
    give (match readFloats ops with | some [v] => some (.pseudo (.setCutoff v)) | _ => none)
  else if mnemonic = "SET_RESONANCE".toList then
    give (match readFloats ops with | some [v] => some (.pseudo (.setResonance v)) | _ => none)
  else if mnemonic = "ASSIGN_ALL".toList then give ((readSet ops).map fun set => .pseudo (.assignAll set))
  else if mnemonic = "FRAME".toList then
    give (match readFloats ops with
      | some [mL, mR, sL, sR] => some (.pseudo (.frame ⟨mL, mR, sL, sR⟩))
      | _ => none)
  else .error .unknownMnemonic

/-- One line (R91). -/
def readLine (line : Text) : Except AsmError AsmLine :=
  let t := trimBlank (dropComment line)
  if t = [] then .ok .blank
  else
    match readRaw t with
    | some w => .ok (.raw w)
    | none =>
      let mnemonic := (t.takeWhile fun c => !isBlank c).map Char.toUpper
      let rest := trimBlank (t.dropWhile fun c => !isBlank c)
      readCommand mnemonic (if rest = [] then [] else (cutAt ',' rest).map trimBlank)

/-- The port words of a line (R91, R93). -/
def AsmLine.words : AsmLine → List Word
  | .blank => []
  | .command i => encode i
  | .pseudo p => p.expand.flatMap encode
  | .raw w => [w]

/-- The port words of lines, in order; the first line that cannot be assembled stops it. -/
def assembleLines : List Text → Except AsmError (List Word)
  | [] => .ok []
  | l :: ls =>
    match readLine l, assembleLines ls with
    | .error e, _ => .error e
    | .ok _, .error e => .error e
    | .ok a, .ok ws => .ok (a.words ++ ws)

/-- The port words of a program text, one command per line (R91). -/
def assemble (program : Text) : Except AsmError (List Word) := assembleLines (cutAt '\n' program)

end Sys2Proof.Machine
end

