-- ==== Sys2Proof/Tests/Slice0.lean ====
section
/-! SUPPORT. Tests of the model, each one step or one function on a small state, with results from spec/95_test_vectors.md or from the encoding
tables; and, for every statement with hypotheses, a witness that meets them. -/

namespace Sys2Proof.Tests

open Sys2Proof Sys2Proof.Machine

/-- A view of the next state of an outcome. -/
def after {α : Type} (o : Host.Outcome State Fault Refusal) (f : State → α) : Option α :=
  match o with
  | .next s => some (f s)
  | .fault _ => none
  | .refused _ => none

/-- The configuration of the spec's reference simulator: a produced NaN is 0x7FC00000 (spec/95_test_vectors.md). -/
def simulator : Config := { referenceConfig with nanOut := .fixed 0x7FC00000 }

/-- Hardware reset in that configuration. -/
def fresh : State := { State.reset with cfg := simulator }

/-- The sets A, B and DEF of spec/95_test_vectors.md. -/
def setA : CoefSet Word := ⟨0x3F000000, 0x3E800000, 0x3E000000, 0xBF000000, 0x3E800000⟩
def setB : CoefSet Word := ⟨0x3E800000, 0x3F000000, 0x3E800000, 0x00000000, 0x3F000000⟩
def setDef : CoefSet Word := ⟨0x3F74E004, 0x3FF4E004, 0x3F74E004, 0x3FF4A21B, 0x3F6A3BDC⟩

/-- Channel 0 with a set and delay values. -/
def withChannel (c : CoefSet Word) (z1 z2 : Word) : State := (fresh.writeCoef .mainLeft c).writeDelay .mainLeft z1 z2

/-- What PROCESS 0 gives: the response words, the delay registers and STATUS. -/
def processView (c : CoefSet Word) (z1 z2 x : Word) : Option (List Word × Word × Word × Word) :=
  after (exec (.process .mainLeft x) (withChannel c z1 z2)) fun s => (s.responses, s.z1 .mainLeft, s.z2 .mainLeft, s.status)

/-! ### WellFormed: the one check, and an ill-formed term it refuses -/

/-- 65536 frames do not fit the 16-bit field FRAMES (R85). -/
theorem test_too_many_frames_ill_formed (fs : List Frame) (h : fs.length = 65536) : (Instr.block fs).wellFormed = false := by
  simp [Instr.wellFormed, framesMax, h]

/-- 65535 frames do. -/
theorem test_most_frames_well_formed (fs : List Frame) (h : fs.length = 65535) : (Instr.block fs).wellFormed = true := by
  simp [Instr.wellFormed, framesMax, h]

/-- There are such lists of frames. -/
theorem test_frame_lists_exist (n : Nat) : ∃ fs : List Frame, fs.length = n := ⟨List.replicate n ⟨0, 0, 0, 0⟩, List.length_replicate⟩

/-! ### Decoding: each command's header written bit by bit as OPC, RSV, CH, IMM16 (R80, R81, R89) -/

theorem test_decode_nop : decode [0b00000000_000000_00_0000000000000000] = .command .nop [] := by decide
theorem test_decode_init : decode [0b00000001_000000_00_0000000000000000] = .command .init [] := by decide
theorem test_decode_reset : decode [0b00000010_000000_10_0000000000000000] = .command (.reset .subLeft) [] := by decide
theorem test_decode_assign :
    decode [0b00000011_000000_01_0000000000000000, 1, 2, 3, 4, 5, 6] = .command (.assign .mainRight ⟨1, 2, 3, 4, 5⟩) [6] := by
  decide
theorem test_decode_process :
    decode [0b00000100_000000_11_0000000000000000, 0x80000000] = .command (.process .subRight 0x80000000) [] := by decide
theorem test_decode_compute : decode [0b00000101_000000_00_0000000000000000, 1, 2] = .command (.compute 1 2) [] := by decide
theorem test_decode_broadcast :
    decode [0b00000110_000000_00_0000000000000000, 1, 2, 3, 4, 5] = .command (.broadcast ⟨1, 2, 3, 4, 5⟩) [] := by decide
theorem test_decode_ctrl_set :
    decode [0b00000111_000000_00_1000000000000001, 9] = .command (.ctrlSet 0x8001 9) [] := by decide
theorem test_decode_block :
    decode [0b00001000_000000_00_0000000000000010, 1, 2, 3, 4, 5, 6, 7, 8] = .command (.block [⟨1, 2, 3, 4⟩, ⟨5, 6, 7, 8⟩]) [] := by
  decide
theorem test_decode_read_inst : decode [0b00001001_000000_00_0000000000000000] = .command (.readInst .mainLeft) [] := by decide
theorem test_decode_read_ctrl : decode [0b00001010_000000_00_0000000000000000] = .command .readCtrl [] := by decide

/-- A reserved bit, an unknown opcode, and both at once (section 8: "code 1 wins"). -/
theorem test_decode_illegal :
    decode [0x04040000, 7] = .illegal .reservedBits 0x04040000 [7] ∧
    decode [0x0B000000] = .illegal .unknownOpcode 0x0B000000 [] ∧
    decode [0xFF3FFFFF] = .illegal .unknownOpcode 0xFF3FFFFF [] := by decide

/-- A table word, with operand words of zeros above it. -/
theorem test_decode_table_word : decodeTableWord 32 0x03020000 = some (.assign .subLeft ⟨0, 0, 0, 0, 0⟩) := by decide

/-! ### Arithmetic (R9 and spec/95_test_vectors.md section 3) -/

/-- Ties to even at the smallest subnormal: 2^-149 · 0.5 is +0 (R143), and 1.5 of it is 2. -/
theorem test_mul_subnormal_ties : refMul 0x00000001 0x3F000000 = some 0x00000000 ∧ refMul 0x00000001 0x3FC00000 = some 0x00000002 := by
  decide +kernel

/-- 1/3 rounds up in its last place, as R116's example shows. -/
theorem test_div_third : refDiv 0x3F800000 0x40400000 = some 0x3EAAAAAB := by decide +kernel

/-- The largest finite word doubled overflows to infinity. -/
theorem test_add_overflow : refAdd 0x7F7FFFFF 0x7F7FFFFF = some 0x7F800000 := by decide +kernel

/-- Half a unit in the last place more than the largest finite word is a tie, and it rounds up to infinity; anything less does not. -/
theorem test_add_overflow_tie : refAdd 0x7F7FFFFF 0x73000000 = some 0x7F800000 ∧ refAdd 0x7F7FFFFF 0x72FFFFFF = some 0x7F7FFFFF := by
  decide +kernel

/-- The clamp vectors of section 2.1 at the bounds. -/
theorem test_clamp_edges :
    clampK simulator 0x3B4DE35A = 0x3B4DE35B ∧ clampK simulator 0x41FE907B = 0x41FE907B ∧
    clampQ simulator 0x80000000 = 0x3F3504F3 ∧ clampQ simulator 0x7F800000 = 0x413504F3 := by decide +kernel

/-! ### Commands -/

/-- The corner (KMIN, QMAX) of section 2.2, from a −Inf and a +Inf operand. -/
theorem test_compute_clamped_corner :
    after (exec (.compute 0xFF800000 0x7F800000) fresh) (fun s => (s.responses, s.status)) =
      some ([0x372589BA, 0x37A589BA, 0x372589BA, 0xBFFFEC83, 0x3F7FDB9D], 0) := by decide +kernel

/-- R116's example. -/
theorem test_compute_one_one :
    after (exec (.compute 0x3F800000 0x3F800000) State.reset) (·.responses) =
      some [0x3EAAAAAB, 0x3F2AAAAB, 0x3EAAAAAB, 0x00000000, 0x3EAAAAAB] := by decide +kernel

/-- Row 4 of section 3.1: the old Z2 goes into the new Z1, and the new Z2 comes from `acc` alone. -/
theorem test_process_set_a :
    processView setA 0xBD800000 0x00000000 0 = some ([0xBD800000], 0xBD000000, 0x3C800000, 0) := by decide +kernel

/-- Row 2 of section 3.3: overflow, then 0·Inf, and NF. -/
theorem test_process_overflow :
    processView ⟨0x3F800000, 0, 0, 0, 0⟩ 0x7F7FFFFF 0 0x7F7FFFFF = some ([0x7F800000], 0x7FC00000, 0x7FC00000, 8) := by
  decide +kernel

/-- R144's example: RESET 2 clears that channel and keeps its coefficients. -/
theorem test_reset_one_channel :
    after (exec (.reset .subLeft) ((fresh.writeCoef .subLeft setB).writeDelay .subLeft 0x3F000000 0xBE000000))
      (fun s => (s.z1 .subLeft, s.z2 .subLeft, s.coef .subLeft)) = some (0, 0, setB) := by decide +kernel

/-- Section 4: ASSIGN 3 of a NaN stores it verbatim and sets NF; channel 0 is as it was. -/
theorem test_assign_nan :
    after (exec (.assign .subRight ⟨0x7FC00001, 0, 0, 0, 0⟩) (withChannel setA 1 2))
      (fun s => ((s.coef .subRight).f0, s.coef .mainLeft, s.z1 .mainLeft, s.nonFinite)) =
      some (0x7FC00001, setA, 1, true) := by decide +kernel

/-- Section 4: BROADCAST loads all four and keeps the delays. -/
theorem test_broadcast_keeps_delays :
    after (exec (.broadcast setB) (withChannel setA 5 6))
      (fun s => (s.coef .mainLeft, s.coef .subRight, s.z1 .mainLeft, s.z2 .mainLeft, s.status)) =
      some (setB, setB, 5, 6, 0) := by decide +kernel

/-- Section 5.1: a write of the value held still sets DIRTY. -/
theorem test_ctrl_set_same_value :
    after (exec (.ctrlSet 1 0x3F3504F3) { fresh with pQ := 0x3F3504F3, status := 2 }) (fun s => (s.pK, s.pQ, s.status)) =
      some (0, 0x3F3504F3, 3) := by decide +kernel

/-- Section 5.1: index 65535 changes nothing, NF neither. -/
theorem test_ctrl_set_ignored : after (exec (.ctrlSet 65535 0x7FC00000) fresh) id = some fresh := by decide +kernel

/-- Section 5.2: BLOCK commits CALC(1, 1) first and then processes. -/
theorem test_block_commits :
    after (exec (.block [⟨0x3F800000, 0, 0, 0⟩]) { fresh with pK := 0x3F800000, pQ := 0x3F800000, status := 3 })
      (fun s => (s.responses, s.z1 .mainLeft, s.z2 .mainLeft, s.status)) =
      some ([0x3EAAAAAB, 0, 0, 0], 0x3F2AAAAB, 0x3E638E39, 2) := by decide +kernel

/-- Section 5.2: BLOCK 0 with DIRTY = 0 changes no state at all. -/
theorem test_block_empty : after (exec (.block []) (withChannel setA 1 2)) id = some (withChannel setA 1 2) := by decide +kernel

/-- Section 5.3: INIT keeps ERR and ERRCODE, clears DIRTY, and loads DEF. -/
theorem test_init_keeps_error :
    after (exec .init ({ fresh with status := 0x17, pK := 0x3F800000 }.writeDelay .mainRight 0x3F000000 0))
      (fun s => (s.pK, s.pQ, s.status, s.coef .subLeft, s.z1 .mainRight)) =
      some (0x41FE907B, 0x3F3504F3, 0x16, setDef, 0) := by decide +kernel

/-- R113: the fallback of a design is itself a stable low-pass set, a stable set stays, and an unstable one (b2 = 1) does not. -/
theorem test_low_pass_sets :
    asLowPass ⟨0x3F800000, 0, 0, 0, 0x3F800000⟩ = ⟨0x3E800000, 0x3F000000, 0x3E800000, 0, 0⟩ ∧
    lowPassSet ⟨0x3E800000, 0x3F000000, 0x3E800000, 0, 0⟩ = true ∧ asLowPass setDef = setDef := by decide +kernel

/-- At k = 1, `z⁻¹ = −i`, so (1/4, 1/2, 1/4, 0, 0) has the gain 1/2 there; R116's set for q = 1 has the gain 1 but for its rounding. -/
theorem test_gain_at_cutoff :
    gainDen ⟨0x3E800000, 0x3F000000, 0x3E800000, 0, 0⟩ 0x3F800000 = 4 * gainNum ⟨0x3E800000, 0x3F000000, 0x3E800000, 0, 0⟩ 0x3F800000 ∧
    let third : CoefSet Word := ⟨0x3EAAAAAB, 0x3F2AAAAB, 0x3EAAAAAB, 0x00000000, 0x3EAAAAAB⟩
    |gainNum third 0x3F800000 - gainDen third 0x3F800000| * 2 ^ 22 < gainDen third 0x3F800000 := by decide +kernel

/-- One set for every k and q is no sound design: in the reference domain it fails on k = K_MIN against k = K_MAX, and on q = Q_MIN against 2·Q_MIN. -/
theorem test_constant_design_fails :
    let c : CoefSet Word := ⟨0x3E800000, 0x3F000000, 0x3E800000, 0, 0⟩
    inDomain simulator 0x3B4DE35B 0x3F3504F3 = true ∧ inDomain simulator 0x41FE907B 0x3FB504F3 = true ∧
    2 * fpValue 0x3F3504F3 ≤ fpValue 0x3FB504F3 ∧
    gainAtMostTwice c 0x3B4DE35B c 0x41FE907B = false ∧ gainBelow c 0x3B4DE35B c 0x3B4DE35B = false := by decide +kernel

/-- A flat first-order set whose gain is q has no stop band: at k = K_MIN it fails at twice k. The set of R116 for (1, 1) passes at 1/2 and
stops at 2 and at 1024. -/
theorem test_flat_design_fails :
    stopsAt ⟨0x3F3504F3, 0x3A800000, 0, 0, 0⟩ 0x3B4DE35B 0x3BCDE35B = false ∧
    let third : CoefSet Word := ⟨0x3EAAAAAB, 0x3F2AAAAB, 0x3EAAAAAB, 0x00000000, 0x3EAAAAAB⟩
    passesAt third 0x3F800000 0x3F800000 0x3F000000 = true ∧ stopsAt third 0x3F800000 0x40000000 = true ∧
    stopsAt third 0x3F800000 0x44800000 = true ∧ stopsAt third 0x3F000000 0x3F800000 = false := by decide +kernel

/-- Why R113's rise is asked of words up to rounding: the reference's own gain at k falls between these two q, by less than one part in 32. -/
theorem test_reference_gain_falls_by_rounding :
    let c := calculator simulator 0x3B4F0ADA 0x4135010B
    let c' := calculator simulator 0x3B4F0ADA 0x41350350
    fpValue 0x4135010B < fpValue 0x41350350 ∧ inDomain simulator 0x3B4F0ADA 0x4135010B = true ∧
    inDomain simulator 0x3B4F0ADA 0x41350350 = true ∧
    gainBelow c' 0x3B4F0ADA c 0x3B4F0ADA = true ∧ gainNotAbove c 0x3B4F0ADA c' 0x3B4F0ADA = true := by decide +kernel

/-- A design that gives q = 1 the set of q = 1.3 and q = 1.9 that of q = 0.8 does not rise. -/
theorem test_falling_design_fails :
    gainNotAbove (calculator simulator 0x3F800000 0x3FA66666) 0x3F800000 (calculator simulator 0x3F800000 0x3F4CCCCD) 0x3F800000 = false ∧
    stopsAt ⟨0x3F800000, 0, 0, 0, 0⟩ 0x44FA0000 0x457A0000 = false := by decide +kernel

/-- A design whose own cutoff and Q wander with q (0.75·k and 1000 for the smaller q, k and 8 for the larger, at k = 1): its gain at k rises, but its
peak falls, and far in the stop band the two differ by more than a factor of 2, so it is no sound design. -/
theorem test_wandering_peak_fails :
    let c := referenceDesign simulator 0x3F400000 0x447A0000
    let c' := referenceDesign simulator 0x3F800000 0x41000000
    gainBelow c 0x3F800000 c' 0x3F800000 = true ∧ gainNotAbove c 0x3F400000 c' 0x3F800000 = false ∧
    isBeyond 4 0x3F800000 0x40800000 = true ∧
    ¬ relNum c' 0x40800000 * relDen c 0x40800000 ≤ 2 * relNum c 0x40800000 * relDen c' 0x40800000 := by decide +kernel

/-- K_MIN = 1e20: above K_MAX the bounds are not in their own domain; below it, eight times K_MAX (1e38) is no float word, or R114 gives a NaN. -/
theorem test_absurd_bounds_fail :
    inDomain { simulator with kMin := 0x60AD78EC } 0x60AD78EC 0x3F3504F3 = false ∧
    ¬ 8 * fpValue 0x7E967699 ≤ fpValue 0x7F7FFFFF ∧
    isFinite (referenceDesign simulator 0x60AD78EC 0x3F3504F3).f0 = false := by decide +kernel

theorem test_nop : after (exec .nop (withChannel setA 1 2)) id = some (withChannel setA 1 2) := by decide +kernel

/-- R201: seven words in order. -/
theorem test_read_inst :
    after (exec (.readInst .mainLeft) (withChannel ⟨1, 2, 3, 4, 5⟩ 6 7)) (fun s => (s.responses, s.status)) =
      some ([1, 2, 3, 4, 5, 6, 7], 0) := by decide +kernel

/-- R202's example. -/
theorem test_read_ctrl :
    after (exec .readCtrl { fresh with pK := 0x3F800000, pQ := 0x3F3504F3, status := 3 }) (·.responses) =
      some [0x3F800000, 0x3F3504F3, 0x00000003, 0x00000000] := by decide +kernel

/-! ### Steps and errors -/

/-- Section 8, the error sequence: the first error is kept. -/
theorem test_first_error_kept :
    after (step ({ fresh with status := 2 }.hostWrite [0x0B000000, 1])) (fun s => (s.status, s.errInfo, s.cmdPort)) =
      some (0x16, 0x0B000000, [1]) ∧
    after (step ({ fresh with status := 0x16, errInfo := 0x0B000000 }.hostWrite [1])) (fun s => (s.status, s.errInfo)) =
      some (0x16, 0x0B000000) := by decide +kernel

/-- Program P5: a truncated ASSIGN is collected. -/
theorem test_partial_packet :
    after (step (fresh.hostWrite [0x03020000, 0x3F800000, 0, 0])) (fun s => (s.parser, s.cmdPort)) =
      some (.collect 0x03020000 5 [0x3F800000, 0, 0], []) := by decide +kernel

/-- P5 continued: READ_CTRL and NOP become operands. -/
theorem test_partial_packet_ends :
    after (step { fresh with parser := .collect 0x03020000 5 [0x3F800000, 0, 0], cmdPort := [0x0A000000, 0] })
      (fun s => (s.coef .subLeft, s.parser, s.responses, s.nonFinite)) =
      some (⟨0x3F800000, 0, 0, 0x0A000000, 0⟩, .idle, [], false) := by decide +kernel

/-- Hardware reset in mid-packet (R250). -/
theorem test_hardware_reset :
    after (step { (withChannel setA 1 2).assertReset with parser := .collect 0x03020000 5 [1], responses := [9], status := 0x1F }) id =
      some fresh := by decide +kernel

/-- STATUS words that the decoder of STATUS words refuses (I12, I13). -/
theorem test_status_refused : decodeStatus 0x00000034 = none ∧ decodeStatus 0x00000100 = none ∧
    decodeStatus 0x00000016 = some ⟨false, true, true, false, some .unknownOpcode⟩ := by decide

/-- R62: the first byte of a little-endian transport is bits 7:0. -/
theorem test_bytes_little : wordOfBytes .little 0x01 0x02 0x03 0x04 = 0x04030201 := by decide

/-! ### The assembler (R91 to R93) -/

theorem test_assemble_line :
    assemble "assign SR, 0.5, 0.25, -0.5, +inf, w:0x0A000000 ; set".toList =
      .ok [0x03030000, 0x3F000000, 0x3E800000, 0xBF000000, 0x7F800000, 0x0A000000] := by decide +kernel

/-- R92: `0.70710677` is 1/√2 in binary32, and `-0.0` is 0x80000000. -/
theorem test_assemble_decimal :
    readFloat "0.70710677".toList = some 0x3F3504F3 ∧ readFloat "-0.0".toList = some 0x80000000 := by decide +kernel

theorem test_assemble_block_length : readLine "BLOCK 1, 0, 0, 0".toList = .error .badOperands := by decide +kernel

/-- R18: interleaved buffers to frames, and the responses back. -/
theorem test_buffers : framesOfBuffers [1, 2, 5, 6] [3, 4, 7, 8] = [⟨1, 2, 3, 4⟩, ⟨5, 6, 7, 8⟩] ∧
    buffersOfResponses [1, 2, 3, 4, 5, 6, 7, 8] = ([1, 2, 5, 6], [3, 4, 7, 8]) := by decide

/-! ### Witnesses: for each statement with hypotheses, a state and operands that meet them all, clause by clause -/

/-- A state with ERR set, and one with DIRTY set. -/
def erred : State := { fresh with status := 0x16, errInfo := 0x0B000000 }
def dirtied : State := { fresh with pK := 0x3F800000, pQ := 0x3F800000, status := 3 }

theorem witness_NopChangesNothing :
    opcField 0x00FFFFFF = 0 ∧ (0x00FFFFFF : Word) ≠ 0 ∧ opcField 0x00000001 = 0 ∧
    (fresh.hostWrite [0, 7]).resetLine = false ∧ (fresh.hostWrite [0, 7]).parser = .idle ∧ (fresh.hostWrite [0, 7]).cmdPort = 0 :: [7] ∧
    ([] : List Word).length + 1 < 2 := by decide

theorem witness_other_channel : Channel.subRight ≠ Channel.mainLeft ∧ Channel.mainRight ≠ Channel.mainLeft := by decide

theorem witness_ComputeExposesTheCalculator : State.reset.cfg.design = .bilinear ∧ fresh.cfg.design = .bilinear := by decide

theorem witness_ReadCtrlReturnsParametersAndStatus : ReservedClear fresh ∧ ReservedClear { fresh with status := 0xFF } := by
  unfold ReservedClear; decide

theorem witness_HeaderSpellsExactlyOneRow :
    (⟨.reset, 0x02000000, 0xFFFCFFFF⟩ : OpRow) ∈ opTable ∧ (0x02030000 : Word) &&& 0xFFFCFFFF = 0x02000000 ∧
    (⟨.block, 0x08000000, 0xFFFF0000⟩ : OpRow) ∈ opTable ∧ (0x0800FFFF : Word) &&& 0xFFFF0000 = 0x08000000 := by decide

theorem witness_DecodeReadsBackEveryEncodedCommand :
    (Instr.block []).wellFormed = true ∧ (Instr.block [⟨1, 2, 3, 4⟩]).wellFormed = true ∧ (Instr.ctrlSet 0xFFFF 1).wellFormed = true := by
  decide

theorem witness_DecodedWordsAreTheEncodingOfTheCommand : decode [0x08000000, 7] = .command (.block []) [7] := by decide

theorem witness_StepRunsTheDecodedCommand :
    (State.reset.hostWrite [0x00000000]).resetLine = false ∧ (State.reset.hostWrite [0x00000000]).parser = .idle ∧
    (State.reset.hostWrite [0x00000000]).cmdPort = encode .nop ++ [] ∧ Instr.nop.wellFormed = true := by decide

/-- The second clause, from COLLECT. -/
theorem witness_StepRunsTheDecodedCommand_collect :
    let s : State := { fresh with parser := .collect 0x07000000 1 [], cmdPort := [9] }
    s.resetLine = false ∧ s.cmdPort ≠ [] ∧ decode (s.parser.taken ++ s.cmdPort) = .command (.ctrlSet 0 9) [] := by decide

/-- Both cases of the error record, and both causes. -/
theorem witness_IllegalHeaderTakesTheErrorAction :
    (fresh.hostWrite [0x0B000000]).resetLine = false ∧ (fresh.hostWrite [0x0B000000]).cmdPort = 0x0B000000 :: [] ∧
    decodeHeader 0x0B000000 = .error .unknownOpcode ∧ (fresh.hostWrite [0x0B000000]).err = false ∧
    (erred.hostWrite [1]).resetLine = false ∧ (erred.hostWrite [1]).cmdPort = 1 :: [] ∧ decodeHeader 1 = .error .reservedBits ∧
    (erred.hostWrite [1]).err = true ∧ (fresh.hostWrite [0x0B000000]).parser = .idle ∧ (erred.hostWrite [1]).parser = .idle := by decide

theorem witness_PartialPacketWaitsForItsRest :
    (fresh.hostWrite [0x05000000, 1]).resetLine = false ∧ (fresh.hostWrite [0x05000000, 1]).parser = .idle ∧
    (Instr.compute 1 2).wellFormed = true ∧ encode (.compute 1 2) = [0x05000000, 1] ++ [2] ∧
    (fresh.hostWrite [0x05000000, 1]).cmdPort = [0x05000000, 1] := by decide

theorem witness_WordSerialAndPacketStepsAgree :
    fresh.parser = .idle ∧ (Instr.process .subRight 1).wellFormed = true ∧
    (fresh.hostWrite [0x04030000, 1, 0]).cmdPort = encode (.process .subRight 1) ++ [0] ∧
    (fresh.hostWrite [0x04030000, 1, 0]).resetLine = false ∧ (fresh.hostWrite [0x04030000, 1, 0]).parser = .idle ∧
    (fresh.hostWrite [0x05000000, 1]).cmdPort = [0x05000000, 1] ∧ encode (.compute 1 2) = [0x05000000, 1] ++ [2] ∧
    (fresh.hostWrite [0x04040000]).cmdPort = 0x04040000 :: [] ∧ decodeHeader 0x04040000 = .error .reservedBits := by decide

/-- The clause from COLLECT, with too few words, just enough, and too many. -/
theorem witness_WordSerialAndPacketStepsAgree_collect (ws : List Word) :
    let s : State := { fresh with parser := .collect 0x05000000 2 [1], cmdPort := ws }
    s.resetLine = false ∧ s.parser = .collect 0x05000000 2 [1] ∧ ParserSound s.parser :=
  ⟨by rfl, by rfl, .compute, by decide, by decide, by decide⟩

theorem witness_StepStopsOnlyForWantOfWords :
    (fresh.resetLine = false ∧ fresh.cmdPort = []) ∧ fresh.assertReset.resetLine = true ∧ (fresh.hostWrite [0]).cmdPort ≠ [] := by decide

theorem witness_HardwareResetGivesTheResetValues : erred.assertReset.resetLine = true := by decide

theorem witness_Inv : Inv State.reset ∧ Inv erred := by
  have h (s : State) (hb : s.bank = State.reset.bank) : AllFinite s := by
    intro ch
    simp only [State.coef, State.z1, State.z2, hb]
    cases ch <;> decide
  exact ⟨⟨by unfold ReservedClear; decide, by unfold ErrorRecord; simp [show State.reset.err = false by decide]; decide, trivial, fun _ => h _ rfl⟩,
    ⟨by unfold ReservedClear; decide,
      by unfold ErrorRecord; rw [if_pos (by decide)]; exact ⟨.unknownOpcode, by decide, by decide⟩, trivial, fun _ => h _ rfl⟩⟩

/-- With `witness_Inv`: a sound state that has a next state. -/
theorem witness_EveryStepKeepsTheInvariant : ∃ t, step State.reset.assertReset = .next t ∧ Inv State.reset.assertReset :=
  ⟨_, rfl, ⟨witness_Inv.1.1, witness_Inv.1.2, witness_Inv.1.3, witness_Inv.1.4⟩⟩

theorem witness_ResponseQueueIsFirstInFirstOut :
    (∃ t, (fresh.hostWrite [0]).resetLine = false ∧ step (fresh.hostWrite [0]) = .next t) ∧ fresh.responses = [] ∧
    (fresh.respond [1, 2]).responses = 1 :: [2] := ⟨⟨_, rfl, rfl⟩, by decide, by decide⟩

theorem witness_HostReadsDisturbNothing :
    fresh.resetLine = false ∧ Event.assertReset ∉ [Event.hostWrite [0x0A000000], .coreStep, .hostRead, .coreStep] := by decide

theorem witness_NoStepChangesTheConfiguration : ∃ t, step (fresh.hostWrite [0]) = .next t := ⟨_, rfl⟩

theorem witness_OnlyTheNamedCommandsWriteCoefficients :
    ∃ t, exec (.assign .mainRight setA) fresh = .next t ∧ t.coef .mainRight ≠ fresh.coef .mainRight := ⟨_, rfl, by decide +kernel⟩

theorem witness_OnlyTheNamedCommandsWriteDelays :
    ∃ t, exec (.reset .mainLeft) (withChannel setA 1 2) = .next t ∧
      (t.z1 .mainLeft ≠ (withChannel setA 1 2).z1 .mainLeft ∨ t.z2 .mainLeft ≠ (withChannel setA 1 2).z2 .mainLeft) :=
  ⟨_, rfl, by decide +kernel⟩

/-- The inner hypotheses: each control parameter written, DIRTY set, DIRTY cleared. -/
theorem witness_OnlyTheNamedCommandsWriteControlState :
    (∃ t, exec (.ctrlSet 0 5) fresh = .next t ∧ t.pK ≠ fresh.pK ∧ t.dirty = true ∧ fresh.dirty = false) ∧
    (∃ t, exec (.ctrlSet 1 5) fresh = .next t ∧ t.pQ ≠ fresh.pQ) ∧
    ∃ t, exec (.block []) dirtied = .next t ∧ t.dirty = false ∧ dirtied.dirty = true :=
  ⟨⟨_, rfl, by decide +kernel⟩, ⟨_, rfl, by decide +kernel⟩, ⟨_, rfl, by decide +kernel⟩⟩

theorem witness_NonFiniteFlagIsStickyAndExact :
    (∃ t, exec .nop { fresh with status := 8 } = .next t ∧ State.nonFinite { fresh with status := 8 } = true) ∧
    (∃ t, exec (.broadcast setA) fresh = .next t) ∧ (∃ t, exec (.assign .subLeft setA) fresh = .next t) ∧
    (∃ t, exec (.compute 1 2) fresh = .next t) ∧
    ∃ t, exec (.block [⟨0, 0, 0, 0⟩]) fresh = .next t ∧ t.responses = fresh.responses ++ [0, 0, 0, 0] ∧ t.nonFinite = false :=
  ⟨⟨_, rfl, by decide +kernel⟩, ⟨_, rfl⟩, ⟨_, rfl⟩, ⟨_, rfl⟩, ⟨_, rfl, by decide +kernel⟩⟩

theorem witness_NonFiniteFlagChangesNoResult : Instr.init ≠ Instr.readCtrl ∧ Instr.block [] ≠ Instr.readCtrl := by decide

theorem witness_CoherenceHoldsUntilAnAssign :
    (∃ t, exec (.block []) dirtied = .next t ∧ dirtied.dirty = true) ∧ (∃ t, exec .init fresh = .next t) ∧
    Coherent State.reset.assertReset ∧ (∀ ch c s', fetch State.reset.assertReset ≠ .run (.assign ch c) s') ∧
    ∃ t, step State.reset.assertReset = .next t :=
  ⟨⟨_, rfl, by decide⟩, ⟨_, rfl⟩, fun ch => by cases ch <;> rfl, fun _ _ _ => nofun, ⟨_, rfl⟩⟩

theorem witness_AtMostOneRecomputePerBlock :
    (∀ i ∈ [Instr.ctrlSet 0 1, .ctrlSet 7 2], ∃ idx v, i = .ctrlSet idx v) ∧
    (∀ i ∈ [Instr.process .mainLeft 1, .ctrlSet 2 0], i ≠ .init ∧ updatesControl i = false) := by
  constructor
  · intro i hi
    simp only [List.mem_cons, List.not_mem_nil, or_false] at hi
    rcases hi with rfl | rfl <;> exact ⟨_, _, rfl⟩
  · decide

theorem witness_SilenceInGivesSilenceOut :
    (withChannel setA 1 2).cfg.fp = .binary32 ∧ ((withChannel setA 1 2).coef .mainLeft).words.all isFinite = true ∧
    [(0x80000000 : Word), 0].all isZero = true := by decide +kernel

/-- The BLOCK clause, without and with a commit; the other channels' samples and delays are not zero. -/
theorem witness_SilenceInGivesSilenceOut_block :
    (if (withChannel setA 1 2).dirty then calculator simulator 0 0 else (withChannel setA 1 2).coef .mainLeft).words.all isFinite = true ∧
    dirtied.dirty = true ∧ dirtied.cfg.fp = .binary32 ∧ (calculator dirtied.cfg dirtied.pK dirtied.pQ).words.all isFinite = true ∧
    ([(⟨0x80000000, 1, 2, 3⟩ : Frame), ⟨0, 0x7FC00000, 2, 3⟩].map (frameSample · .mainLeft)).all isZero = true := by decide +kernel

theorem witness_CoefficientSwapKeepsTheDelays :
    (Instr.assign .mainLeft setB = .assign .mainLeft setB ∨ Instr.assign .mainLeft setB = .broadcast setB) ∧
    (Instr.broadcast setB = .assign .mainLeft setB ∨ Instr.broadcast setB = .broadcast setB) := by decide

/-- Two states and two blocks that agree on channel 0 alone. -/
theorem witness_ChannelsDoNotInterfere :
    let s := withChannel setA 1 2
    let s' := (withChannel setA 1 2).writeCoef .subRight setB
    s.z1 .mainLeft = s'.z1 .mainLeft ∧ s.z2 .mainLeft = s'.z2 .mainLeft ∧ s.coef .mainLeft = s'.coef .mainLeft ∧ s.bank ≠ s'.bank ∧
    s.cfg = s'.cfg ∧ s.nanDraws = s'.nanDraws ∧ s.dirty = false ∧ s'.dirty = false ∧
    [(⟨1, 2, 3, 4⟩ : Frame)].map (frameSample · .mainLeft) = [(⟨1, 9, 9, 9⟩ : Frame)].map (frameSample · .mainLeft) := by
  decide +kernel

/-- A committing BLOCK: other coefficients on the channel itself, the same P_K and P_Q. -/
theorem witness_ChannelsDoNotInterfere_commit :
    let s' := dirtied.writeCoef .mainLeft setB
    dirtied.z1 .mainLeft = s'.z1 .mainLeft ∧ dirtied.z2 .mainLeft = s'.z2 .mainLeft ∧ dirtied.cfg = s'.cfg ∧
    dirtied.nanDraws = s'.nanDraws ∧ dirtied.dirty = true ∧ s'.dirty = true ∧ dirtied.pK = s'.pK ∧ dirtied.pQ = s'.pQ ∧
    ∃ t t', exec (.block []) dirtied = .next t ∧ exec (.block []) s' = .next t' := by
  refine ⟨by decide, by decide, by decide, by decide, by decide, by decide, by decide, by decide, ⟨_, _, rfl, rfl⟩⟩

theorem witness_ChannelsDoNotInterfere_runs :
    (∃ t, exec (.block [⟨1, 2, 3, 4⟩]) (withChannel setA 1 2) = .next t) ∧
    ∃ t, exec (.block [⟨1, 9, 9, 9⟩]) ((withChannel setA 1 2).writeCoef .subRight setB) = .next t := ⟨⟨_, rfl⟩, ⟨_, rfl⟩⟩

theorem witness_NaNStaysInAChannel :
    fresh.cfg.fp = .binary32 ∧ isNaN 0x7F800001 = true ∧ isNaN ((withChannel setA 0xFFFFFFFF 2).z1 .mainLeft) = true := by decide +kernel

/-- The second clause: a NaN in Z2 alone. -/
theorem witness_NaNStaysInAChannel_second_delay :
    isNaN ((withChannel setA 0 0x7FC00000).z2 .mainLeft) = true ∧ isNaN ((withChannel setA 0 0x7FC00000).z1 .mainLeft) = false := by decide +kernel

theorem witness_InitPrecedesEveryBlock :
    initBeforeBlock fresh.initDone ([.init, .reset .mainLeft] ++ .block [] :: [.reset .mainLeft, .block []]) = true ∧
    hostContract false false [.init, .block [], .nop] = true ∧ ∃ t, execAll [.init, .reset .mainLeft] fresh = .next t :=
  ⟨by decide, by decide, ⟨_, rfl⟩⟩

theorem witness_SpecialCasesOfThePrimitives :
    isZero 0x80000000 = true ∧ isInfinite 0x7F800000 = true ∧ isZero 0x3F800000 = false ∧ isNaN 0x3F800000 = false ∧
    isNaN 0x7FC00000 = true ∧ isFinite 0x7F7FFFFF = true ∧ isFinite 0x3F800000 = true ∧
    fpValue 0x80000000 = fpValue 0x00000000 ∧ fpValue 0x3F800000 ≠ fpValue 0xBF800000 ∧
    fpValue 0x3F800000 + fpValue 0xBF800000 = 0 ∧ fpValue 0x3F800000 + fpValue 0x3F800000 ≠ 0 := by decide +kernel

/-- The overflow clause at its bound. -/
theorem witness_SpecialCasesOfThePrimitives_overflow :
    isFinite 0x7F7FFFFF = true ∧ isFinite 0x73000000 = true ∧ overflowUnits ≤ |exactResult .add 0x7F7FFFFF 0x73000000| := by
  refine ⟨by decide, by decide, ?_⟩
  rw [exactResult, show fpValue 0x7F7FFFFF = (2 ^ 24 - 1) * 2 ^ 253 by decide +kernel, show fpValue 0x73000000 = 2 ^ 252 by decide +kernel, overflowUnits]
  norm_num

/-- Below the overflow bound, and exactly at it. -/
theorem witness_PrimitivesRoundOnceToNearestEven :
    simulator.fp = .binary32 ∧ simulator.ftz = false ∧ isFinite 0x7F7FFFFF = true ∧ isFinite 0x73000000 = true ∧
    isFinite 0x72FFFFFF = true ∧ isZero 0x73000000 = false ∧
    |exactResult .add 0x3F800000 0x3F800000| < overflowUnits ∧ ¬ |exactResult .add 0x7F7FFFFF 0x73000000| < overflowUnits := by
  refine ⟨by decide, by decide, by decide, by decide, by decide, by decide, ?_, ?_⟩
  · rw [exactResult, show fpValue 0x3F800000 = 2 ^ 149 by decide +kernel, overflowUnits]
    norm_num
  · rw [exactResult, show fpValue 0x7F7FFFFF = (2 ^ 24 - 1) * 2 ^ 253 by decide +kernel, show fpValue 0x73000000 = 2 ^ 252 by decide +kernel, overflowUnits]
    norm_num

theorem witness_ComparisonsFollowTheValues :
    isNaN 0x7FC00000 = true ∧ isFinite 0x80000000 = true ∧ isFinite 0 = true ∧ isInfinite 0xFF800000 = true ∧
    isInfinite 0x7F800000 = true := by decide

theorem witness_FlushAndNaNDrawActOnResults :
    { simulator with ftz := true }.ftz = true ∧ simulator.ftz = false ∧ rawOp simulator .add 0 0 = some 0 ∧
    simulator.fp = .binary32 ∧ rawOp simulator .mul 0 0x7F800000 = none ∧
    rawOp { simulator with ftz := true } .mul 0x80000001 0x3F800000 = some 0x80000001 ∧ isSubnormal 0x80000001 = true := by decide +kernel

theorem witness_ClampsReplaceOutOfRangeOperands :
    simulator.kMin = 0x3B4DE35B ∧ simulator.kMax = 0x41FE907B ∧ simulator.qMin = 0x3F3504F3 ∧ simulator.qMax = 0x413504F3 := by decide

/-- The three cases of each clamp, at a bound. -/
theorem witness_ClampsReplaceOutOfRangeOperands_cases :
    isNaN 0x7F800001 = true ∧ fpLess 0x3B4DE35A simulator.kMin = true ∧ fpLess 0x3B4DE35B simulator.kMin = false ∧
    fpGreater 0x41FE907C simulator.kMax = true ∧ fpGreater 0x41FE907B simulator.kMax = false ∧ isNaN 0x41FE907B = false ∧
    fpLess 0x3F3504F2 simulator.qMin = true ∧ fpLess 0x3F3504F3 simulator.qMin = false ∧
    fpGreater 0x413504F4 simulator.qMax = true ∧ fpGreater 0x413504F3 simulator.qMax = false ∧
    fpLess 0x41FE907C simulator.kMin = false ∧ fpLess 0x413504F4 simulator.qMin = false ∧
    fpLess 0x41FE907B simulator.kMin = false ∧ fpLess 0x413504F3 simulator.qMin = false := by decide +kernel

theorem witness_ReferenceCoefficientsAreFinite : ReferenceUpToNaN simulator ∧ ReferenceUpToNaN referenceConfig := by
  unfold ReferenceUpToNaN; decide

theorem witness_ExactDesign : ∃ k q q' : ℝ, 0 < k ∧ 0 < q ∧ q < q' := ⟨1, 1, 2, by norm_num, by norm_num, by norm_num⟩

/-- A complex pole that is not real: at k = q = 1 the poles are ±i/√3. -/
theorem witness_ExactDesignIsStable_pole :
    let c := lpDesignRef (exactArith ℝ) 1 1
    ∃ z : ℂ, z ^ 2 + (c.b1 : ℂ) * z + (c.b2 : ℂ) = 0 ∧ z.im ≠ 0 := by
  have h3 : (0 : ℝ) < 1 / 3 := by norm_num
  refine ⟨⟨0, Real.sqrt (1 / 3)⟩, ?_, (Real.sqrt_pos.mpr h3).ne'⟩
  have hs : Real.sqrt (1 / 3) * Real.sqrt (1 / 3) = 1 / 3 := Real.mul_self_sqrt h3.le
  apply Complex.ext
  · simp only [lpDesignRef, exactArith, pow_two, Complex.add_re, Complex.mul_re, Complex.ofReal_re, Complex.ofReal_im, hs]
    norm_num
  · simp [lpDesignRef, exactArith, pow_two]

/-- Both premises, the second for every n: the filter 1 + z⁻¹ on the constant 1 gives 1, 2, 2, … -/
theorem witness_ExactRecurrenceIsTheDifferenceEquation :
    let c : CoefSet ℝ := ⟨1, 1, 0, 0, 0⟩
    let y : ℕ → ℝ := fun n => if n = 0 then 1 else 2
    sosUpdate (exactArith ℝ) c 0 0 1 = ⟨y 0, 1, 0⟩ ∧ ∀ n, sosUpdate (exactArith ℝ) c 1 0 1 = ⟨y (n + 1), 1, 0⟩ := by
  constructor
  · simp [sosUpdate, exactArith]
  · intro n
    simp [sosUpdate, exactArith]
    norm_num

theorem witness_OtherDesignsAreFiniteAndLowPass : { simulator with design := .other 7 }.design = .other 7 := by decide

/-- Pairs of the domain, with one q twice the other. -/
theorem witness_OtherDesignsFollowTheirParameters :
    let c : Config := { simulator with design := .other 7 }
    c.design = .other 7 ∧ inDomain c 0x3B4DE35B 0x3F3504F3 = true ∧ inDomain c 0x41FE907B 0x3F3504F3 = true ∧
    fpValue 0x3B4DE35B < fpValue 0x41FE907B ∧ isBeyond 2 0x41FE907B 0x427E907B = true ∧ isBeyond 4 0x41FE907B 0x42FE907B = true ∧
    fpValue butterworthQ ≤ fpValue 0x3F3504F3 ∧ isFrequency 0 = true ∧
    isFinite 0x3BCDE35B = true ∧ 2 * fpValue 0x3B4DE35B ≤ fpValue 0x3BCDE35B ∧ 2 * fpValue 0 ≤ fpValue 0x3B4DE35B ∧
    inDomain c 0x3B4DE35B 0x3FB504F3 = true ∧ fpValue 0x3FB504F3 = 2 * fpValue 0x3F3504F3 := by decide +kernel

theorem witness_ExactDesignHasPropertyC : (0 : ℝ) < 0.003 ∧ (0 : ℝ) < 0.7 := by norm_num

theorem witness_HostMappingsStayInTheirRanges : (0 : ℝ) ≤ 0 ∧ (0 : ℝ) < 1 := by norm_num

theorem witness_BlockCallCarriesInterleavedBuffers : [(1 : Word), 2, 5, 6].length = 2 * 2 ∧ [(3 : Word), 4, 7, 8].length = 2 * 2 := by decide

end Sys2Proof.Tests
end

section
/-! What a command and a step do, said once: the state that each command leaves, its frame, and the four things a step can be
(spec/00_scope.md R12, R13; spec/20_memory.md R63). -/

namespace Sys2Proof.Machine

/-! ### The state that a command leaves -/

/-- The state after CTRL_SET (R171). -/
def State.storeControl (idx : BitVec 16) (v : Word) (s : State) : State :=
  match controlOf idx with
  | .cutoff => (s.writePK v).setDirty
  | .resonance => (s.writePQ v).setDirty
  | .ignored => s

/-- The state after INIT (R174). -/
def State.loadDefaults (s : State) : State :=
  let c := calculator s.cfg s.cfg.kDefault s.cfg.qDefault
  (((((s.writePK s.cfg.kDefault).writePQ s.cfg.qDefault).zeroAllDelays).writeAllCoefs c).clearDirty.setInit).noteFinite c.words

/-- The state after a command: the meaning of every command as a total function (R63). -/
def execState (i : Instr) (s : State) : State :=
  match i with
  | .nop => s
  | .init => s.loadDefaults
  | .reset ch => s.writeDelay ch 0 0
  | .assign ch c => (s.writeCoef ch c).noteFinite c.words
  | .process ch x => s.sample ch x
  | .compute k q => (s.respond (calculator s.cfg k q).words).noteFinite (calculator s.cfg k q).words
  | .broadcast c => (s.writeAllCoefs c).noteFinite c.words
  | .ctrlSet idx v => s.storeControl idx v
  | .block fs => s.commitIfDirty.frames fs
  | .readInst ch => s.respond ((s.coef ch).words ++ [s.z1 ch, s.z2 ch])
  | .readCtrl => s.respond [s.pK, s.pQ, s.status, s.errInfo]

theorem execCtrlSet_eq (idx : BitVec 16) (v : Word) (s : State) : execCtrlSet idx v s = .next (s.storeControl idx v) := by
  unfold execCtrlSet State.storeControl
  cases controlOf idx <;> rfl

/-- Every command completes, in the state that `execState` names (R63). -/
theorem exec_eq_next (i : Instr) (s : State) : exec i s = .next (execState i s) := by
  cases i
  case ctrlSet idx v => exact execCtrlSet_eq idx v s
  all_goals rfl

theorem exec_eq_next_iff {i : Instr} {s t : State} : exec i s = .next t ↔ t = execState i s := by
  rw [exec_eq_next, Host.Outcome.next.injEq, eq_comm]

/-- A row of commands runs command by command. -/
@[simp] theorem execAll_cons (i : Instr) (is : List Instr) (s : State) :
    execAll (i :: is) s = execAll is (execState i s) := by
  simp [execAll, exec_eq_next]

@[simp] theorem execAll_nil (s : State) : execAll [] s = .next s := rfl

/-! ### The frame of a command -/

/-- What CTRL_SET can do (R171): write one pending parameter and set DIRTY, or nothing. -/
theorem State.storeControl_cases (idx : BitVec 16) (v : Word) (s : State) :
    s.storeControl idx v = (s.writePK v).setDirty ∨ s.storeControl idx v = (s.writePQ v).setDirty ∨ s.storeControl idx v = s := by
  unfold State.storeControl
  cases controlOf idx
  · exact .inl rfl
  · exact .inr (.inl rfl)
  · exact .inr (.inr rfl)

@[simp] theorem State.storeControl_cfg (idx : BitVec 16) (v : Word) (s : State) : (s.storeControl idx v).cfg = s.cfg := by
  rcases s.storeControl_cases idx v with h | h | h <;> simp [h]
@[simp] theorem State.storeControl_resetLine (idx : BitVec 16) (v : Word) (s : State) :
    (s.storeControl idx v).resetLine = s.resetLine := by
  rcases s.storeControl_cases idx v with h | h | h <;> simp [h]
@[simp] theorem State.storeControl_initDone (idx : BitVec 16) (v : Word) (s : State) :
    (s.storeControl idx v).initDone = s.initDone := by
  rcases s.storeControl_cases idx v with h | h | h <;> simp [h]

@[simp] theorem State.loadDefaults_cfg (s : State) : s.loadDefaults.cfg = s.cfg := by simp [State.loadDefaults]
@[simp] theorem State.loadDefaults_resetLine (s : State) : s.loadDefaults.resetLine = s.resetLine := by simp [State.loadDefaults]
@[simp] theorem State.loadDefaults_initDone (s : State) : s.loadDefaults.initDone = true := by simp [State.loadDefaults]

/-- No command changes the parameters (log entry 1). -/
@[simp] theorem execState_cfg (i : Instr) (s : State) : (execState i s).cfg = s.cfg := by
  cases i <;> simp [execState]

/-- No command touches the reset input (log entry 6). -/
@[simp] theorem execState_resetLine (i : Instr) (s : State) : (execState i s).resetLine = s.resetLine := by
  cases i <;> simp [execState]

/-- INIT sets STATUS.INIT, and no command clears it (R37). -/
theorem execState_initDone (i : Instr) (s : State) :
    (execState i s).initDone = (s.initDone || decide (i = .init)) := by
  cases i <;> simp [execState]

/-! ### What a step can be -/

/-- A step that gives a next state is hardware reset, a command, an illegal header, or the taking in of a partial packet. -/
theorem step_cases {s t : State} (h : step s = .next t) :
    (s.resetLine = true ∧ t = s.hardwareReset) ∨
    (s.resetLine = false ∧ s.cmdPort ≠ [] ∧
      ((∃ i rest, decode (s.parser.taken ++ s.cmdPort) = .command i rest ∧
          t = execState i { s with parser := .idle, cmdPort := rest }) ∨
       (∃ cause hd rest, decode (s.parser.taken ++ s.cmdPort) = .illegal cause hd rest ∧
          t = { s with parser := .idle, cmdPort := rest }.raiseIllegal cause hd) ∨
       (∃ hd need got, decode (s.parser.taken ++ s.cmdPort) = .truncated hd need got ∧
          t = { s with parser := .collect hd need got, cmdPort := [] }))) := by
  unfold step at h
  rcases fetch_cases s with ⟨hr, hf⟩ | ⟨-, -, hf⟩ | ⟨hr, hp, ⟨i, rest, hd, hf⟩ | ⟨cause, w, rest, hd, hf⟩ | ⟨w, need, got, hd, hf⟩⟩ <;>
    simp only [hf, exec_eq_next, Host.Outcome.next.injEq, reduceCtorEq] at h
  · exact .inl ⟨hr, h.symm⟩
  · exact .inr ⟨hr, hp, .inl ⟨i, rest, hd, h.symm⟩⟩
  · exact .inr ⟨hr, hp, .inr (.inl ⟨cause, w, rest, hd, h.symm⟩)⟩
  · exact .inr ⟨hr, hp, .inr (.inr ⟨w, need, got, hd, h.symm⟩)⟩

/-- Where no word waits and the reset input is released, a step is the fault of the parser's state (R13, R64). -/
theorem step_waiting {s : State} (hr : s.resetLine = false) (hp : s.cmdPort = []) : step s = .fault s.parser.waiting := by
  simp [step, fetch, hr, hp]

/-- Where a word waits or the reset input is asserted, a step gives a next state (R63, R220). -/
theorem step_completes {s : State} (h : s.resetLine = true ∨ s.cmdPort ≠ []) : ∃ t, step s = .next t := by
  unfold step
  rcases fetch_cases s with ⟨-, hf⟩ | ⟨hr, hp, -⟩ | ⟨-, -, ⟨i, rest, -, hf⟩ | ⟨cause, w, rest, -, hf⟩ | ⟨w, need, got, -, hf⟩⟩
  · exact ⟨_, by simp only [hf]; rfl⟩
  · rcases h with h | h
    · simp [hr] at h
    · exact absurd hp h
  · exact ⟨_, by simp only [hf]; exact exec_eq_next i _⟩
  · exact ⟨_, by simp only [hf]; rfl⟩
  · exact ⟨_, by simp only [hf]; rfl⟩

/-- The two faults, by whether a packet is half read (log entry 7). -/
theorem waiting_eq (p : Parser) : p.waiting = if p = .idle then .commandPortEmpty else .packetIncomplete := by
  cases p <;> rfl

/-- A step without the reset input leaves it released. -/
theorem step_resetLine {s t : State} (hr : s.resetLine = false) (h : step s = .next t) : t.resetLine = false := by
  rcases step_cases h with ⟨hr', -⟩ | ⟨-, -, ⟨i, rest, -, rfl⟩ | ⟨cause, w, rest, -, rfl⟩ | ⟨w, need, got, -, rfl⟩⟩
  · simp [hr] at hr'
  · simpa using hr
  · simpa using hr
  · exact hr

/-! ### The statements -/

/-- Settles O24: the fetch waits exactly where no word is there, and every other fetch ends in a next state. -/
theorem stepStopsOnlyForWantOfWords : Obligations.StepStopsOnlyForWantOfWords := by
  intro s
  refine ⟨fun ⟨hr, hp⟩ => ?_, step_completes⟩
  rw [step_waiting hr hp, waiting_eq]

/-- Settles O31: of the four things a step can be, none writes `cfg`. -/
theorem noStepChangesTheConfiguration : Obligations.NoStepChangesTheConfiguration := by
  intro s t h
  rcases step_cases h with ⟨-, rfl⟩ | ⟨-, -, ⟨i, rest, -, rfl⟩ | ⟨cause, w, rest, -, rfl⟩ | ⟨w, need, got, -, rfl⟩⟩
  · rfl
  · simp
  · simp
  · rfl

end Sys2Proof.Machine
end

section
/-! The host contract (spec/00_scope.md R14 a; spec/70_reset_and_hazards.md R252): INIT before the first BLOCK. -/

namespace Sys2Proof.Machine

/-! ### The two premises, command by command -/

/-- What the duty asks of a first command: for a BLOCK, that an INIT has been sent. -/
theorem initBeforeBlock_cons (b : Bool) (i : Instr) (is : List Instr) :
    initBeforeBlock b (i :: is) = true ↔
      ((∃ fs, i = .block fs) → b = true) ∧ initBeforeBlock (b || decide (i = .init)) is = true := by
  cases i <;> simp [initBeforeBlock]

/-- What the duties (a) and (b) together ask of a first command: at least what the duty (a) alone asks. -/
theorem hostContract_cons {b streaming : Bool} {i : Instr} {is : List Instr} (h : hostContract b streaming (i :: is) = true) :
    ((∃ fs, i = .block fs) → b = true) ∧ ∃ streaming', hostContract (b || decide (i = .init)) streaming' is = true := by
  cases i
  case init =>
    simp only [hostContract, Bool.and_eq_true] at h
    exact ⟨by simp, streaming, by simpa using h.2⟩
  case block fs =>
    simp only [hostContract, Bool.and_eq_true] at h
    exact ⟨fun _ => h.1, true, by simpa using h.2⟩
  case reset ch =>
    simp only [hostContract, Bool.and_eq_true] at h
    exact ⟨by simp, streaming, by simpa using h.2⟩
  all_goals exact ⟨by simp, streaming, by simpa [hostContract] using h⟩

/-! ### The statement -/

/-- At a BLOCK of a run that keeps the duty, INIT is set: the bit is what the duty counts. -/
theorem initDone_before_block {before after : List Instr} {fs : List Frame} {s t : State}
    (hc : initBeforeBlock s.initDone (before ++ .block fs :: after) = true) (ht : execAll before s = .next t) :
    t.initDone = true := by
  induction before generalizing s with
  | nil =>
    obtain rfl : s = t := by simpa using ht
    exact ((initBeforeBlock_cons _ _ _).mp hc).1 ⟨fs, rfl⟩
  | cons i is ih =>
    rw [execAll_cons] at ht
    refine ih ?_ ht
    rw [execState_initDone]
    exact ((initBeforeBlock_cons _ _ _).mp hc).2

theorem initBeforeBlock_of_hostContract (is : List Instr) {b streaming : Bool} (h : hostContract b streaming is = true) :
    initBeforeBlock b is = true := by
  induction is generalizing b streaming with
  | nil => rfl
  | cons i is ih =>
    obtain ⟨hb, streaming', hs⟩ := hostContract_cons h
    exact (initBeforeBlock_cons _ _ _).mpr ⟨hb, ih hs⟩

/-- Settles O44: by induction on the commands before the BLOCK, since STATUS.INIT is exactly the count that the duty keeps. -/
theorem initPrecedesEveryBlock : Obligations.InitPrecedesEveryBlock :=
  ⟨fun _ _ _ _ _ hc ht => initDone_before_block hc ht, fun is _ _ h => initBeforeBlock_of_hostContract is h⟩

end Sys2Proof.Machine
end

section
/-! Host reads (spec/00_scope.md R13; spec/10_state.md R40; spec/20_memory.md R66): a run with reads is the run without them, whose
queue still holds the words that were read. -/

namespace Sys2Proof.Machine

/-- The state in which the words `ws` stand unread in front of the response queue. -/
def State.withUnread (ws : List Word) (s : State) : State := { s with responses := ws ++ s.responses }

theorem State.withUnread_nil (s : State) : s.withUnread [] = s := rfl

/-! ### No operation reads the response queue -/

theorem State.noteFinite_withUnread (ws xs : List Word) (s : State) :
    (s.withUnread ws).noteFinite xs = (s.noteFinite xs).withUnread ws := by
  unfold State.noteFinite
  split <;> rfl

theorem State.respond_withUnread (ws xs : List Word) (s : State) :
    (s.withUnread ws).respond xs = (s.respond xs).withUnread ws := by
  simp [State.respond, State.withUnread, List.append_assoc]

theorem State.sosState_withUnread (ws : List Word) (ch : Channel) (x : Word) (s : State) :
    (s.withUnread ws).sosState ch x = (s.sosState ch x).withUnread ws := by
  have h := State.noteFinite_withUnread ws [(s.sosResult ch x).acc, (s.sosResult ch x).nz1, (s.sosResult ch x).nz2]
    (s.writeDelay ch (s.sosResult ch x).nz1 (s.sosResult ch x).nz2)
  exact congrArg (fun t : State => { t with nanDraws := s.nanDraws + sosOps }) h

theorem State.sample_withUnread (ws : List Word) (ch : Channel) (x : Word) (s : State) :
    (s.withUnread ws).sample ch x = (s.sample ch x).withUnread ws := by
  unfold State.sample
  rw [State.sosState_withUnread, State.respond_withUnread]
  rfl

theorem State.frame_withUnread (ws : List Word) (f : Frame) (s : State) :
    (s.withUnread ws).frame f = (s.frame f).withUnread ws := by
  simp only [State.frame, State.sample_withUnread]

theorem State.frames_withUnread (ws : List Word) (fs : List Frame) (s : State) :
    (s.withUnread ws).frames fs = (s.frames fs).withUnread ws := by
  induction fs generalizing s with
  | nil => rfl
  | cons f fs ih => rw [State.frames_cons, State.frames_cons, State.frame_withUnread, ih]

theorem State.commitIfDirty_withUnread (ws : List Word) (s : State) :
    (s.withUnread ws).commitIfDirty = s.commitIfDirty.withUnread ws := by
  change (if s.dirty then (s.withUnread ws).commit else s.withUnread ws) = _
  unfold State.commitIfDirty
  split
  · exact State.noteFinite_withUnread ws _ (s.writeAllCoefs (calculator s.cfg s.pK s.pQ)).clearDirty
  · rfl

theorem State.raiseIllegal_withUnread (ws : List Word) (cause : IllegalCause) (h : Word) (s : State) :
    (s.withUnread ws).raiseIllegal cause h = (s.raiseIllegal cause h).withUnread ws := by
  change (if s.err then s.withUnread ws else _).setErr = _
  unfold State.raiseIllegal
  split <;> rfl

theorem State.storeControl_withUnread (ws : List Word) (idx : BitVec 16) (v : Word) (s : State) :
    (s.withUnread ws).storeControl idx v = (s.storeControl idx v).withUnread ws := by
  unfold State.storeControl
  cases controlOf idx <;> rfl

theorem State.loadDefaults_withUnread (ws : List Word) (s : State) :
    (s.withUnread ws).loadDefaults = s.loadDefaults.withUnread ws :=
  State.noteFinite_withUnread ws _ ((((s.writePK s.cfg.kDefault).writePQ s.cfg.qDefault).zeroAllDelays).writeAllCoefs _).clearDirty.setInit

/-- No command reads the response queue: unread words in front of it stay there. -/
theorem execState_withUnread (ws : List Word) (i : Instr) (s : State) :
    execState i (s.withUnread ws) = (execState i s).withUnread ws := by
  cases i with
  | nop => rfl
  | init => exact State.loadDefaults_withUnread ws s
  | reset ch => rfl
  | assign ch c => exact State.noteFinite_withUnread ws _ (s.writeCoef ch c)
  | process ch x => exact State.sample_withUnread ws ch x s
  | compute k q =>
    have h := State.noteFinite_withUnread ws (calculator s.cfg k q).words (s.respond (calculator s.cfg k q).words)
    rwa [← State.respond_withUnread] at h
  | broadcast c => exact State.noteFinite_withUnread ws _ (s.writeAllCoefs c)
  | ctrlSet idx v => exact State.storeControl_withUnread ws idx v s
  | block fs =>
    have h := State.frames_withUnread ws fs s.commitIfDirty
    rwa [← State.commitIfDirty_withUnread] at h
  | readInst ch => exact State.respond_withUnread ws _ s
  | readCtrl => exact State.respond_withUnread ws _ s

/-! ### Nor does a step but hardware reset -/

/-- Without the reset input, a step from a queue with unread words in front is the same step with those words in front. -/
theorem step_withUnread (ws : List Word) {s t : State} (hr : s.resetLine = false) (h : step s = .next t) :
    step (s.withUnread ws) = .next (t.withUnread ws) := by
  obtain ⟨u, hu⟩ : ∃ u, step (s.withUnread ws) = .next u := by
    rcases step_cases h with ⟨hr', -⟩ | ⟨-, hp, -⟩
    · simp [hr] at hr'
    · exact step_completes (.inr hp)
  rw [hu]
  congr 1
  have hsame : (s.withUnread ws).parser.taken ++ (s.withUnread ws).cmdPort = s.parser.taken ++ s.cmdPort := rfl
  rcases step_cases h with ⟨hr', -⟩ | ⟨-, -, ⟨i, rest, hd, rfl⟩ | ⟨cause, w, rest, hd, rfl⟩ | ⟨w, need, got, hd, rfl⟩⟩
  · simp [hr] at hr'
  all_goals
    rcases step_cases hu with ⟨hr', -⟩ | ⟨-, -, ⟨i', rest', hd', rfl⟩ | ⟨cause', w', rest', hd', rfl⟩ | ⟨w', need', got', hd', rfl⟩⟩
    · exact absurd hr' (by simp [State.withUnread, hr])
    all_goals
      rw [hsame, hd] at hd'
      cases hd'
  · exact execState_withUnread ws i { s with parser := .idle, cmdPort := rest }
  · exact State.raiseIllegal_withUnread ws cause w { s with parser := .idle, cmdPort := rest }
  · rfl

/-! ### Runs with and without reads -/

/-- One move, from a released reset input and not its assertion, leaves the input released. -/
theorem runEvent_resetLine {e : Event} (he : e ≠ .assertReset) {s : State} (got : List Word) (hr : s.resetLine = false) :
    (runEvent e s got).1.resetLine = false := by
  cases e with
  | hostWrite ws => exact hr
  | hostRead =>
    unfold runEvent State.hostRead
    cases s.responses <;> exact hr
  | assertReset => exact absurd rfl he
  | coreStep =>
    unfold runEvent
    cases hs : step s with
    | next t => exact step_resetLine hr hs
    | fault f => exact hr
    | refused r => exact hr

/-- A read moves the first unread word to the words read, and nothing else. -/
theorem runEvent_hostRead_withUnread (s : State) (got : List Word) :
    (runEvent .hostRead s got).1.withUnread (runEvent .hostRead s got).2 = s.withUnread got := by
  unfold runEvent State.hostRead
  cases hq : s.responses <;> simp [State.withUnread, hq]

/-- Any other move does the same with the words read so far still in the queue. -/
theorem runEvent_withUnread {e : Event} (hread : e ≠ .hostRead) (hreset : e ≠ .assertReset) {s : State} (got : List Word)
    (hr : s.resetLine = false) :
    runEvent e (s.withUnread got) [] = ((runEvent e s got).1.withUnread (runEvent e s got).2, []) := by
  cases e with
  | hostWrite ws => rfl
  | hostRead => exact absurd rfl hread
  | assertReset => exact absurd rfl hreset
  | coreStep =>
    unfold runEvent
    by_cases hp : s.cmdPort = []
    · rw [step_waiting hr hp, step_waiting (s := s.withUnread got) hr hp]
    · obtain ⟨t, ht⟩ := step_completes (.inr hp)
      rw [ht, step_withUnread got hr ht]

/-- The simulation: the run without the reads, from the state where nothing was read, ends where the run with them ends, but for the
words read, which still stand in its queue. -/
theorem runEvents_without_reads (es : List Event) (s : State) (got : List Word) (hr : s.resetLine = false)
    (he : Event.assertReset ∉ es) :
    runEvents (es.filter (· ≠ .hostRead)) (s.withUnread got) [] =
      ((runEvents es s got).1.withUnread (runEvents es s got).2, []) := by
  induction es generalizing s got with
  | nil => rfl
  | cons e es ih =>
    have hne : e ≠ .assertReset := fun h => he (by simp [h])
    have hes : Event.assertReset ∉ es := fun h => he (by simp [h])
    have ih' := ih _ (runEvent e s got).2 (runEvent_resetLine hne got hr) hes
    by_cases hread : e = .hostRead
    · subst hread
      rw [runEvent_hostRead_withUnread] at ih'
      simpa [runEvents] using ih'
    · rw [List.filter_cons_of_pos (by simpa using hread), runEvents, runEvent_withUnread hread hne got hr]
      exact ih'

/-- The words read so far stay in front of the words read later. -/
theorem runEvent_read (e : Event) (s : State) (got : List Word) : ∃ ys, (runEvent e s got).2 = got ++ ys := by
  cases e with
  | hostWrite ws => exact ⟨[], by simp [runEvent]⟩
  | hostRead =>
    unfold runEvent
    cases s.hostRead with
    | none => exact ⟨[], by simp⟩
    | some r => exact ⟨[r.1], rfl⟩
  | assertReset => exact ⟨[], by simp [runEvent]⟩
  | coreStep =>
    unfold runEvent
    cases step s <;> exact ⟨[], by simp⟩

theorem runEvents_read (es : List Event) (s : State) (got : List Word) : ∃ ys, (runEvents es s got).2 = got ++ ys := by
  induction es generalizing s got with
  | nil => exact ⟨[], by simp [runEvents]⟩
  | cons e es ih =>
    obtain ⟨ys, hy⟩ := runEvent_read e s got
    obtain ⟨zs, hz⟩ := ih (runEvent e s got).1 (runEvent e s got).2
    exact ⟨ys ++ zs, by rw [runEvents, hz, hy, List.append_assoc]⟩

/-- What is observed does not change when words read are put back into the queue. -/
theorem observe_withUnread (s : State) (got : List Word) : observe (s.withUnread got, []) = observe (s, got) := rfl

/-! ### The statement -/

/-- Settles O30: the run without reads simulates the run with them. That the words emitted before stay in place is the same simulation,
from the state whose first responses count as read. -/
theorem hostReadsDisturbNothing : Obligations.HostReadsDisturbNothing := by
  intro es s hr he
  have same : ∀ (u : State) (got : List Word), u.resetLine = false →
      observe (runEvents (es.filter (· ≠ .hostRead)) (u.withUnread got) []) = observe (runEvents es u got) := by
    intro u got hu
    rw [runEvents_without_reads es u got hu he, observe_withUnread]
  have hdrop := same s [] hr
  rw [State.withUnread_nil] at hdrop
  refine ⟨hdrop.symm, ?_⟩
  have hempty : ({ s with responses := [] } : State).withUnread s.responses = s := by simp [State.withUnread]
  have hfirst := same { s with responses := [] } s.responses hr
  rw [hempty] at hfirst
  obtain ⟨ys, hy⟩ := runEvents_read es { s with responses := [] } s.responses
  refine ⟨ys ++ (runEvents es { s with responses := [] } s.responses).1.responses, ?_⟩
  rw [← hdrop, hfirst, ← List.append_assoc, ← hy]
  rfl

end Sys2Proof.Machine
end

section
/-! The order of float words (spec/00_scope.md R8, R10): the magnitude bits and the units of a word go up together, so a comparison of
words is a comparison of their values. -/

namespace Sys2Proof.Machine

/-! ### The units of a magnitude -/

/-- The units of 2^-149 that magnitude bits stand for (R8). -/
def unitsOfMagnitude (m : Nat) : Nat :=
  if m / 2 ^ 23 = 0 then m % 2 ^ 23 else (2 ^ 23 + m % 2 ^ 23) * 2 ^ (m / 2 ^ 23 - 1)

theorem fpUnits_eq_magnitude (w : Word) : fpUnits w = unitsOfMagnitude (field w 30 0) := by
  have he : field w 30 0 / 2 ^ 23 = fpExponent w := by rw [fpExponent_eq, field_eq_div]; omega
  have hf : field w 30 0 % 2 ^ 23 = fpFraction w := by rw [fpFraction_eq, field_eq_div]; omega
  rw [unitsOfMagnitude, he, hf, fpUnits]

/-- One more in the magnitude bits is one unit in the last place more in value. -/
theorem unitsOfMagnitude_lt_succ (m : Nat) : unitsOfMagnitude m < unitsOfMagnitude (m + 1) := by
  by_cases hcarry : m % 2 ^ 23 = 2 ^ 23 - 1
  · have hq : (m + 1) / 2 ^ 23 = m / 2 ^ 23 + 1 := by omega
    have hr : (m + 1) % 2 ^ 23 = 0 := by omega
    unfold unitsOfMagnitude
    rw [hq, hr, hcarry]
    cases m / 2 ^ 23 with
    | zero => decide
    | succ e =>
      have hpos : 0 < 2 ^ e := by positivity
      simp only [Nat.succ_ne_zero, if_false, Nat.add_sub_cancel, pow_succ]
      omega
  · have hq : (m + 1) / 2 ^ 23 = m / 2 ^ 23 := by omega
    have hr : (m + 1) % 2 ^ 23 = m % 2 ^ 23 + 1 := by omega
    unfold unitsOfMagnitude
    rw [hq, hr]
    split
    · omega
    · exact Nat.mul_lt_mul_of_pos_right (by omega) (by positivity)

theorem unitsOfMagnitude_strictMono : StrictMono unitsOfMagnitude := strictMono_nat_of_lt_succ unitsOfMagnitude_lt_succ

theorem unitsOfMagnitude_eq_zero_iff (m : Nat) : unitsOfMagnitude m = 0 ↔ m = 0 :=
  unitsOfMagnitude_strictMono.injective.eq_iff' rfl

/-! ### The order of words -/

/-- The comparison of the words' order is that of their values. -/
theorem fpOrder_lt_iff (a b : Word) : fpOrder a < fpOrder b ↔ fpValue a < fpValue b := by
  have hlt := unitsOfMagnitude_strictMono.lt_iff_lt (a := field a 30 0) (b := field b 30 0)
  have hgt := unitsOfMagnitude_strictMono.lt_iff_lt (a := field b 30 0) (b := field a 30 0)
  have ha := unitsOfMagnitude_eq_zero_iff (field a 30 0)
  have hb := unitsOfMagnitude_eq_zero_iff (field b 30 0)
  unfold fpOrder fpValue
  rw [fpUnits_eq_magnitude, fpUnits_eq_magnitude]
  cases fpSign a <;> cases fpSign b <;> simp <;> omega

/-- An infinity stands at the end of the order that its sign names. -/
theorem fpOrder_infinite {w : Word} (h : isInfinite w = true) :
    fpOrder w = if fpSign w = true then -2139095040 else 2139095040 := by
  simp only [isInfinite, decide_eq_true_eq, fpExponent_eq, fpFraction_eq] at h
  obtain ⟨he, hf⟩ := h
  have hm : field w 30 0 = 2139095040 := by rw [field_eq_div]; omega
  rw [fpOrder, hm]
  rfl

theorem not_nan_of_infinite {w : Word} (h : isInfinite w = true) : isNaN w = false := by
  simp only [isInfinite, isNaN, decide_eq_true_eq, decide_eq_false_iff_not] at *
  exact fun hn => hn.2 h.2

theorem fpLess_nan {a b : Word} (h : isNaN a = true ∨ isNaN b = true) : fpLess a b = false := by
  rcases h with h | h <;> simp [fpLess, h]

theorem fpLess_finite_iff {a b : Word} (ha : isFinite a = true) (hb : isFinite b = true) :
    fpLess a b = true ↔ fpValue a < fpValue b := by
  rw [fpLess_of_not_nan (not_nan_of_finite ha) (not_nan_of_finite hb), decide_eq_true_eq, fpOrder_lt_iff]

/-- +Inf is above every finite word, and −Inf is not. -/
theorem fpLess_finite_infinite_iff {a b : Word} (ha : isFinite a = true) (hb : isInfinite b = true) :
    fpLess a b = true ↔ fpSign b = false := by
  have hrange := fpOrder_finite ha
  rw [fpLess_of_not_nan (not_nan_of_finite ha) (not_nan_of_infinite hb), decide_eq_true_eq, fpOrder_infinite hb]
  cases fpSign b <;> simp <;> omega

/-- −Inf is below every finite word, and +Inf is not. -/
theorem fpLess_infinite_finite_iff {a b : Word} (ha : isFinite a = true) (hb : isInfinite b = true) :
    fpLess b a = true ↔ fpSign b = true := by
  have hrange := fpOrder_finite ha
  rw [fpLess_of_not_nan (not_nan_of_infinite hb) (not_nan_of_finite ha), decide_eq_true_eq, fpOrder_infinite hb]
  cases fpSign b <;> simp <;> omega

theorem fpLess_infinite_iff {a b : Word} (ha : isInfinite a = true) (hb : isInfinite b = true) :
    fpLess a b = true ↔ fpSign a = true ∧ fpSign b = false := by
  rw [fpLess_of_not_nan (not_nan_of_infinite ha) (not_nan_of_infinite hb), decide_eq_true_eq, fpOrder_infinite ha,
    fpOrder_infinite hb]
  cases fpSign a <;> cases fpSign b <;> decide

/-- Settles O47, class by class: the order of the words is the order of their values, with the infinities at its ends. -/
theorem comparisonsFollowTheValues : Obligations.ComparisonsFollowTheValues := by
  intro a b
  refine ⟨fun h => ⟨fpLess_nan h, fpLess_nan h.symm⟩, fun ha hb => ⟨fpLess_finite_iff ha hb, fpLess_finite_iff hb ha⟩,
    fun ha hb => ⟨fpLess_finite_infinite_iff ha hb, fpLess_infinite_finite_iff ha hb⟩, fpLess_infinite_iff, rfl, ?_⟩
  rw [isNaN, decide_eq_true_eq]

end Sys2Proof.Machine
end

section
/-! What the reference operations answer on finite words (spec/00_scope.md R9): the exact result, rounded once. -/

namespace Sys2Proof.Machine

/-! ### A finite word as a signed number of units -/

/-- The factor that a sign bit stands for. -/
def signFactor (s : Bool) : ℚ := if s then -1 else 1

theorem signFactor_mul (s t : Bool) : signFactor s * signFactor t = signFactor (s != t) := by
  cases s <;> cases t <;> simp [signFactor]

theorem abs_signFactor_mul (s : Bool) (x : ℚ) : |signFactor s * x| = |x| := by
  cases s <;> simp [signFactor]

theorem signFactor_mul_signFactor (s : Bool) : signFactor s * signFactor s = 1 := by
  cases s <;> simp [signFactor]

/-- A positive magnitude under a sign is negative exactly when the sign bit is set. -/
theorem decide_signFactor_mul_neg (s : Bool) {x : ℚ} (hx : 0 < x) : decide (signFactor s * x < 0) = s := by
  cases s
  · simpa [signFactor] using hx.le
  · simpa [signFactor] using hx

theorem fpValue_eq_signFactor (w : Word) : (fpValue w : ℚ) = signFactor (fpSign w) * fpUnits w := by
  unfold fpValue signFactor
  cases fpSign w <;> simp

/-- An integer under its own sign. -/
theorem intCast_eq_signFactor (v : ℤ) : (v : ℚ) = signFactor (decide (v < 0)) * v.natAbs := by
  rcases lt_or_ge v 0 with h | h
  · simp [signFactor, h, abs_of_neg]
  · simp [signFactor, not_lt.mpr h, abs_of_nonneg, h]

/-! ### The operations on finite words -/

theorem refAdd_finite {a b : Word} (ha : isFinite a = true) (hb : isFinite b = true) (hv : fpValue a + fpValue b ≠ 0) :
    refAdd a b = some (roundWord (decide (fpValue a + fpValue b < 0)) (fpValue a + fpValue b).natAbs 1) := by
  simp [refAdd, not_nan_of_finite ha, not_nan_of_finite hb, not_infinite_of_finite ha, not_infinite_of_finite hb, hv]

/-- An exact zero sum is −0 only of two negative words. -/
theorem refAdd_cancel {a b : Word} (ha : isFinite a = true) (hb : isFinite b = true) (hv : fpValue a + fpValue b = 0) :
    refAdd a b = some (packWord (fpSign a && fpSign b) 0) := by
  simp [refAdd, not_nan_of_finite ha, not_nan_of_finite hb, not_infinite_of_finite ha, not_infinite_of_finite hb, hv]

theorem refMul_finite {a b : Word} (ha : isFinite a = true) (hb : isFinite b = true) :
    refMul a b = some (roundWord (fpSign a != fpSign b) (fpUnits a * fpUnits b) (2 ^ 149)) := by
  simp [refMul, not_nan_of_finite ha, not_nan_of_finite hb, not_infinite_of_finite ha, not_infinite_of_finite hb]

theorem refDiv_finite {a b : Word} (ha : isFinite a = true) (hb : isFinite b = true) (hz : isZero b = false) :
    refDiv a b = some (roundWord (fpSign a != fpSign b) (fpUnits a * 2 ^ 149) (fpUnits b)) := by
  simp [refDiv, not_nan_of_finite ha, not_nan_of_finite hb, not_infinite_of_finite ha, not_infinite_of_finite hb, hz]

/-! ### One rounding of the exact result -/

/-- An outcome of an operation is the exact result `e`, rounded once. -/
def IsRounded (o : Option Word) (e : ℚ) : Prop :=
  ∃ (s : Bool) (num den : Nat), 0 < den ∧ o = some (roundWord s num den) ∧ e = signFactor s * (num / den)

theorem refAdd_isRounded {a b : Word} (ha : isFinite a = true) (hb : isFinite b = true) :
    IsRounded (refAdd a b) ((fpValue a : ℚ) + fpValue b) := by
  have hcast : (fpValue a : ℚ) + fpValue b = ((fpValue a + fpValue b : ℤ) : ℚ) := by push_cast; rfl
  by_cases hv : fpValue a + fpValue b = 0
  · exact ⟨_, 0, 1, one_pos, by rw [refAdd_cancel ha hb hv, roundWord_zero], by rw [hcast, hv]; simp⟩
  · exact ⟨_, _, 1, one_pos, refAdd_finite ha hb hv, by rw [hcast, Nat.cast_one, div_one]; exact intCast_eq_signFactor _⟩

/-- Every reference operation on finite words is its exact result, rounded once (R9). -/
theorem refOp_isRounded (op : FpOp) {a b : Word} (ha : isFinite a = true) (hb : isFinite b = true)
    (hdiv : op = .div → isZero b = false) : IsRounded (refOp op a b) (exactResult op a b) := by
  cases op with
  | add => exact refAdd_isRounded ha hb
  | sub =>
    have h := refAdd_isRounded ha (b := fpNegate b) (by simpa using hb)
    rwa [fpValue_negate, Int.cast_neg, ← sub_eq_add_neg] at h
  | mul =>
    refine ⟨_, _, _, by positivity, refMul_finite ha hb, ?_⟩
    rw [exactResult, fpValue_eq_signFactor, fpValue_eq_signFactor, ← signFactor_mul]
    push_cast
    ring
  | div =>
    have hz := hdiv rfl
    have hpos : 0 < fpUnits b := Nat.pos_of_ne_zero fun h => by simp [(fpUnits_eq_zero_iff b).mp h] at hz
    refine ⟨_, _, _, hpos, refDiv_finite ha hb hz, ?_⟩
    have hinv : (signFactor (fpSign b))⁻¹ = signFactor (fpSign b) := by cases fpSign b <;> simp [signFactor]
    rw [exactResult, fpValue_eq_signFactor, fpValue_eq_signFactor, ← signFactor_mul, div_eq_mul_inv, mul_inv, hinv]
    push_cast
    ring

/-! ### Results that are no NaN -/

theorem isNaN_packWord_zero (s : Bool) : isNaN (packWord s 0) = false := by cases s <;> decide

theorem isNaN_packWord_inf (s : Bool) : isNaN (packWord s infMagnitude) = false := by cases s <;> decide

theorem not_nan_of_refAdd {a b w : Word} (h : refAdd a b = some w) : isNaN w = false := by
  unfold refAdd at h
  dsimp only at h
  split_ifs at h with hn hia hi hib hv <;> cases h
  · exact not_nan_of_infinite hia
  · exact not_nan_of_infinite hib
  · exact isNaN_packWord_zero _
  · exact isNaN_roundWord _ _ _

/-- A reference operation that gives a word gives no NaN. -/
theorem not_nan_of_refOp {op : FpOp} {a b w : Word} (h : refOp op a b = some w) : isNaN w = false := by
  cases op with
  | add => exact not_nan_of_refAdd h
  | sub => exact not_nan_of_refAdd h
  | mul =>
    change refMul a b = some w at h
    unfold refMul at h
    dsimp only at h
    split_ifs at h <;> cases h
    · exact isNaN_packWord_inf _
    · exact isNaN_roundWord _ _ _
  | div =>
    change refDiv a b = some w at h
    unfold refDiv at h
    dsimp only at h
    split_ifs at h <;> cases h
    · exact isNaN_packWord_inf _
    · exact isNaN_packWord_zero _
    · exact isNaN_packWord_inf _
    · exact isNaN_roundWord _ _ _

theorem not_nan_of_rawOp {c : Config} {op : FpOp} {a b w : Word} (h : rawOp c op a b = some w) : isNaN w = false := by
  unfold rawOp at h
  split at h
  · exact not_nan_of_refOp h
  · dsimp only at h
    split_ifs at h with hn
    cases h
    simpa using hn

/-! ### The flush and the NaN draw (R6) -/

theorem packWord_zero (s : Bool) : packWord s 0 = if s then 0x80000000 else 0x00000000 := by cases s <;> rfl

theorem packWord_inf (s : Bool) : packWord s infMagnitude = if s then 0xFF800000 else 0x7F800000 := by cases s <;> rfl

theorem isSubnormal_flushSubnormal (w : Word) : isSubnormal (flushSubnormal w) = false := by
  by_cases h : isSubnormal w = true
  · rw [flushSubnormal, if_pos h]
    cases fpSign w <;> decide
  · rw [flushSubnormal, if_neg h]
    simpa using h

theorem isNaN_flushSubnormal {w : Word} (h : isNaN w = false) : isNaN (flushSubnormal w) = false := by
  unfold flushSubnormal
  split
  · exact isNaN_packWord_zero _
  · exact h

theorem not_subnormal_of_nan {w : Word} (h : isNaN w = true) : isSubnormal w = false := by
  simp only [isNaN, isSubnormal, decide_eq_true_eq, decide_eq_false_iff_not] at *
  omega

/-- What a primitive answers: the NaN draw where the arithmetic gives no word, else its word, flushed under FTZ. -/
theorem fpOp_cases (c : Config) (op : FpOp) (key : NanKey) (a b : Word) :
    (rawOp c op a b = none ∧ fpOp c op key a b = nanOut c key) ∨
      ∃ w, rawOp c op a b = some w ∧ fpOp c op key a b = if c.ftz then flushSubnormal w else w := by
  unfold fpOp
  cases rawOp c op a b with
  | none => exact .inl ⟨rfl, rfl⟩
  | some w => exact .inr ⟨w, rfl, rfl⟩

/-- Settles O48, by the two things a primitive can answer. -/
theorem flushAndNaNDrawActOnResults : Obligations.FlushAndNaNDrawActOnResults := by
  intro c op key a b
  rcases fpOp_cases c op key a b with ⟨hr, ho⟩ | ⟨w, hr, ho⟩
  · rw [hr, ho]
    exact ⟨by simp, fun _ => not_subnormal_of_nan (isNaN_nanOut c key), by simp, fun hf => by rw [← hr, rawOp, hf],
      fun _ => isNaN_nanOut c key, by simp⟩
  · have hnan : isNaN (fpOp c op key a b) = false := by
      rw [ho]
      split
      · exact isNaN_flushSubnormal (not_nan_of_rawOp hr)
      · exact not_nan_of_rawOp hr
    refine ⟨fun v hz hv => ?_, fun hz => ?_, fun v hz hv => ?_, fun hf => by rw [rawOp, hf], fun hn => ?_, fun _ => hnan⟩
    · obtain rfl : w = v := by simpa [hr] using hv
      rw [ho, if_pos hz, flushSubnormal, packWord_zero]
    · rw [ho, if_pos hz]
      exact isSubnormal_flushSubnormal w
    · obtain rfl : w = v := by simpa [hr] using hv
      rw [ho, hz]
      rfl
    · simp [hr] at hn

end Sys2Proof.Machine
end

section
/-! Rounding to nearest (spec/00_scope.md R9): no finite word is nearer to the exact value than the rounded one, a tie goes to the even
significand, and the bound from which a value overflows. -/

namespace Sys2Proof.Machine

/-! ### The rounded number of units -/

/-- The units of the rounded value, before the overflow check: the significand and its power. -/
def roundedUnits (num den : Nat) : Nat :=
  roundNearestEven num (den * 2 ^ roundShift num den) * 2 ^ roundShift num den

theorem fpValue_roundWord (s : Bool) {num den : Nat} (hd : 0 < den) (h : roundMagnitude num den < infMagnitude) :
    (fpValue (roundWord s num den) : ℚ) = signFactor s * roundedUnits num den := by
  rw [fpValue_eq_signFactor, fpSign_roundWord, fpUnits_roundWord s num hd h, roundedUnits]

/-- The fraction of a rounded word has the parity of its significand. -/
theorem fpFraction_roundWord_parity (s : Bool) {num den : Nat} (h : roundMagnitude num den < infMagnitude) :
    fpFraction (roundWord s num den) % 2 = roundNearestEven num (den * 2 ^ roundShift num den) % 2 := by
  have hlt : roundMagnitude num den < 2 ^ 31 := by unfold infMagnitude at h; omega
  rw [roundWord, Nat.min_eq_left h.le, fpFraction_packWord hlt, roundMagnitude]
  omega

/-- The rounded units lie within half a unit in the last place. -/
theorem roundedUnits_near (num : Nat) {den : Nat} (hd : 0 < den) :
    2 * |(roundedUnits num den : ℚ) - num / den| ≤ 2 ^ roundShift num den := by
  obtain ⟨hup, hdown⟩ := roundNearestEven_near num (den := den * 2 ^ roundShift num den) (by positivity)
  have hd' : (0 : ℚ) < den := by exact_mod_cast hd
  have hx : (num : ℚ) / den * den = num := div_mul_cancel₀ _ hd'.ne'
  unfold roundedUnits
  set n := roundNearestEven num (den * 2 ^ roundShift num den)
  set P := 2 ^ roundShift num den with hP
  have hup' : (2 : ℚ) * (n * (den * P)) ≤ 2 * num + den * P := by exact_mod_cast hup
  have hdown' : (2 : ℚ) * num ≤ 2 * (n * (den * P)) + den * P := by exact_mod_cast hdown
  rw [← hx] at hup' hdown'
  have hcast : (2 : ℚ) ^ roundShift num den = (P : ℚ) := by rw [hP]; push_cast; rfl
  rw [hcast, ← abs_of_pos (show (0 : ℚ) < 2 by norm_num), ← abs_mul, abs_le]
  push_cast
  constructor <;> refine le_of_mul_le_mul_right ?_ hd' <;> nlinarith

/-- At exactly half a unit in the last place the significand is even. -/
theorem roundedUnits_tie {num den : Nat} (hd : 0 < den)
    (h : 2 * |(roundedUnits num den : ℚ) - num / den| = 2 ^ roundShift num den) :
    roundNearestEven num (den * 2 ^ roundShift num den) % 2 = 0 := by
  apply roundNearestEven_tie (by positivity)
  have hd' : (den : ℚ) ≠ 0 := by exact_mod_cast hd.ne'
  have hx : (num : ℚ) / den * den = num := div_mul_cancel₀ _ hd'
  unfold roundedUnits at h
  set n := roundNearestEven num (den * 2 ^ roundShift num den)
  set P := 2 ^ roundShift num den with hP
  have hcast : (2 : ℚ) ^ roundShift num den = (P : ℚ) := by rw [hP]; push_cast; rfl
  rw [hcast] at h
  push_cast at h
  rcases abs_cases ((n : ℚ) * P - num / den) with ⟨e, -⟩ | ⟨e, -⟩
  · left
    rw [e] at h
    have : (2 : ℚ) * (n * (den * P)) = 2 * num + den * P := by
      linear_combination (den : ℚ) * h + 2 * hx
    exact_mod_cast this
  · right
    rw [e] at h
    have : (2 : ℚ) * num = 2 * (n * (den * P)) + den * P := by
      linear_combination (den : ℚ) * h - 2 * hx
    exact_mod_cast this

/-! ### The grid of representable values -/

/-- A finite word is a multiple of the unit in the last place of shift `t`, or lies below every value with that shift. -/
theorem fpUnits_grid {v : Word} (t : Nat) : (∃ k, fpUnits v = k * 2 ^ t) ∨ (0 < t ∧ fpUnits v < 2 ^ (t + 23)) := by
  have hf : fpFraction v < 2 ^ 23 := by rw [fpFraction_eq]; omega
  rcases Nat.eq_zero_or_pos t with rfl | ht
  · exact .inl ⟨fpUnits v, by simp⟩
  · unfold fpUnits
    split
    · exact .inr ⟨ht, lt_of_lt_of_le hf (Nat.pow_le_pow_right (by decide) (by omega))⟩
    · by_cases hte : t ≤ fpExponent v - 1
      · refine .inl ⟨(2 ^ 23 + fpFraction v) * 2 ^ (fpExponent v - 1 - t), ?_⟩
        rw [mul_assoc, ← pow_add, Nat.sub_add_cancel hte]
      · refine .inr ⟨ht, ?_⟩
        calc (2 ^ 23 + fpFraction v) * 2 ^ (fpExponent v - 1)
            < 2 ^ 24 * 2 ^ (fpExponent v - 1) := Nat.mul_lt_mul_of_pos_right (by omega) (by positivity)
          _ = 2 ^ (24 + (fpExponent v - 1)) := (pow_add _ _ _).symm
          _ ≤ 2 ^ (t + 23) := Nat.pow_le_pow_right (by decide) (by omega)

/-- The same for the value of a word under a sign. -/
theorem signed_value_grid (s : Bool) (v : Word) (t : Nat) :
    (∃ k : ℤ, signFactor s * fpValue v = k * 2 ^ t) ∨ (0 < t ∧ signFactor s * fpValue v < 2 ^ (t + 23)) := by
  rw [fpValue_eq_signFactor, ← mul_assoc, signFactor_mul]
  rcases fpUnits_grid (v := v) t with ⟨k, hk⟩ | ⟨ht, hlt⟩
  · rw [hk]
    cases s != fpSign v
    · exact .inl ⟨k, by simp [signFactor]⟩
    · exact .inl ⟨-k, by simp [signFactor]⟩
  · have hlt' : (fpUnits v : ℚ) < 2 ^ (t + 23) := by exact_mod_cast hlt
    refine .inr ⟨ht, lt_of_le_of_lt ?_ hlt'⟩
    cases s != fpSign v <;> simp [signFactor]

/-! ### Nearest, ties to even -/

/-- Of the multiples of the unit in the last place, the rounded one is the nearest, with an even significand on a tie. -/
theorem roundedUnits_nearest_multiple (num : Nat) {den : Nat} (hd : 0 < den) (k : ℤ) :
    |(roundedUnits num den : ℚ) - num / den| ≤ |(k : ℚ) * 2 ^ roundShift num den - num / den| ∧
      (|(k : ℚ) * 2 ^ roundShift num den - num / den| = |(roundedUnits num den : ℚ) - num / den| →
        (k : ℚ) * 2 ^ roundShift num den = roundedUnits num den ∨
          roundNearestEven num (den * 2 ^ roundShift num den) % 2 = 0) := by
  have hnear := roundedUnits_near num hd
  have htie := roundedUnits_tie (num := num) hd
  have hunits : (roundedUnits num den : ℚ) =
      roundNearestEven num (den * 2 ^ roundShift num den) * 2 ^ roundShift num den := by
    rw [roundedUnits]; push_cast; rfl
  by_cases hk : k = roundNearestEven num (den * 2 ^ roundShift num den)
  · have hsame : (k : ℚ) * 2 ^ roundShift num den = roundedUnits num den := by rw [hunits, hk, Int.cast_natCast]
    rw [hsame]
    exact ⟨le_rfl, fun _ => .inl rfl⟩
  · have hapart : (2 : ℚ) ^ roundShift num den ≤ |(k : ℚ) * 2 ^ roundShift num den - roundedUnits num den| := by
      have hone : (1 : ℚ) ≤ |((k - roundNearestEven num (den * 2 ^ roundShift num den) : ℤ) : ℚ)| := by
        exact_mod_cast Int.one_le_abs (sub_ne_zero.mpr hk)
      rw [hunits, ← sub_mul, abs_mul, abs_of_pos (show (0 : ℚ) < 2 ^ roundShift num den by positivity)]
      push_cast at hone
      exact le_mul_of_one_le_left (by positivity) hone
    have htri := abs_sub_le ((k : ℚ) * 2 ^ roundShift num den) (num / den) (roundedUnits num den)
    rw [abs_sub_comm ((num : ℚ) / den)] at htri
    exact ⟨by linarith, fun heq => .inr (htie (by linarith))⟩

/-- Of all finite words, the rounded value is the nearest, with an even significand on a tie. -/
theorem roundedUnits_nearest (num : Nat) {den : Nat} (hd : 0 < den) (s : Bool) (v : Word) :
    |(roundedUnits num den : ℚ) - num / den| ≤ |signFactor s * fpValue v - num / den| ∧
      (|signFactor s * fpValue v - num / den| = |(roundedUnits num den : ℚ) - num / den| →
        signFactor s * fpValue v = roundedUnits num den ∨
          roundNearestEven num (den * 2 ^ roundShift num den) % 2 = 0) := by
  rcases signed_value_grid s v (roundShift num den) with ⟨k, hk⟩ | ⟨ht, hlt⟩
  · rw [hk]
    exact roundedUnits_nearest_multiple num hd k
  · have hlead : (2 : ℚ) ^ (roundShift num den + 23) ≤ num / den := by
      rw [le_div_iff₀ (by exact_mod_cast hd)]
      exact_mod_cast (Nat.le_div_iff_mul_le hd).mp (roundShift_le_div ht)
    have hbound := (roundedUnits_nearest_multiple num hd (2 ^ 23)).1
    have hgrid : (((2 : ℤ) ^ 23 : ℤ) : ℚ) * 2 ^ roundShift num den = 2 ^ (roundShift num den + 23) := by
      rw [pow_add]; push_cast; ring
    rw [hgrid, abs_of_nonpos (sub_nonpos.mpr hlead)] at hbound
    have hfar : |(roundedUnits num den : ℚ) - num / den| < |signFactor s * fpValue v - num / den| := by
      rw [abs_of_neg (by linarith : signFactor s * fpValue v - (num : ℚ) / den < 0)]
      linarith
    exact ⟨hfar.le, fun heq => absurd heq hfar.ne'⟩

/-! ### The overflow bound -/

/-- The overflow bound as a comparison of whole numbers. -/
theorem overflowUnits_le_iff {num den : Nat} (hd : 0 < den) :
    overflowUnits ≤ (num : ℚ) / den ↔ (2 ^ 25 - 1) * (2 ^ 252 * den) ≤ num := by
  rw [le_div_iff₀ (by exact_mod_cast hd), overflowUnits, mul_assoc,
    show (2 ^ 25 - 1 : ℚ) = 33554431 by norm_num, show 2 ^ 25 - 1 = 33554431 from rfl]
  exact_mod_cast Iff.rfl

/-- From half a unit in the last place above the largest finite word on, the magnitude reaches infinity. -/
theorem infMagnitude_le_roundMagnitude {num den : Nat} (hd : 0 < den) (h : overflowUnits ≤ (num : ℚ) / den) :
    infMagnitude ≤ roundMagnitude num den := by
  rw [overflowUnits_le_iff hd] at h
  have hX : 0 < 2 ^ 252 * den := by positivity
  have hshift : 253 ≤ roundShift num den := by
    by_contra hc
    have hlt := (Nat.div_lt_iff_lt_mul hd).mp (div_lt_roundShift num den)
    have hpow : 2 ^ (roundShift num den + 24) ≤ 2 ^ 24 * 2 ^ 252 := by
      rw [pow_add, mul_comm]
      exact Nat.mul_le_mul_left _ (Nat.pow_le_pow_right (by decide) (by omega))
    have hmul := Nat.mul_le_mul_right den hpow
    rw [mul_assoc] at hmul
    omega
  unfold roundMagnitude infMagnitude
  dsimp only
  rcases Nat.lt_or_eq_of_le hshift with hlt | heq
  · have := le_significand (num := num) hd (by omega)
    omega
  · have hulp : den * 2 ^ 253 = 2 * (2 ^ 252 * den) := by ring
    obtain ⟨-, hdown⟩ := roundNearestEven_near num (den := 2 * (2 ^ 252 * den)) (by positivity)
    have htie := roundNearestEven_tie (num := num) (den := 2 * (2 ^ 252 * den)) (by positivity)
    rw [← heq, hulp]
    generalize roundNearestEven num (2 * (2 ^ 252 * den)) = n at *
    generalize 2 ^ 252 * den = X at *
    by_contra hc
    have hn : n = 2 ^ 24 - 1 := by
      by_contra hne
      have := Nat.mul_le_mul_right (2 * X) (show n ≤ 2 ^ 24 - 2 by omega)
      omega
    subst hn
    have := htie (.inr (by omega))
    omega

/-- Below that bound it does not. -/
theorem roundMagnitude_lt_infMagnitude {num den : Nat} (hd : 0 < den) (h : (num : ℚ) / den < overflowUnits) :
    roundMagnitude num den < infMagnitude := by
  rw [← not_le, overflowUnits_le_iff hd, not_le] at h
  have hX : 0 < 2 ^ 252 * den := by positivity
  have hshift : roundShift num den ≤ 253 := by
    by_contra hc
    have hle := (Nat.le_div_iff_mul_le hd).mp (roundShift_le_div (num := num) (den := den) (by omega))
    have hpow : 2 ^ 25 * 2 ^ 252 ≤ 2 ^ (roundShift num den + 23) := by
      rw [show roundShift num den + 23 = 25 + (roundShift num den - 2) by omega, pow_add]
      exact Nat.mul_le_mul_left _ (Nat.pow_le_pow_right (by decide) (by omega))
    have hmul := Nat.mul_le_mul_right den hpow
    rw [mul_assoc] at hmul
    omega
  unfold roundMagnitude infMagnitude
  dsimp only
  rcases Nat.lt_or_eq_of_le hshift with hlt | heq
  · have := significand_le num hd
    omega
  · have hulp : den * 2 ^ 253 = 2 * (2 ^ 252 * den) := by ring
    obtain ⟨hup, -⟩ := roundNearestEven_near num (den := 2 * (2 ^ 252 * den)) (by positivity)
    rw [heq, hulp]
    generalize roundNearestEven num (2 * (2 ^ 252 * den)) = n at *
    generalize 2 ^ 252 * den = X at *
    by_contra hc
    have := Nat.mul_le_mul_right (2 * X) (show 2 ^ 24 ≤ n by omega)
    omega

/-- An overflowing value rounds to the infinity of its sign. -/
theorem roundWord_overflow (s : Bool) {num den : Nat} (hd : 0 < den) (h : overflowUnits ≤ (num : ℚ) / den) :
    roundWord s num den = packWord s infMagnitude := by
  rw [roundWord, Nat.min_eq_right (infMagnitude_le_roundMagnitude hd h)]

/-- A rounded result that does not overflow is finite, no finite word is nearer to the exact value, and a tie goes to the even fraction. -/
theorem roundWord_nearest (s : Bool) {num den : Nat} (hd : 0 < den) (h : (num : ℚ) / den < overflowUnits) (v : Word) :
    let e : ℚ := signFactor s * (num / den)
    |(fpValue (roundWord s num den) : ℚ) - e| ≤ |(fpValue v : ℚ) - e| ∧
      (|(fpValue v : ℚ) - e| = |(fpValue (roundWord s num den) : ℚ) - e| →
        fpValue v = fpValue (roundWord s num den) ∨ fpFraction (roundWord s num den) % 2 = 0) := by
  intro e
  have hlt := roundMagnitude_lt_infMagnitude hd h
  have hw := fpValue_roundWord s hd hlt
  have turn : ∀ x : ℚ, |x - e| = |signFactor s * x - num / den| := fun x => by
    rw [← abs_signFactor_mul s (x - e), mul_sub, ← mul_assoc, signFactor_mul_signFactor, one_mul]
  obtain ⟨hle, htie⟩ := roundedUnits_nearest num hd s v
  rw [turn, turn, hw, ← mul_assoc, signFactor_mul_signFactor, one_mul]
  refine ⟨hle, fun heq => ?_⟩
  rw [fpFraction_roundWord_parity s hlt]
  refine (htie heq).imp_left fun hv => ?_
  have : (fpValue v : ℚ) = fpValue (roundWord s num den) := by
    rw [hw, ← hv, ← mul_assoc, signFactor_mul_signFactor, one_mul]
  exact_mod_cast this

theorem isInfinite_packWord_inf (s : Bool) : isInfinite (packWord s infMagnitude) = true := by cases s <;> decide

theorem overflowUnits_pos : 0 < overflowUnits := by norm_num [overflowUnits]

/-- Settles O46: on finite words every operation is its exact result rounded once, and the one rounding function goes to nearest, ties
to even, up to the overflow bound. -/
theorem primitivesRoundOnceToNearestEven : Obligations.PrimitivesRoundOnceToNearestEven := by
  intro c key op a b hfp hftz ha hb hdiv w e
  obtain ⟨s, num, den, hd, hr, he⟩ := refOp_isRounded op ha hb hdiv
  have hw : w = roundWord s num den := by
    simp only [w, fpOp_of_some hfp key hr, hftz, Bool.false_eq_true, if_false]
  have hx : (0 : ℚ) ≤ num / den := by positivity
  have he' : e = signFactor s * (num / den) := he
  have habs : |e| = num / den := by rw [he', abs_signFactor_mul, abs_of_nonneg hx]
  rw [hw, habs]
  split
  next hlt =>
    refine ⟨?_, fun v _ => ?_⟩
    · rw [isFinite_roundWord, decide_eq_true_eq]
      exact roundMagnitude_lt_infMagnitude hd hlt
    · rw [he']
      exact roundWord_nearest s hd hlt v
  next hge =>
    rw [not_lt] at hge
    rw [roundWord_overflow s hd hge, fpSign_packWord (by decide), he',
      decide_signFactor_mul_neg s (lt_of_lt_of_le overflowUnits_pos hge)]
    exact ⟨isInfinite_packWord_inf s, rfl⟩

end Sys2Proof.Machine
end

section
/-! The IEEE special cases of the reference operations (spec/00_scope.md R9): infinities, zeros, and the sign of every result. -/

namespace Sys2Proof.Machine

/-! ### Infinities and zeros as words -/

/-- An infinity is its sign bit and the magnitude of infinity. -/
theorem eq_packWord_of_infinite {w : Word} (h : isInfinite w = true) : w = packWord (fpSign w) infMagnitude := by
  simp only [isInfinite, decide_eq_true_eq, fpExponent_eq, fpFraction_eq] at h
  obtain ⟨he, hf⟩ := h
  have hw := w.isLt
  apply BitVec.eq_of_toNat_eq
  rw [packWord_toNat (by decide), fpSign_eq, infMagnitude]
  simp only [decide_eq_true_eq]
  split <;> omega

theorem not_zero_of_infinite {w : Word} (h : isInfinite w = true) : isZero w = false := by
  simp only [isInfinite, isZero, decide_eq_true_eq, decide_eq_false_iff_not] at *
  omega

/-! ### An infinite operand -/

theorem refAdd_infinite_finite {a b : Word} (ha : isInfinite a = true) (hb : isFinite b = true) : refAdd a b = some a := by
  simp [refAdd, not_nan_of_infinite ha, not_nan_of_finite hb, ha, not_infinite_of_finite hb]

theorem refAdd_finite_infinite {a b : Word} (ha : isInfinite a = true) (hb : isFinite b = true) : refAdd b a = some a := by
  simp [refAdd, not_nan_of_infinite ha, not_nan_of_finite hb, ha, not_infinite_of_finite hb]

/-- The sum of two infinities is a NaN where their signs differ. -/
theorem refAdd_infinite {a b : Word} (ha : isInfinite a = true) (hb : isInfinite b = true) :
    refAdd a b = if (fpSign a != fpSign b) = true then none else some a := by
  simp [refAdd, not_nan_of_infinite ha, not_nan_of_infinite hb, ha, hb]

theorem refSub_infinite {a b : Word} (ha : isInfinite a = true) (hb : isInfinite b = true) :
    refSub a b = if (fpSign a != fpSign b) = true then some a else none := by
  rw [refSub, refAdd_infinite ha (by simpa using hb), fpSign_negate]
  cases fpSign a <;> cases fpSign b <;> rfl

theorem refSub_finite_infinite {a b : Word} (ha : isInfinite a = true) (hb : isFinite b = true) :
    refSub b a = some (packWord (!fpSign a) infMagnitude) := by
  have hn : isInfinite (fpNegate a) = true := by simpa using ha
  rw [refSub, refAdd_finite_infinite hn hb, ← fpSign_negate, ← eq_packWord_of_infinite hn]

theorem refMul_infinite {a b : Word} (ha : isInfinite a = true) (hn : isNaN b = false) (hz : isZero b = false) :
    refMul a b = some (packWord (fpSign a != fpSign b) infMagnitude) := by
  simp [refMul, not_nan_of_infinite ha, hn, ha, not_zero_of_infinite ha, hz]

/-- A product does not depend on the order of its operands. -/
theorem refMul_comm (a b : Word) : refMul a b = refMul b a := by
  simp only [refMul, Bool.or_comm (isNaN a), Bool.or_comm (isInfinite a), Bool.or_comm (isZero a), bne_comm (a := fpSign a),
    Nat.mul_comm (fpUnits a)]

theorem refMul_zero_infinite {a b : Word} (ha : isZero a = true) (hb : isInfinite b = true) : refMul a b = none := by
  simp [refMul, not_nan_of_infinite hb, hb, ha]

theorem refDiv_infinite_finite {a b : Word} (ha : isInfinite a = true) (hb : isFinite b = true) :
    refDiv a b = some (packWord (fpSign a != fpSign b) infMagnitude) := by
  simp [refDiv, not_nan_of_infinite ha, not_nan_of_finite hb, ha, not_infinite_of_finite hb]

theorem refDiv_finite_infinite {a b : Word} (ha : isInfinite a = true) (hb : isFinite b = true) :
    refDiv b a = some (packWord (fpSign a != fpSign b) 0) := by
  rw [bne_comm]
  simp [refDiv, not_nan_of_infinite ha, not_nan_of_finite hb, ha, not_infinite_of_finite hb]

theorem refDiv_infinite {a b : Word} (ha : isInfinite a = true) (hb : isInfinite b = true) : refDiv a b = none := by
  simp [refDiv, not_nan_of_infinite ha, not_nan_of_infinite hb, ha, hb]

/-! ### Zeros -/

theorem refDiv_zero_zero {a b : Word} (ha : isZero a = true) (hb : isZero b = true) : refDiv a b = none := by
  have haf := finite_of_zero ha
  have hbf := finite_of_zero hb
  simp [refDiv, not_nan_of_finite haf, not_nan_of_finite hbf, not_infinite_of_finite haf, not_infinite_of_finite hbf, ha, hb]

/-- A division by zero is the infinity of the sign of the quotient, of an infinite dividend too. -/
theorem refDiv_by_zero {a b : Word} (hb : isZero b = true) (ha : isZero a = false) (hn : isNaN a = false) :
    refDiv a b = some (packWord (fpSign a != fpSign b) infMagnitude) := by
  have hbf := finite_of_zero hb
  cases hi : isInfinite a with
  | true => exact refDiv_infinite_finite hi hbf
  | false => simp [refDiv, hn, hi, not_nan_of_finite hbf, not_infinite_of_finite hbf, ha, hb]

theorem refMul_zero_left {a b : Word} (ha : isZero a = true) (hb : isFinite b = true) :
    refMul a b = some (packWord (fpSign a != fpSign b) 0) := by
  rw [refMul_comm, refMul_zero_right hb ha, bne_comm]

theorem refDiv_zero_left {a b : Word} (ha : isZero a = true) (hb : isFinite b = true) (hz : isZero b = false) :
    refDiv a b = some (packWord (fpSign a != fpSign b) 0) := by
  rw [refDiv_finite (finite_of_zero ha) hb hz, (fpUnits_eq_zero_iff a).mpr ha, Nat.zero_mul, roundWord_zero]

/-- A difference of equal values is −0 only of −0 and +0. -/
theorem refSub_cancel {a b : Word} (ha : isFinite a = true) (hb : isFinite b = true) (hv : fpValue a = fpValue b) :
    refSub a b = some (packWord (fpSign a && !fpSign b) 0) := by
  rw [refSub, refAdd_cancel ha (by simpa using hb) (by simp [hv]), fpSign_negate]

theorem refSub_self {a : Word} (ha : isFinite a = true) : refSub a a = some 0x00000000 := by
  rw [refSub_cancel ha ha rfl, packWord_zero, Bool.and_not_self]
  rfl

/-! ### The sign of a result -/

theorem refAdd_sign {a b : Word} (ha : isFinite a = true) (hb : isFinite b = true) (hv : fpValue a + fpValue b ≠ 0) :
    ∃ w, refAdd a b = some w ∧ fpSign w = decide (fpValue a + fpValue b < 0) :=
  ⟨_, refAdd_finite ha hb hv, fpSign_roundWord _ _ _⟩

theorem refSub_sign {a b : Word} (ha : isFinite a = true) (hb : isFinite b = true) (hv : fpValue a ≠ fpValue b) :
    ∃ w, refSub a b = some w ∧ fpSign w = decide (fpValue a - fpValue b < 0) := by
  have h := refAdd_sign ha (b := fpNegate b) (by simpa using hb)
  rw [fpValue_negate, ← sub_eq_add_neg] at h
  exact h (sub_ne_zero.mpr hv)

/-- A result from the overflow bound on is the infinity of its sign. -/
theorem refOp_overflow (op : FpOp) {a b : Word} (ha : isFinite a = true) (hb : isFinite b = true)
    (hdiv : op = .div → isZero b = false) (h : overflowUnits ≤ |exactResult op a b|) :
    refOp op a b = some (packWord (decide (exactResult op a b < 0)) infMagnitude) := by
  obtain ⟨s, num, den, hd, hr, he⟩ := refOp_isRounded op ha hb hdiv
  have hx : (0 : ℚ) ≤ num / den := by positivity
  rw [he, abs_signFactor_mul, abs_of_nonneg hx] at h
  rw [hr, he, decide_signFactor_mul_neg s (lt_of_lt_of_le overflowUnits_pos h), roundWord_overflow s hd h]

/-- Settles O45, case by case: the operand classes first, then the finite words. -/
theorem specialCasesOfThePrimitives : Obligations.SpecialCasesOfThePrimitives := by
  intro a b infinity zero signs
  have hinf : ∀ s, infinity s = packWord s infMagnitude := fun s => (packWord_inf s).symm
  have hzero : ∀ s, zero s = packWord s 0 := fun s => (packWord_zero s).symm
  simp only [hinf, hzero]
  refine ⟨?nan, ?zeroTimesInf, ?infMinusInf, refDiv_zero_zero, ?infInf, ?infFinite, ?infTimes, refDiv_by_zero, refSub_self, rfl, rfl,
    fun ha hb => ⟨refAdd_cancel ha hb, refAdd_sign ha hb, refSub_cancel ha hb, refSub_sign ha hb, ?mulSign, ?divSign, ?zeroMul, ?zeroDiv,
      fun op hdiv => refOp_overflow op ha hb hdiv⟩⟩
  case nan => exact fun op h => h.elim (refOp_nan_left op b) (refOp_nan_right op a)
  case zeroTimesInf =>
    exact fun ha hb => ⟨refMul_zero_infinite ha hb, (refMul_comm b a).trans (refMul_zero_infinite ha hb)⟩
  case infMinusInf => exact fun ha => by simp [refOp, refSub_infinite ha ha]
  case infInf => exact fun ha hb => ⟨refDiv_infinite ha hb, refAdd_infinite ha hb, refSub_infinite ha hb⟩
  case infFinite =>
    exact fun ha hb => ⟨refAdd_infinite_finite ha hb, refAdd_finite_infinite ha hb,
      refAdd_infinite_finite ha (by simpa using hb), refSub_finite_infinite ha hb, refDiv_infinite_finite ha hb,
      refDiv_finite_infinite ha hb⟩
  case infTimes =>
    exact fun ha hn hz => ⟨refMul_infinite ha hn hz, (refMul_comm b a).trans (refMul_infinite ha hn hz)⟩
  case mulSign => exact ⟨_, refMul_finite ha hb, fpSign_roundWord _ _ _⟩
  case divSign => exact fun hz => ⟨_, refDiv_finite ha hb hz, fpSign_roundWord _ _ _⟩
  case zeroMul => exact fun hz => ⟨refMul_zero_left hz hb, (refMul_comm b a).trans (refMul_zero_left hz hb)⟩
  case zeroDiv => exact fun hz hb0 => refDiv_zero_left hz hb hb0

end Sys2Proof.Machine
end

section
/-! The host's side (spec/00_scope.md R15, R16, R18): the ranges of the two control mappings, and the interleaved buffers of one BLOCK. -/

namespace Sys2Proof.Machine

/-! ### The cutoff mapping (R15) -/

theorem sampleRate_cast : (sampleRate : ℝ) = 48000 := by norm_num [sampleRate]

/-- The frequency rises from 48 Hz by the factor 490 over the control range. -/
theorem hostFrequency_eq (v : ℝ) : hostFrequency v = 48 * 490 ^ v := by
  have hpow : (2 : ℝ) ^ (v * hostK) = 490 ^ v := by
    rw [mul_comm, Real.rpow_mul (by norm_num), hostK, Real.rpow_logb (by norm_num) (by norm_num) (by norm_num)]
  rw [hostFrequency, hpow, sampleRate_cast]
  norm_num

theorem hostFrequency_zero : hostFrequency 0 = 48 := by rw [hostFrequency_eq, Real.rpow_zero, mul_one]

theorem le_hostFrequency {v : ℝ} (h : 0 ≤ v) : 48 ≤ hostFrequency v := by
  rw [hostFrequency_eq]
  linarith [Real.one_le_rpow (x := 490) (by norm_num) h]

theorem hostFrequency_lt {v : ℝ} (h : v < 1) : hostFrequency v < 23520 := by
  have hpow : (490 : ℝ) ^ v < 490 ^ (1 : ℝ) := Real.rpow_lt_rpow_of_exponent_lt (by norm_num) h
  rw [Real.rpow_one] at hpow
  rw [hostFrequency_eq]
  linarith

theorem hostTurns_eq (v : ℝ) : hostTurns v = hostFrequency v / 48000 := by rw [hostTurns, sampleRate_cast]

theorem le_hostTurns {v : ℝ} (h : 0 ≤ v) : 0.001 ≤ hostTurns v := by
  rw [hostTurns_eq]
  linarith [le_hostFrequency h]

theorem hostTurns_lt {v : ℝ} (h : v < 1) : hostTurns v < 0.49 := by
  rw [hostTurns_eq]
  linarith [hostFrequency_lt h]

/-- The tangent rises with the turns, as far as they stay between 0 and a half. -/
theorem tan_turns_lt {t u : ℝ} (ht : 0 ≤ t) (htu : t < u) (hu : u < 1 / 2) : Real.tan (Real.pi * t) < Real.tan (Real.pi * u) := by
  apply Real.tan_lt_tan_of_lt_of_lt_pi_div_two
  · linarith [Real.pi_pos, mul_nonneg Real.pi_pos.le ht]
  · linarith [mul_lt_mul_of_pos_left hu Real.pi_pos]
  · exact mul_lt_mul_of_pos_left htu Real.pi_pos

theorem le_hostCutoff {v : ℝ} (h0 : 0 ≤ v) (h1 : v < 1) : Real.tan (Real.pi * 0.001) ≤ hostCutoff v := by
  rcases (le_hostTurns h0).eq_or_lt with h | h
  · rw [hostCutoff, ← h]
  · exact (tan_turns_lt (by norm_num) h (by linarith [hostTurns_lt h1])).le

theorem hostCutoff_lt {v : ℝ} (h0 : 0 ≤ v) (h1 : v < 1) : hostCutoff v < Real.tan (Real.pi * 0.49) :=
  tan_turns_lt (by linarith [le_hostTurns h0]) (hostTurns_lt h1) (by norm_num)

/-! ### The resonance mapping (R16) -/

theorem le_hostResonance {v : ℝ} (h : 0 ≤ v) : 1 / Real.sqrt 2 ≤ hostResonance v :=
  div_le_div_of_nonneg_right (Real.one_le_rpow (by norm_num) (by linarith)) (Real.sqrt_nonneg 2)

theorem hostResonance_lt {v : ℝ} (h : v < 1) : hostResonance v < 16 / Real.sqrt 2 := by
  have hpow : (2 : ℝ) ^ (v * 4) < 2 ^ (4 : ℝ) := Real.rpow_lt_rpow_of_exponent_lt (by norm_num) (by linarith)
  have h16 : (2 : ℝ) ^ (4 : ℝ) = 16 := by norm_num
  exact div_lt_div_of_pos_right (h16 ▸ hpow) (Real.sqrt_pos.mpr (by norm_num))

/-- The ratio of two resonances is a power of two (C1). -/
theorem hostResonance_ratio (v : ℝ) : hostResonance v / hostResonance 0 = 2 ^ (v * 4) := by
  have hs : Real.sqrt 2 ≠ 0 := (Real.sqrt_pos.mpr (by norm_num)).ne'
  rw [hostResonance, hostResonance, zero_mul, Real.rpow_zero, div_div_div_cancel_right₀ hs, div_one]

/-- Settles O54, each mapping by its monotonicity over the control range. -/
theorem hostMappingsStayInTheirRanges : Obligations.HostMappingsStayInTheirRanges := by
  intro v h0 h1
  refine ⟨hostFrequency_zero, le_hostFrequency h0, hostFrequency_lt h1, hostTurns_eq v, le_hostTurns h0, hostTurns_lt h1,
    le_hostCutoff h0 h1, hostCutoff_lt h0 h1, le_hostResonance h0, hostResonance_lt h1, ?_⟩
  rw [hostResonance_ratio]
  norm_num

/-! ### Interleaved buffers (R18) -/

/-- A buffer of one frame more begins with that frame's two words. -/
theorem buffer_succ {xs : List Word} {n : Nat} (h : xs.length = 2 * (n + 1)) :
    ∃ l r rest, xs = l :: r :: rest ∧ rest.length = 2 * n := by
  match xs, h with
  | l :: r :: rest, h => exact ⟨l, r, rest, rfl, by simp at h; omega⟩

theorem framesOfBuffers_length {n : Nat} {main sub : List Word} (hm : main.length = 2 * n) (hs : sub.length = 2 * n) :
    (framesOfBuffers main sub).length = n := by
  induction n generalizing main sub with
  | zero =>
    obtain rfl := List.eq_nil_of_length_eq_zero hm
    rfl
  | succ n ih =>
    obtain ⟨mL, mR, main, rfl, hm'⟩ := buffer_succ hm
    obtain ⟨sL, sR, sub, rfl, hs'⟩ := buffer_succ hs
    simp [framesOfBuffers, ih hm' hs']

/-- Frame i is `main[2i], main[2i+1], sub[2i], sub[2i+1]`. -/
theorem framesOfBuffers_getElem? {n : Nat} {main sub : List Word} (hm : main.length = 2 * n) (hs : sub.length = 2 * n) {i : Nat}
    (hi : i < n) :
    (framesOfBuffers main sub)[i]? = some
      { mainLeft := main.getD (2 * i) 0, mainRight := main.getD (2 * i + 1) 0,
        subLeft := sub.getD (2 * i) 0, subRight := sub.getD (2 * i + 1) 0 } := by
  induction n generalizing main sub i with
  | zero => omega
  | succ n ih =>
    obtain ⟨mL, mR, main, rfl, hm'⟩ := buffer_succ hm
    obtain ⟨sL, sR, sub, rfl, hs'⟩ := buffer_succ hs
    cases i with
    | zero => rfl
    | succ i => exact ih hm' hs' (Nat.lt_of_succ_lt_succ hi)

/-- The words of the frames split into the buffers they came from. -/
theorem buffersOfResponses_framesOfBuffers {n : Nat} {main sub : List Word} (hm : main.length = 2 * n) (hs : sub.length = 2 * n) :
    buffersOfResponses ((framesOfBuffers main sub).flatMap Frame.words) = (main, sub) := by
  induction n generalizing main sub with
  | zero =>
    obtain rfl := List.eq_nil_of_length_eq_zero hm
    obtain rfl := List.eq_nil_of_length_eq_zero hs
    rfl
  | succ n ih =>
    obtain ⟨mL, mR, main, rfl, hm'⟩ := buffer_succ hm
    obtain ⟨sL, sR, sub, rfl, hs'⟩ := buffer_succ hs
    simp [framesOfBuffers, buffersOfResponses, ih hm' hs']

/-- The responses to one frame more begin with that frame's four words. -/
theorem responses_succ {ys : List Word} {n : Nat} (h : ys.length = 4 * (n + 1)) :
    ∃ a b c d rest, ys = a :: b :: c :: d :: rest ∧ rest.length = 4 * n := by
  match ys, h with
  | a :: b :: c :: d :: rest, h => exact ⟨a, b, c, d, rest, rfl, by simp at h; omega⟩

theorem buffersOfResponses_length {n : Nat} {ys : List Word} (h : ys.length = 4 * n) :
    (buffersOfResponses ys).1.length = 2 * n ∧ (buffersOfResponses ys).2.length = 2 * n := by
  induction n generalizing ys with
  | zero =>
    obtain rfl := List.eq_nil_of_length_eq_zero h
    exact ⟨rfl, rfl⟩
  | succ n ih =>
    obtain ⟨a, b, c, d, rest, rfl, h'⟩ := responses_succ h
    obtain ⟨h1, h2⟩ := ih h'
    simp only [buffersOfResponses, List.length_cons, h1, h2]
    omega

/-- Response words `4i` to `4i+3` go back to the places of frame i. -/
theorem buffersOfResponses_getElem? {n : Nat} {ys : List Word} (h : ys.length = 4 * n) {i : Nat} (hi : i < n) :
    (buffersOfResponses ys).1[2 * i]? = ys[4 * i]? ∧ (buffersOfResponses ys).1[2 * i + 1]? = ys[4 * i + 1]? ∧
    (buffersOfResponses ys).2[2 * i]? = ys[4 * i + 2]? ∧ (buffersOfResponses ys).2[2 * i + 1]? = ys[4 * i + 3]? := by
  induction n generalizing ys i with
  | zero => omega
  | succ n ih =>
    obtain ⟨a, b, c, d, rest, rfl, h'⟩ := responses_succ h
    cases i with
    | zero => exact ⟨rfl, rfl, rfl, rfl⟩
    | succ i => exact ih h' (Nat.lt_of_succ_lt_succ hi)

/-! ### What a BLOCK answers (R173) -/

theorem State.frame_responses (s : State) (f : Frame) :
    ∃ ys, (s.frame f).responses = s.responses ++ ys ∧ ys.length = 4 :=
  ⟨[_, _, _, _], by simp only [State.frame, State.sample_responses, List.append_assoc]; rfl, rfl⟩

/-- A block of frames answers four words a frame. -/
theorem State.frames_responses (s : State) (fs : List Frame) :
    ∃ ys, (s.frames fs).responses = s.responses ++ ys ∧ ys.length = 4 * fs.length := by
  induction fs generalizing s with
  | nil => exact ⟨[], by simp⟩
  | cons f fs ih =>
    obtain ⟨ys, hy, hly⟩ := s.frame_responses f
    obtain ⟨zs, hz, hlz⟩ := ih (s.frame f)
    refine ⟨ys ++ zs, by rw [State.frames_cons, hz, hy, List.append_assoc], ?_⟩
    rw [List.length_append, hly, hlz, List.length_cons]
    omega

/-- Settles O55, by induction on the number of frames. -/
theorem blockCallCarriesInterleavedBuffers : Obligations.BlockCallCarriesInterleavedBuffers := by
  intro n main sub s hm hs
  have hlen := framesOfBuffers_length hm hs
  obtain ⟨ys, hy, hly⟩ := s.commitIfDirty.frames_responses (framesOfBuffers main sub)
  rw [State.commitIfDirty_responses] at hy
  rw [hlen] at hly
  obtain ⟨hmain, hsub⟩ := buffersOfResponses_length hly
  exact ⟨hlen, fun i hi => framesOfBuffers_getElem? hm hs hi, buffersOfResponses_framesOfBuffers hm hs,
    _, ys, exec_eq_next _ s, hy, hly, hmain, hsub, fun i hi => buffersOfResponses_getElem? hly hi⟩

end Sys2Proof.Machine
end

section
/-! The reference configuration (spec/00_scope.md R6) and what INIT makes of it (spec/42_update_protocol.md R174). -/

namespace Sys2Proof.Machine

/-! ### The state after INIT -/

@[simp] theorem State.loadDefaults_pK (s : State) : s.loadDefaults.pK = s.cfg.kDefault := by simp [State.loadDefaults]
@[simp] theorem State.loadDefaults_pQ (s : State) : s.loadDefaults.pQ = s.cfg.qDefault := by simp [State.loadDefaults]
@[simp] theorem State.loadDefaults_coef (s : State) (ch : Channel) :
    s.loadDefaults.coef ch = calculator s.cfg s.cfg.kDefault s.cfg.qDefault := by simp [State.loadDefaults]
@[simp] theorem State.loadDefaults_z1 (s : State) (ch : Channel) : s.loadDefaults.z1 ch = 0 := by simp [State.loadDefaults]
@[simp] theorem State.loadDefaults_z2 (s : State) (ch : Channel) : s.loadDefaults.z2 ch = 0 := by simp [State.loadDefaults]

/-- STATUS after INIT: DIRTY cleared and INIT set, and NF noted. -/
theorem State.loadDefaults_status (s : State) :
    s.loadDefaults.status =
      let flags := setBit initBit (clearBit dirtyBit s.status)
      if (calculator s.cfg s.cfg.kDefault s.cfg.qDefault).words.all isFinite then flags else setBit nfBit flags := by
  simp [State.loadDefaults]

/-- R174's example: the set that the defaults give in the reference configuration. -/
theorem calculator_reference_defaults :
    calculator referenceConfig referenceConfig.kDefault referenceConfig.qDefault =
      ⟨0x3F74E004, 0x3FF4E004, 0x3F74E004, 0x3FF4A21B, 0x3F6A3BDC⟩ := by decide +kernel

/-- Settles O56: the values by definition, and INIT by the set that the calculator gives for the defaults. -/
theorem referenceConfigurationHoldsTheValuesOfR6 : Obligations.ReferenceConfigurationHoldsTheValuesOfR6 := by
  refine ⟨rfl, rfl, rfl, rfl, rfl, rfl, rfl, rfl, rfl, rfl, rfl, rfl, rfl, rfl, rfl, State.reset.loadDefaults,
    exec_eq_next .init State.reset, State.loadDefaults_pK _, State.loadDefaults_pQ _, ?_, fun ch => ⟨?_, ?_, ?_⟩⟩
  · rw [State.loadDefaults_status, show State.reset.cfg = referenceConfig from rfl, calculator_reference_defaults]
    decide
  · exact (State.loadDefaults_coef _ ch).trans calculator_reference_defaults
  · exact State.loadDefaults_z1 _ ch
  · exact State.loadDefaults_z2 _ ch

end Sys2Proof.Machine
end

section
/-! What a command leaves of the control state and of the ports (spec/10_state.md R35 to R41): its frame, field by field. -/

namespace Sys2Proof.Machine

/-! ### CTRL_SET and INIT (R171, R174) -/

@[simp] theorem State.storeControl_errInfo (idx : BitVec 16) (v : Word) (s : State) : (s.storeControl idx v).errInfo = s.errInfo := by
  rcases s.storeControl_cases idx v with h | h | h <;> simp [h]
@[simp] theorem State.storeControl_responses (idx : BitVec 16) (v : Word) (s : State) :
    (s.storeControl idx v).responses = s.responses := by
  rcases s.storeControl_cases idx v with h | h | h <;> simp [h]
@[simp] theorem State.storeControl_parser (idx : BitVec 16) (v : Word) (s : State) : (s.storeControl idx v).parser = s.parser := by
  rcases s.storeControl_cases idx v with h | h | h <;> simp [h]
@[simp] theorem State.storeControl_cmdPort (idx : BitVec 16) (v : Word) (s : State) : (s.storeControl idx v).cmdPort = s.cmdPort := by
  rcases s.storeControl_cases idx v with h | h | h <;> simp [h]
@[simp] theorem State.storeControl_err (idx : BitVec 16) (v : Word) (s : State) : (s.storeControl idx v).err = s.err := by
  rcases s.storeControl_cases idx v with h | h | h <;> simp [h]
@[simp] theorem State.storeControl_errCode (idx : BitVec 16) (v : Word) (s : State) : (s.storeControl idx v).errCode = s.errCode := by
  rcases s.storeControl_cases idx v with h | h | h <;> simp [h]
@[simp] theorem State.storeControl_nonFinite (idx : BitVec 16) (v : Word) (s : State) :
    (s.storeControl idx v).nonFinite = s.nonFinite := by
  rcases s.storeControl_cases idx v with h | h | h <;> simp [h]
@[simp] theorem State.storeControl_coef (idx : BitVec 16) (v : Word) (s : State) (ch : Channel) :
    (s.storeControl idx v).coef ch = s.coef ch := by
  rcases s.storeControl_cases idx v with h | h | h <;> simp [h]
@[simp] theorem State.storeControl_z1 (idx : BitVec 16) (v : Word) (s : State) (ch : Channel) :
    (s.storeControl idx v).z1 ch = s.z1 ch := by
  rcases s.storeControl_cases idx v with h | h | h <;> simp [h]
@[simp] theorem State.storeControl_z2 (idx : BitVec 16) (v : Word) (s : State) (ch : Channel) :
    (s.storeControl idx v).z2 ch = s.z2 ch := by
  rcases s.storeControl_cases idx v with h | h | h <;> simp [h]

theorem State.storeControl_reserved (idx : BitVec 16) (v : Word) (s : State) :
    field (s.storeControl idx v).status 31 8 = field s.status 31 8 := by
  rcases s.storeControl_cases idx v with h | h | h <;> rw [h]
  · exact reserved_setBit (by decide) _
  · exact reserved_setBit (by decide) _

/-- CTRL_SET 0 writes P_K, and no other index does. -/
@[simp] theorem State.storeControl_pK (idx : BitVec 16) (v : Word) (s : State) :
    (s.storeControl idx v).pK = if idx = 0 then v else s.pK := by
  unfold State.storeControl controlOf
  split_ifs <;> rfl

/-- CTRL_SET 1 writes P_Q, and no other index does. -/
@[simp] theorem State.storeControl_pQ (idx : BitVec 16) (v : Word) (s : State) :
    (s.storeControl idx v).pQ = if idx = 1 then v else s.pQ := by
  unfold State.storeControl controlOf
  by_cases h0 : idx = 0
  · subst h0; rfl
  · rw [if_neg h0]
    split_ifs <;> rfl

/-- CTRL_SET of a known index sets DIRTY. -/
@[simp] theorem State.storeControl_dirty (idx : BitVec 16) (v : Word) (s : State) :
    (s.storeControl idx v).dirty = (s.dirty || updatesControl (.ctrlSet idx v)) := by
  unfold State.storeControl controlOf updatesControl
  split_ifs with h0 h1
  · simp [h0]
  · simp [h1]
  · simp only [h0, h1, or_self, decide_false, Bool.or_false]

@[simp] theorem State.loadDefaults_errInfo (s : State) : s.loadDefaults.errInfo = s.errInfo := by simp [State.loadDefaults]
@[simp] theorem State.loadDefaults_responses (s : State) : s.loadDefaults.responses = s.responses := by simp [State.loadDefaults]
@[simp] theorem State.loadDefaults_parser (s : State) : s.loadDefaults.parser = s.parser := by simp [State.loadDefaults]
@[simp] theorem State.loadDefaults_cmdPort (s : State) : s.loadDefaults.cmdPort = s.cmdPort := by simp [State.loadDefaults]
@[simp] theorem State.loadDefaults_dirty (s : State) : s.loadDefaults.dirty = false := by simp [State.loadDefaults]
@[simp] theorem State.loadDefaults_err (s : State) : s.loadDefaults.err = s.err := by simp [State.loadDefaults]
@[simp] theorem State.loadDefaults_errCode (s : State) : s.loadDefaults.errCode = s.errCode := by simp [State.loadDefaults]
@[simp] theorem State.loadDefaults_nonFinite (s : State) :
    s.loadDefaults.nonFinite = (s.nonFinite || !(calculator s.cfg s.cfg.kDefault s.cfg.qDefault).words.all isFinite) := by
  simp [State.loadDefaults]

theorem State.loadDefaults_reserved (s : State) : field s.loadDefaults.status 31 8 = field s.status 31 8 := by
  unfold State.loadDefaults
  rw [State.noteFinite_reserved, State.setInit_status, reserved_setBit (by decide), State.clearDirty_status,
    reserved_clearBit (by decide)]
  rfl

/-! ### Every command -/

/-- No command touches the error record (R39). -/
@[simp] theorem execState_errInfo (i : Instr) (s : State) : (execState i s).errInfo = s.errInfo := by
  cases i <;> simp [execState]

@[simp] theorem execState_err (i : Instr) (s : State) : (execState i s).err = s.err := by
  cases i <;> simp [execState]

@[simp] theorem execState_errCode (i : Instr) (s : State) : (execState i s).errCode = s.errCode := by
  cases i <;> simp [execState]

/-- No command touches the parser or the words that wait (log entry 5). -/
@[simp] theorem execState_parser (i : Instr) (s : State) : (execState i s).parser = s.parser := by
  cases i <;> simp [execState]

@[simp] theorem execState_cmdPort (i : Instr) (s : State) : (execState i s).cmdPort = s.cmdPort := by
  cases i <;> simp [execState]

/-- No command touches the reserved bits of STATUS (R37). -/
theorem execState_reserved (i : Instr) (s : State) : field (execState i s).status 31 8 = field s.status 31 8 := by
  cases i with
  | nop | reset | readInst | readCtrl => rfl
  | init => exact s.loadDefaults_reserved
  | assign ch c => exact State.noteFinite_reserved (s.writeCoef ch c) c.words
  | process ch x => exact s.sample_reserved ch x
  | compute k q => exact State.noteFinite_reserved (s.respond _) _
  | broadcast c => exact State.noteFinite_reserved (s.writeAllCoefs c) c.words
  | ctrlSet idx v => exact s.storeControl_reserved idx v
  | block fs => exact (s.commitIfDirty.frames_reserved fs).trans s.commitIfDirty_reserved

/-- On the response port a command only appends (R40). -/
theorem execState_responses (i : Instr) (s : State) : ∃ ys, (execState i s).responses = s.responses ++ ys := by
  cases i with
  | nop | init | reset | assign | broadcast | ctrlSet => exact ⟨[], by simp [execState]⟩
  | process ch x => exact ⟨_, s.sample_responses ch x⟩
  | compute k q => exact ⟨_, State.noteFinite_responses (s.respond _) _⟩
  | block fs =>
    obtain ⟨ys, hy, -⟩ := s.commitIfDirty.frames_responses fs
    exact ⟨ys, hy.trans (by rw [State.commitIfDirty_responses])⟩
  | readInst | readCtrl => exact ⟨_, rfl⟩

/-- Who writes P_K (R35). -/
theorem execState_pK_of_ne {i : Instr} {s : State} (h : (execState i s).pK ≠ s.pK) : i = .init ∨ ∃ v, i = .ctrlSet 0 v := by
  cases i with
  | init => exact .inl rfl
  | ctrlSet idx v =>
    by_cases hi : idx = 0
    · exact .inr ⟨v, by rw [hi]⟩
    · simp only [execState, State.storeControl_pK, if_neg hi, ne_eq, not_true_eq_false] at h
  | _ => simp [execState] at h

/-- Who writes P_Q (R36). -/
theorem execState_pQ_of_ne {i : Instr} {s : State} (h : (execState i s).pQ ≠ s.pQ) : i = .init ∨ ∃ v, i = .ctrlSet 1 v := by
  cases i with
  | init => exact .inl rfl
  | ctrlSet idx v =>
    by_cases hi : idx = 1
    · exact .inr ⟨v, by rw [hi]⟩
    · simp only [execState, State.storeControl_pQ, if_neg hi, ne_eq, not_true_eq_false] at h
  | _ => simp [execState] at h

/-- Who sets DIRTY (R37, R38): an update of a known index. -/
theorem execState_sets_dirty {i : Instr} {s : State} (ht : (execState i s).dirty = true) (hs : s.dirty = false) :
    updatesControl i = true := by
  cases i with
  | ctrlSet idx v => simpa [execState, hs] using ht
  | _ => simp [execState, hs] at ht

/-- Who clears DIRTY (R37, R38): INIT, or a BLOCK, which commits. -/
theorem execState_clears_dirty {i : Instr} {s : State} (ht : (execState i s).dirty = false) (hs : s.dirty = true) :
    i = .init ∨ ∃ fs, i = .block fs := by
  cases i with
  | init => exact .inl rfl
  | block fs => exact .inr ⟨fs, rfl⟩
  | _ => simp [execState, hs] at ht

/-! ### The statements -/

/-- Settles O35, field by field from the frame of a command. -/
theorem onlyTheNamedCommandsWriteControlState : Obligations.OnlyTheNamedCommandsWriteControlState := by
  intro i s t h
  obtain rfl := exec_eq_next_iff.mp h
  exact ⟨execState_pK_of_ne, execState_pQ_of_ne, execState_sets_dirty, execState_clears_dirty, execState_initDone i s,
    execState_reserved i s, execState_responses i s, execState_parser i s, execState_cmdPort i s, execState_resetLine i s,
    execState_cfg i s⟩

/-- Settles O29: of the four things a step can be, only hardware reset takes a word out of the queue; the host reads its head. -/
theorem responseQueueIsFirstInFirstOut : Obligations.ResponseQueueIsFirstInFirstOut := by
  refine ⟨fun s t hr h => ?_, fun s hq => by simp [State.hostRead, hq], fun s w ws hq => by simp [State.hostRead, hq]⟩
  rcases step_cases h with ⟨hr', -⟩ | ⟨-, -, ⟨i, rest, -, rfl⟩ | ⟨cause, w, rest, -, rfl⟩ | ⟨w, need, got, -, rfl⟩⟩
  · simp [hr] at hr'
  · exact execState_responses i _
  · exact ⟨[], by simp⟩
  · exact ⟨[], by simp⟩

end Sys2Proof.Machine
end

section
/-! Who writes the registers of a channel (spec/10_state.md R32 to R34), and four-channel coherence (R44, R176). -/

namespace Sys2Proof.Machine

/-! ### Coefficients -/

/-- What a command can do to the four coefficient sets (R32): leave them, load one set into all four (BROADCAST, INIT, a BLOCK that
commits), or load one channel's (ASSIGN). -/
theorem execState_coef_cases (i : Instr) (s : State) :
    (∀ ch, (execState i s).coef ch = s.coef ch) ∨
    (((∃ c, i = .broadcast c) ∨ i = .init ∨ ∃ fs, i = .block fs ∧ s.dirty = true) ∧
      ∃ c, ∀ ch, (execState i s).coef ch = c) ∨
    ∃ ch c, i = .assign ch c ∧ ∀ ch', (execState i s).coef ch' = if ch' = ch then c else s.coef ch' := by
  cases i with
  | init => exact .inr (.inl ⟨.inr (.inl rfl), _, s.loadDefaults_coef⟩)
  | assign ch c => exact .inr (.inr ⟨ch, c, rfl, fun ch' => by simp [execState]⟩)
  | broadcast c => exact .inr (.inl ⟨.inl ⟨c, rfl⟩, c, fun ch => by simp [execState]⟩)
  | block fs =>
    by_cases hd : s.dirty = true
    · exact .inr (.inl ⟨.inr (.inr ⟨fs, rfl, hd⟩), calculator s.cfg s.pK s.pQ, fun ch => by simp [execState, hd]⟩)
    · exact .inl fun ch => by simp [execState, hd]
  | _ => exact .inl fun ch => by simp [execState]

/-- Settles O33: of the three things a command can do to the sets, two are a write, and ASSIGN's is to its own channel. -/
theorem onlyTheNamedCommandsWriteCoefficients : Obligations.OnlyTheNamedCommandsWriteCoefficients := by
  intro i s t ch h hne
  obtain rfl := exec_eq_next_iff.mp h
  rcases execState_coef_cases i s with hsame | ⟨hi, -⟩ | ⟨ch', c, rfl, hc⟩
  · exact absurd (hsame ch) hne
  · exact .inr hi
  · by_cases hch : ch = ch'
    · exact .inl ⟨c, by rw [hch]⟩
    · exact absurd (by rw [hc, if_neg hch]) hne

/-! ### Delay registers -/

/-- Settles O34, command by command: the others leave both delay registers of the channel. -/
theorem onlyTheNamedCommandsWriteDelays : Obligations.OnlyTheNamedCommandsWriteDelays := by
  intro i s t ch h hne
  obtain rfl := exec_eq_next_iff.mp h
  cases i with
  | init => exact .inr (.inr (.inl rfl))
  | reset ch' =>
    by_cases hch : ch = ch'
    · exact .inr (.inl (by rw [hch]))
    · simp [execState, hch] at hne
  | process ch' x =>
    by_cases hch : ch = ch'
    · exact .inl ⟨x, by rw [hch]⟩
    · simp [execState, hch] at hne
  | block fs =>
    by_cases hfs : fs = []
    · simp [execState, hfs] at hne
    · exact .inr (.inr (.inr ⟨fs, rfl, hfs⟩))
  | _ => simp [execState] at hne

/-! ### Coherence -/

theorem coherent_of_all_eq {s : State} {c : CoefSet Word} (h : ∀ ch, s.coef ch = c) : Coherent s :=
  fun ch => (h ch).trans (h .mainLeft).symm

/-- States with the same coefficient sets are coherent together. -/
theorem Coherent.of_coef_eq {s t : State} (hs : Coherent s) (h : ∀ ch, t.coef ch = s.coef ch) : Coherent t :=
  fun ch => by rw [h, h, hs ch]

/-- INIT, BROADCAST and a BLOCK that commits load one set into all four channels. -/
theorem coherent_execState_of_load {i : Instr} {s : State}
    (hi : i = .init ∨ (∃ c, i = .broadcast c) ∨ ∃ fs, i = .block fs ∧ s.dirty = true) : Coherent (execState i s) := by
  rcases hi with rfl | ⟨c, rfl⟩ | ⟨fs, rfl, hd⟩
  · exact coherent_of_all_eq s.loadDefaults_coef
  · exact coherent_of_all_eq (c := c) fun ch => by simp [execState]
  · exact coherent_of_all_eq (c := calculator s.cfg s.pK s.pQ) fun ch => by simp [execState, hd]

/-- No command but ASSIGN tells the channels apart. -/
theorem coherent_execState {i : Instr} {s : State} (hs : Coherent s) (hi : ∀ ch c, i ≠ .assign ch c) :
    Coherent (execState i s) := by
  rcases execState_coef_cases i s with hsame | ⟨-, c, hall⟩ | ⟨ch, c, rfl, -⟩
  · exact hs.of_coef_eq hsame
  · exact coherent_of_all_eq hall
  · exact absurd rfl (hi ch c)

theorem coherent_hardwareReset (s : State) : Coherent s.hardwareReset :=
  coherent_of_all_eq fun ch => (s.hardwareReset_registers ch).1

/-- Settles O38: loading one set into all four channels makes them agree, and of the four things a step can be only an ASSIGN sets them
apart. -/
theorem coherenceHoldsUntilAnAssign : Obligations.CoherenceHoldsUntilAnAssign := by
  refine ⟨fun i s t h hi => ?_, fun s t hs hassign h => ?_⟩
  · obtain rfl := exec_eq_next_iff.mp h
    exact coherent_execState_of_load hi
  · rcases step_cases h with ⟨-, rfl⟩ | ⟨hr, hp, ⟨i, rest, hd, rfl⟩ | ⟨cause, w, rest, -, rfl⟩ | ⟨w, need, got, -, rfl⟩⟩
    · exact coherent_hardwareReset s
    · refine coherent_execState (hs.of_coef_eq fun _ => rfl) fun ch c hi => ?_
      exact hassign ch c _ (hi ▸ fetch_run hr hp hd)
    · exact hs.of_coef_eq fun ch => by simp only [State.raiseIllegal_coef]; rfl
    · exact hs.of_coef_eq fun _ => rfl

end Sys2Proof.Machine
end

section
/-! The invariant of the machine (spec/10_state.md R37, R39, R41; spec/60_exceptions.md R221, R222, R225), part by part: reset meets it
and every step keeps it. -/

namespace Sys2Proof.Machine

/-! ### What the decoder says of a header that it does not run (R86, R87) -/

theorem decode_illegal {ws : List Word} {cause : IllegalCause} {h : Word} {rest : List Word}
    (hd : decode ws = .illegal cause h rest) : decodeHeader h = .error cause := by
  cases ws with
  | nil => cases hd
  | cons w ws =>
    unfold decode at hd
    cases hw : decodeHeader w with
    | error cause' =>
      simp only [hw, Decoded.illegal.injEq] at hd
      obtain ⟨rfl, rfl, -⟩ := hd
      exact hw
    | ok op =>
      simp only [hw] at hd
      split at hd <;> cases hd

/-- A packet that is cut short leaves a sound COLLECT state (R41). -/
theorem decode_truncated {ws : List Word} {h : Word} {need : Nat} {got : List Word}
    (hd : decode ws = .truncated h need got) : ParserSound (.collect h need got) := by
  cases ws with
  | nil => cases hd
  | cons w ws =>
    unfold decode at hd
    cases hw : decodeHeader w with
    | error cause => simp only [hw, reduceCtorEq] at hd
    | ok op =>
      simp only [hw] at hd
      split_ifs at hd with hlen
      cases hd
      rw [hasAtLeast_iff, not_le] at hlen
      exact ⟨op, hw, rfl, hlen⟩

/-! ### The error record (R39, R221) -/

theorem ErrorRecord.congr {s t : State} (hs : ErrorRecord s) (he : t.err = s.err) (hc : t.errCode = s.errCode)
    (hi : t.errInfo = s.errInfo) : ErrorRecord t := by
  unfold ErrorRecord at *
  rwa [he, hc, hi]

/-- The first illegal header becomes the record, and a later one leaves it. -/
theorem ErrorRecord.raiseIllegal {s : State} (hs : ErrorRecord s) {cause : IllegalCause} {h : Word}
    (hd : decodeHeader h = .error cause) : ErrorRecord (s.raiseIllegal cause h) := by
  unfold ErrorRecord at *
  rw [State.raiseIllegal_err, State.raiseIllegal_errInfo, State.raiseIllegal_errCode, if_pos rfl]
  by_cases he : s.err = true
  · simpa [he] using hs
  · simpa [he] using ⟨cause, hd, rfl⟩

/-! ### Finite registers (R225) -/

/-- While NF is 0, no NaN and no infinity stands in a register: the last part of the invariant. -/
def FiniteUnlessNoted (s : State) : Prop := s.nonFinite = false → AllFinite s

theorem FiniteUnlessNoted.congr {s t : State} (hs : FiniteUnlessNoted s) (hn : t.nonFinite = s.nonFinite)
    (hr : ∀ ch, t.coef ch = s.coef ch ∧ t.z1 ch = s.z1 ch ∧ t.z2 ch = s.z2 ch) : FiniteUnlessNoted t := by
  intro ht ch
  obtain ⟨hc, h1, h2⟩ := hr ch
  rw [hc, h1, h2]
  exact hs (hn ▸ ht) ch

/-- Storing words and noting them keeps the registers finite while NF is 0. -/
theorem FiniteUnlessNoted.store {s t : State} (hs : FiniteUnlessNoted s) {ws : List Word}
    (hn : t.nonFinite = (s.nonFinite || !ws.all isFinite))
    (hr : AllFinite s → ws.all isFinite = true → AllFinite t) : FiniteUnlessNoted t := by
  intro ht
  rw [hn, Bool.or_eq_false_iff, Bool.not_eq_false'] at ht
  exact hr (hs ht.1) ht.2

theorem FiniteUnlessNoted.sample {s : State} (hs : FiniteUnlessNoted s) (ch : Channel) (x : Word) :
    FiniteUnlessNoted (s.sample ch x) := by
  refine hs.store (s.sample_nonFinite ch x) fun ha hw ch' => ?_
  simp only [List.all_cons, List.all_nil, Bool.and_true, Bool.and_eq_true] at hw
  obtain ⟨-, h1, h2⟩ := hw
  obtain ⟨ac, a1, a2⟩ := ha ch'
  rw [State.sample_coef, State.sample_z1, State.sample_z2]
  split
  · exact ⟨ac, h1, h2⟩
  · exact ⟨ac, a1, a2⟩

theorem FiniteUnlessNoted.commitIfDirty {s : State} (hs : FiniteUnlessNoted s) : FiniteUnlessNoted s.commitIfDirty := by
  unfold State.commitIfDirty
  split
  · refine hs.store s.commit_nonFinite fun ha hw ch => ?_
    rw [State.commit_coef, State.commit_z1, State.commit_z2]
    exact ⟨hw, (ha ch).2⟩
  · exact hs

theorem isFinite_zero : isFinite 0 = true := by decide

/-- Every command keeps the registers finite while NF is 0. -/
theorem finiteUnlessNoted_execState {s : State} (hs : FiniteUnlessNoted s) (i : Instr) : FiniteUnlessNoted (execState i s) := by
  cases i with
  | nop | readInst | readCtrl => exact hs
  | init =>
    refine hs.store s.loadDefaults_nonFinite fun _ hw ch => ?_
    rw [execState, State.loadDefaults_coef, State.loadDefaults_z1, State.loadDefaults_z2]
    exact ⟨hw, isFinite_zero, isFinite_zero⟩
  | reset ch =>
    intro hn ch'
    obtain ⟨hc, h1, h2⟩ := hs hn ch'
    rw [execState, State.writeDelay_coef, State.writeDelay_z1, State.writeDelay_z2]
    split
    · exact ⟨hc, isFinite_zero, isFinite_zero⟩
    · exact ⟨hc, h1, h2⟩
  | assign ch c =>
    refine hs.store (State.noteFinite_nonFinite (s.writeCoef ch c) c.words) fun ha hw ch' => ?_
    simp only [execState, State.noteFinite_coef, State.noteFinite_z1, State.noteFinite_z2, State.writeCoef_coef,
      State.writeCoef_z1, State.writeCoef_z2]
    split
    · exact ⟨hw, (ha ch').2⟩
    · exact ha ch'
  | process ch x => exact hs.sample ch x
  | compute k q =>
    exact hs.store (State.noteFinite_nonFinite (s.respond _) _) fun ha _ ch => by simpa [execState] using ha ch
  | broadcast c =>
    refine hs.store (State.noteFinite_nonFinite (s.writeAllCoefs c) c.words) fun ha hw ch => ?_
    simp only [execState, State.noteFinite_coef, State.noteFinite_z1, State.noteFinite_z2, State.writeAllCoefs_coef,
      State.writeAllCoefs_z1, State.writeAllCoefs_z2]
    exact ⟨hw, (ha ch).2⟩
  | ctrlSet idx v => exact hs.congr (s.storeControl_nonFinite idx v) fun ch => by simp [execState]
  | block fs => exact State.frames_induction (fun _ ch x h => h.sample ch x) _ fs hs.commitIfDirty

/-! ### The invariant -/

theorem parserSound_idle : ParserSound .idle := trivial

theorem State.hardwareReset_err (s : State) : s.hardwareReset.err = false := show (0 : Word).getLsbD errBit = false by decide

theorem State.hardwareReset_errCode (s : State) : s.hardwareReset.errCode = 0 := show errCodeField 0 = 0 by decide

theorem inv_hardwareReset (s : State) : Inv s.hardwareReset where
  reserved := show field 0 31 8 = 0 by decide
  record := by
    rw [ErrorRecord, s.hardwareReset_err, if_neg Bool.false_ne_true]
    exact ⟨s.hardwareReset_errCode, rfl⟩
  parser := parserSound_idle
  finite _ ch := by
    obtain ⟨hc, h1, h2⟩ := s.hardwareReset_registers ch
    rw [hc, h1, h2]
    decide

/-- Putting words on the command port, or a sound parser state in place of another, keeps the invariant. -/
theorem Inv.withParser {s : State} (hs : Inv s) {p : Parser} (hp : ParserSound p) (port : List Word) :
    Inv { s with parser := p, cmdPort := port } :=
  ⟨hs.reserved, hs.record, hp, hs.finite⟩

theorem inv_execState {s : State} (hs : Inv s) (i : Instr) : Inv (execState i s) where
  reserved := (execState_reserved i s).trans hs.reserved
  record := hs.record.congr (execState_err i s) (execState_errCode i s) (execState_errInfo i s)
  parser := (execState_parser i s).symm ▸ hs.parser
  finite := finiteUnlessNoted_execState hs.finite i

theorem Inv.raiseIllegal {s : State} (hs : Inv s) {cause : IllegalCause} {h : Word} (hd : decodeHeader h = .error cause) :
    Inv (s.raiseIllegal cause h) where
  reserved := (s.raiseIllegal_reserved cause h).trans hs.reserved
  record := hs.record.raiseIllegal hd
  parser := (s.raiseIllegal_parser cause h).symm ▸ hs.parser
  finite := FiniteUnlessNoted.congr hs.finite (s.raiseIllegal_nonFinite cause h) fun ch => by simp

/-- Settles O27: each of the four things a step can be keeps the invariant. -/
theorem everyStepKeepsTheInvariant : Obligations.EveryStepKeepsTheInvariant := by
  intro s t hs h
  rcases step_cases h with ⟨-, rfl⟩ | ⟨-, -, ⟨i, rest, -, rfl⟩ | ⟨cause, w, rest, hd, rfl⟩ | ⟨w, need, got, hd, rfl⟩⟩
  · exact inv_hardwareReset s
  · exact inv_execState (hs.withParser parserSound_idle rest) i
  · exact (hs.withParser parserSound_idle rest).raiseIllegal (decode_illegal hd)
  · exact hs.withParser (decode_truncated hd) []

/-- Settles O28: the reset state is what hardware reset leaves of itself. -/
theorem resetStateMeetsTheInvariant : Obligations.ResetStateMeetsTheInvariant := inv_hardwareReset State.reset

/-- Settles O26: the registers as hardware reset leaves them, and the other fields by definition. -/
theorem resetStateHoldsTheResetValues : Obligations.ResetStateHoldsTheResetValues :=
  ⟨State.hardwareReset_registers State.reset, rfl, rfl, rfl, rfl, rfl, rfl, rfl, rfl, rfl, rfl, rfl⟩

end Sys2Proof.Machine
end

section
/-! The decoder of STATUS words (spec/10_state.md R37; spec/93_implementation_defined.md I12, I13). -/

namespace Sys2Proof.Machine

/-- The fields of a STATUS word under a cause. -/
def statusFields (w : Word) (cause : Option IllegalCause) : StatusFields :=
  { dirty := w.getLsbD dirtyBit, initDone := w.getLsbD initBit, err := w.getLsbD errBit, nonFinite := w.getLsbD nfBit, cause := cause }

/-- ERRCODE 0 stands for no error. -/
theorem decodeStatus_noError {w : Word} (hr : field w 31 8 = 0) (hc : errCodeField w = 0) :
    decodeStatus w = some (statusFields w none) := by
  simp only [decodeStatus, hr, hc]
  rfl

/-- ERRCODE 1 and 2 stand for their causes (R222). -/
theorem decodeStatus_cause {w : Word} (hr : field w 31 8 = 0) {cause : IllegalCause} (hc : errCodeField w = causeCode cause) :
    decodeStatus w = some (statusFields w (some cause)) := by
  cases cause <;> simp only [decodeStatus, hr, hc] <;> rfl

/-- A reserved bit, or an ERRCODE from 3 on, is refused. -/
theorem decodeStatus_refuses {w : Word} (h : field w 31 8 ≠ 0 ∨ 3 ≤ errCodeField w) : decodeStatus w = none := by
  unfold decodeStatus
  split_ifs with hr
  · rfl
  · have hc := h.resolve_left hr
    dsimp only
    split
    · omega
    · omega
    · omega
    · rfl

theorem decodeStatus_eq_none_iff (w : Word) : decodeStatus w = none ↔ field w 31 8 ≠ 0 ∨ 3 ≤ errCodeField w := by
  refine ⟨fun h => ?_, decodeStatus_refuses⟩
  by_contra hn
  rw [not_or, not_not] at hn
  obtain ⟨hr, hc⟩ := hn
  have hcode : errCodeField w = 0 ∨ errCodeField w = causeCode .unknownOpcode ∨ errCodeField w = causeCode .reservedBits := by
    simp only [causeCode]
    omega
  rcases hcode with h0 | h1 | h2
  · simp [decodeStatus_noError hr h0] at h
  · simp [decodeStatus_cause hr h1] at h
  · simp [decodeStatus_cause hr h2] at h

/-- Settles O32: in a sound state the error record says which of the three codes stands in STATUS. -/
theorem statusWordOfASoundStateDecodes : Obligations.StatusWordOfASoundStateDecodes := by
  refine ⟨fun s hs => ?_, decodeStatus_eq_none_iff⟩
  have hrecord := hs.record
  unfold ErrorRecord at hrecord
  by_cases he : s.err = true
  · rw [if_pos he] at hrecord
    obtain ⟨cause, -, hc⟩ := hrecord
    refine ⟨_, decodeStatus_cause hs.reserved hc, rfl, rfl, rfl, rfl, by simp [statusFields, he], fun cause' h => ?_⟩
    obtain rfl : cause = cause' := Option.some.inj h
    exact hc
  · rw [if_neg he] at hrecord
    exact ⟨_, decodeStatus_noError hs.reserved hrecord.1, rfl, rfl, rfl, rfl, by simpa [statusFields] using he, fun _ h => nomatch h⟩

end Sys2Proof.Machine
end

section
/-! Channel isolation (spec/10_state.md R34; spec/42_update_protocol.md R173): what a frame does on a channel, from that channel's
registers alone. -/

namespace Sys2Proof.Machine

/-! ### One frame on one channel -/

/-- What a frame computes on a channel, from the registers before the frame: the channels before it in response order have only used
up draw numbers. -/
def State.frameResult (s : State) (ch : Channel) (x : Word) : SosResult Word :=
  sosUpdate (floatArith s.cfg (fun i => .sample (s.nanDraws + ch.index * sosOps + i))) (s.coef ch) (s.z1 ch) (s.z2 ch) x

@[simp] theorem State.frame_cfg (s : State) (f : Frame) : (s.frame f).cfg = s.cfg := by simp [State.frame]

@[simp] theorem State.frame_nanDraws (s : State) (f : Frame) : (s.frame f).nanDraws = s.nanDraws + 4 * sosOps := by
  simp only [State.frame, State.sample_nanDraws]
  omega

@[simp] theorem State.frame_coef (s : State) (f : Frame) (ch : Channel) : (s.frame f).coef ch = s.coef ch := by
  simp [State.frame]

/-- The delay registers after a frame are those that it computes on the channel. -/
theorem State.frame_registers (s : State) (f : Frame) (ch : Channel) :
    (s.frame f).z1 ch = (s.frameResult ch (frameSample f ch)).nz1 ∧ (s.frame f).z2 ch = (s.frameResult ch (frameSample f ch)).nz2 := by
  cases ch <;> simp [State.frame, State.sosResult, State.frameResult, frameSample, Channel.index, sosOps, Nat.add_assoc]

/-- A frame answers the channels in response order. -/
theorem State.frame_answers (s : State) (f : Frame) (ch : Channel) :
    (s.frame f).responses[s.responses.length + ch.index]? = some (s.frameResult ch (frameSample f ch)).acc := by
  cases ch <;> simp [State.frame, State.sosResult, State.frameResult, frameSample, Channel.index, sosOps, Nat.add_assoc]

theorem channelIndex_lt (ch : Channel) : ch.index < 4 := by cases ch <;> decide

/-! ### Two states that agree on a channel -/

/-- The states agree on all that a channel reads: its registers, and the model's parameters and draw number (log entries 1, 3). -/
structure AgreeOn (ch : Channel) (s t : State) : Prop where
  coef     : s.coef ch = t.coef ch
  z1       : s.z1 ch = t.z1 ch
  z2       : s.z2 ch = t.z2 ch
  cfg      : s.cfg = t.cfg
  nanDraws : s.nanDraws = t.nanDraws

theorem AgreeOn.registers {ch : Channel} {s t : State} (h : AgreeOn ch s t) : s.bank.get ch = t.bank.get ch := by
  change FilterInstance.mk (s.coef ch) (s.z1 ch) (s.z2 ch) = ⟨t.coef ch, t.z1 ch, t.z2 ch⟩
  rw [h.coef, h.z1, h.z2]

theorem AgreeOn.frameResult {ch : Channel} {s t : State} (h : AgreeOn ch s t) (x : Word) :
    s.frameResult ch x = t.frameResult ch x := by
  simp only [State.frameResult, h.coef, h.z1, h.z2, h.cfg, h.nanDraws]

/-- One frame with the same sample on the channel keeps the agreement. -/
theorem AgreeOn.frame {ch : Channel} {s t : State} (h : AgreeOn ch s t) {f g : Frame} (hx : frameSample f ch = frameSample g ch) :
    AgreeOn ch (s.frame f) (t.frame g) where
  coef := by rw [State.frame_coef, State.frame_coef, h.coef]
  z1 := by rw [(s.frame_registers f ch).1, (t.frame_registers g ch).1, hx, h.frameResult]
  z2 := by rw [(s.frame_registers f ch).2, (t.frame_registers g ch).2, hx, h.frameResult]
  cfg := by rw [State.frame_cfg, State.frame_cfg, h.cfg]
  nanDraws := by rw [State.frame_nanDraws, State.frame_nanDraws, h.nanDraws]

/-- Frames with the same samples on the channel keep the agreement. -/
theorem AgreeOn.frames {ch : Channel} {s t : State} (h : AgreeOn ch s t) {fs gs : List Frame}
    (hx : fs.map (frameSample · ch) = gs.map (frameSample · ch)) : AgreeOn ch (s.frames fs) (t.frames gs) := by
  induction fs generalizing s t gs with
  | nil =>
    obtain rfl := List.map_eq_nil_iff.mp hx.symm
    exact h
  | cons f fs ih =>
    obtain ⟨g, gs, rfl, hf, hfs⟩ := List.map_eq_cons_iff.mp hx.symm
    exact ih (h.frame hf.symm) hfs.symm

/-- What the first frame of a block answers for a channel stays in its place. -/
theorem State.frames_answers_first (s : State) (f : Frame) (fs : List Frame) (ch : Channel) :
    (s.frames (f :: fs)).responses[s.responses.length + ch.index]? = some (s.frameResult ch (frameSample f ch)).acc := by
  obtain ⟨ys, hy, hly⟩ := s.frame_responses f
  obtain ⟨zs, hz, -⟩ := (s.frame f).frames_responses fs
  have hlen : s.responses.length + ch.index < (s.frame f).responses.length := by
    rw [hy, List.length_append, hly]
    exact Nat.add_lt_add_left (channelIndex_lt ch) _
  rw [State.frames_cons, hz, List.getElem?_append_left hlen, s.frame_answers]

/-- The answers for the channel are the same, frame by frame. -/
theorem AgreeOn.frames_answers {ch : Channel} {s t : State} (h : AgreeOn ch s t) {fs gs : List Frame}
    (hx : fs.map (frameSample · ch) = gs.map (frameSample · ch)) {n : Nat} (hn : n < fs.length) :
    (s.frames fs).responses[s.responses.length + 4 * n + ch.index]? =
      (t.frames gs).responses[t.responses.length + 4 * n + ch.index]? := by
  induction fs generalizing s t gs n with
  | nil => cases hn
  | cons f fs ih =>
    obtain ⟨g, gs, rfl, hf, hfs⟩ := List.map_eq_cons_iff.mp hx.symm
    cases n with
    | zero =>
      rw [Nat.mul_zero, Nat.add_zero, Nat.add_zero, s.frames_answers_first, t.frames_answers_first, hf, h.frameResult]
    | succ n =>
      have hplace (u : State) (k : Frame) :
          u.responses.length + 4 * (n + 1) + ch.index = (u.frame k).responses.length + 4 * n + ch.index := by
        obtain ⟨ys, hy, hly⟩ := u.frame_responses k
        rw [hy, List.length_append, hly]
        omega
      rw [hplace s f, hplace t g]
      exact ih (h.frame hf.symm) hfs.symm (Nat.lt_of_succ_lt_succ hn)

/-- The commit step loads the same set where it reads the same pending parameters (R172). -/
theorem agreeOn_commitIfDirty {ch : Channel} {s t : State} (h1 : s.z1 ch = t.z1 ch) (h2 : s.z2 ch = t.z2 ch)
    (hcfg : s.cfg = t.cfg) (hn : s.nanDraws = t.nanDraws) (hd : s.dirty = t.dirty)
    (hcoef : s.dirty = false → s.coef ch = t.coef ch) (hpending : s.dirty = true → s.pK = t.pK ∧ s.pQ = t.pQ) :
    AgreeOn ch s.commitIfDirty t.commitIfDirty where
  coef := by
    rw [State.commitIfDirty_coef, State.commitIfDirty_coef, ← hd]
    cases hs : s.dirty with
    | false => simpa using hcoef hs
    | true => simp only [if_true, hcfg, (hpending hs).1, (hpending hs).2]
  z1 := by rw [State.commitIfDirty_z1, State.commitIfDirty_z1, h1]
  z2 := by rw [State.commitIfDirty_z2, State.commitIfDirty_z2, h2]
  cfg := by rw [State.commitIfDirty_cfg, State.commitIfDirty_cfg, hcfg]
  nanDraws := by rw [State.commitIfDirty_nanDraws, State.commitIfDirty_nanDraws, hn]

/-- Settles O42: the states agree on the channel after the commit step, and every frame keeps that and answers the same for it. -/
theorem channelsDoNotInterfere : Obligations.ChannelsDoNotInterfere := by
  intro ch fs fs' s s' t t' h1 h2 hcfg hn hd hcoef hpending hx ht ht'
  obtain rfl := exec_eq_next_iff.mp ht
  obtain rfl := exec_eq_next_iff.mp ht'
  have hagree := agreeOn_commitIfDirty h1 h2 hcfg hn hd hcoef hpending
  refine ⟨(hagree.frames hx).registers, fun n hlt => ?_⟩
  have hanswers := hagree.frames_answers hx hlt
  rwa [State.commitIfDirty_responses, State.commitIfDirty_responses] at hanswers

end Sys2Proof.Machine
end

section
/-! Decode after encode (spec/30_encoding.md R86 to R89): a command's header and operand words spell the command, whole or cut short. -/

namespace Sys2Proof

/-- Every well-formed command's header asks for the operand words that follow it, family PacketHeader for any command (R89). -/
theorem Instr.packetHeader (i : Instr) : Laws.PacketHeader.Statement i := by
  cases i with
  | nop => exact Laws.PacketHeader.nop
  | init => exact Laws.PacketHeader.init
  | reset ch => exact Laws.PacketHeader.reset ch
  | assign ch c => exact Laws.PacketHeader.assign ch c
  | process ch x => exact Laws.PacketHeader.process ch x
  | compute k q => exact Laws.PacketHeader.compute k q
  | broadcast c => exact Laws.PacketHeader.broadcast c
  | ctrlSet idx v => exact Laws.PacketHeader.ctrlSet idx v
  | block frames => exact Laws.PacketHeader.block frames
  | readInst ch => exact Laws.PacketHeader.readInst ch
  | readCtrl => exact Laws.PacketHeader.readCtrl

/-- The CH field of a written header names the channel again (R83). -/
theorem ofField_chField_header (op : Op) (ch : Channel) : Channel.ofField (chField (header op ch.index 0)) = ch := by
  cases op <;> cases ch <;> rfl

/-- The header and the operand words of a command spell that command (R80 to R85). -/
theorem assemblePacket_header_operands (i : Instr) : assemblePacket i.op i.header i.operands = i := by
  cases i with
  | nop | init | compute | broadcast | readCtrl => rfl
  | reset ch => exact congrArg Instr.reset (ofField_chField_header .reset ch)
  | assign ch c => exact congrArg (Instr.assign · c) (ofField_chField_header .assign ch)
  | process ch x => exact congrArg (Instr.process · x) (ofField_chField_header .process ch)
  | readInst ch => exact congrArg Instr.readInst (ofField_chField_header .readInst ch)
  | block frames => exact congrArg Instr.block (framesOf_words frames)
  | ctrlSet idx v =>
    have hidx : BitVec.ofNat 16 (imm16Field (header .ctrlSet 0 idx.toNat)) = idx := by
      rw [header_imm, imm16Field_append, BitVec.ofNat_toNat, BitVec.setWidth_eq]
    exact congrArg (Instr.ctrlSet · v) hidx

/-- The words of a well-formed command decode to it, and the words after them stay (R86). -/
theorem decode_encode_append {i : Instr} (hi : i.wellFormed = true) (rest : List Word) :
    decode (encode i ++ rest) = .command i rest := by
  obtain ⟨hop, hcount⟩ := i.packetHeader hi
  simp [encode, decode, hop, hcount, hasAtLeast_append, assemblePacket_header_operands]

/-- The words of a well-formed command cut short decode to a partial packet that holds them (R64). -/
theorem decode_front_of_encode {i : Instr} {front back : List Word} (hi : i.wellFormed = true)
    (hcut : encode i = front ++ back) (hfront : front ≠ []) (hback : back ≠ []) :
    decode front = .truncated i.header i.operands.length front.tail := by
  obtain ⟨hop, hcount⟩ := i.packetHeader hi
  obtain ⟨h, got, rfl⟩ := List.exists_cons_of_ne_nil hfront
  obtain ⟨rfl, hops⟩ : i.header = h ∧ i.operands = got ++ back := List.cons.inj hcut
  have hshort : hasAtLeast i.operands.length got = false := by
    have := List.length_pos_of_ne_nil hback
    rw [Bool.eq_false_iff, ne_eq, hasAtLeast_iff, hops, List.length_append]
    omega
  simp [decode, hop, hcount, hshort]

end Sys2Proof
end

section
/-! Partial packets and byte transports (spec/20_memory.md R62, R64; spec/10_state.md R41): a step on words that spell a whole packet, a
step on words that do not, and the four bytes of a word. -/

namespace Sys2Proof.Machine

/-! ### What a step does with the words that are there (R64, R86) -/

/-- Words that spell a whole packet, after those that the parser holds, run it. -/
theorem step_of_command {s : State} {i : Instr} {rest : List Word} (hr : s.resetLine = false) (hp : s.cmdPort ≠ [])
    (hd : decode (s.parser.taken ++ s.cmdPort) = .command i rest) :
    step s = exec i { s with parser := .idle, cmdPort := rest } := by
  rw [step, fetch_run hr hp hd]

/-- Words that do not end their packet are collected, and nothing else happens. -/
theorem step_of_truncated {s : State} {h : Word} {need : Nat} {got : List Word} (hr : s.resetLine = false)
    (hp : s.cmdPort ≠ []) (hd : decode (s.parser.taken ++ s.cmdPort) = .truncated h need got) :
    step s = .next { s with parser := .collect h need got, cmdPort := [] } := by
  obtain ⟨w, ws, hw⟩ := List.exists_cons_of_ne_nil hp
  rw [hw] at hd
  simp [step, fetch, hr, hw, hd]

/-- Settles O22: the front decodes to a partial packet, the empty port then waits, and with the back the words held and the words on the
port are the whole packet again. -/
theorem partialPacketWaitsForItsRest : Obligations.PartialPacketWaitsForItsRest := by
  intro s i front back rest hr hidle hi hcut hfront hback hport s1
  have hcollect : decode front = .truncated i.header i.operands.length front.tail :=
    decode_front_of_encode hi hcut hfront hback
  have hheld : s1.parser.taken = front := by
    obtain ⟨h, got, rfl⟩ := List.exists_cons_of_ne_nil hfront
    exact congrArg (· :: got) (List.cons.inj hcut).1
  have hwhole : decode (s1.parser.taken ++ (back ++ rest)) = .command i rest := by
    rw [hheld, ← List.append_assoc, ← hcut]
    exact decode_encode_append hi rest
  refine ⟨step_of_truncated hr (hport ▸ hfront) ?_, step_waiting hr rfl, ?_⟩
  · rwa [hidle, hport]
  · have hrun := step_of_command (s := s1.hostWrite (back ++ rest)) hr (by simp [s1, hback]) hwhole
    rw [hrun, ← hidle]
    rfl

/-! ### The four bytes of a word (R62) -/

/-- A slice above the byte at the bottom is a slice of the rest, 8 bits lower. -/
theorem extractLsb'_above_low_byte {n : Nat} (hi : BitVec n) (lo : Byte) (k : Nat) :
    (hi ++ lo).extractLsb' (k + 8) 8 = hi.extractLsb' k 8 :=
  BitVec.extractLsb'_append_eq_of_le (Nat.le_add_left 8 k)

/-- Little-endian: the first byte off the transport is the lowest of the word, and so on upward. -/
theorem bytesOfWord_little (a b c d : Byte) : bytesOfWord .little (wordOfBytes .little a b c d) = [a, b, c, d] := by
  have ha : (d ++ c ++ b ++ a).extractLsb' 0 8 = a := BitVec.extractLsb'_append_eq_right
  have hb : (d ++ c ++ b ++ a).extractLsb' 8 8 = b :=
    (extractLsb'_above_low_byte _ a 0).trans BitVec.extractLsb'_append_eq_right
  have hc : (d ++ c ++ b ++ a).extractLsb' 16 8 = c :=
    calc (d ++ c ++ b ++ a).extractLsb' 16 8
        = (d ++ c ++ b).extractLsb' 8 8 := extractLsb'_above_low_byte _ a 8
      _ = (d ++ c).extractLsb' 0 8 := extractLsb'_above_low_byte _ b 0
      _ = c := BitVec.extractLsb'_append_eq_right
  have hd : (d ++ c ++ b ++ a).extractLsb' 24 8 = d :=
    calc (d ++ c ++ b ++ a).extractLsb' 24 8
        = (d ++ c ++ b).extractLsb' 16 8 := extractLsb'_above_low_byte _ a 16
      _ = (d ++ c).extractLsb' 8 8 := extractLsb'_above_low_byte _ b 8
      _ = d := BitVec.extractLsb'_append_eq_left
  simp only [bytesOfWord, wordOfBytes, ha, hb, hc, hd]

/-- Big-endian is little-endian with the bytes reversed, both ways (log entry 16). -/
theorem bytesOfWord_big (a b c d : Byte) : bytesOfWord .big (wordOfBytes .big a b c d) = [a, b, c, d] :=
  congrArg List.reverse (bytesOfWord_little d c b a)

/-- Settles O18: the little-endian bytes are the slices of the word, and the big-endian ones are those in reverse. -/
theorem byteTransportKeepsWords : Obligations.ByteTransportKeepsWords := by
  refine ⟨fun a b c d => ?_, fun order a b c d => ?_⟩
  · obtain ⟨ha, -, -, hd⟩ : _ ∧ _ ∧ _ ∧ _ := by simpa [bytesOfWord] using bytesOfWord_little a b c d
    exact ⟨ha, hd⟩
  · cases order with
    | little => exact bytesOfWord_little a b c d
    | big => exact bytesOfWord_big a b c d

end Sys2Proof.Machine
end

section
/-! The encoding read both ways (spec/30_encoding.md R80 to R93): which headers are legal and with which row, and a packet's words from
its command. -/

namespace Sys2Proof

open Sys2Proof.Machine (field_eq_slice field_eq_div field_lt field_congr)

/-! ### Words under a mask (R7) -/

/-- The mask of a range of bits. -/
def IsMask (m : Word) (hi lo : Nat) : Prop := ∀ j < 32, m.getLsbD j = decide (lo ≤ j ∧ j ≤ hi)

/-- Two words with the same field have the same bits there. -/
theorem getLsbD_eq_of_field_eq {v w : Word} {hi lo j : Nat} (h : field v hi lo = field w hi lo) (h1 : lo ≤ j) (h2 : j ≤ hi) :
    v.getLsbD j = w.getLsbD j := by
  rw [field_eq_slice, field_eq_slice] at h
  have hbit := congrArg (·.getLsbD (j - lo)) (BitVec.eq_of_toNat_eq h)
  simpa [BitVec.getLsbD_extractLsb', show j - lo < hi + 1 - lo by omega, Nat.add_sub_cancel' h1] using hbit

/-- Two words are the same under a mask exactly when they have the same field there. -/
theorem IsMask.and_eq_and_iff {m : Word} {hi lo : Nat} (hm : IsMask m hi lo) (v w : Word) :
    v &&& m = w &&& m ↔ field v hi lo = field w hi lo := by
  constructor
  · intro h
    refine field_congr fun j h1 h2 => ?_
    by_cases hj : j < 32
    · have hbit := congrArg (·.getLsbD j) h
      simpa [hm j hj, h1, h2] using hbit
    · rw [BitVec.getLsbD_of_ge _ _ (by omega), BitVec.getLsbD_of_ge _ _ (by omega)]
  · intro h
    refine BitVec.eq_of_getLsbD_eq fun j hj => ?_
    rw [BitVec.getLsbD_and, BitVec.getLsbD_and, hm j hj]
    by_cases hin : lo ≤ j ∧ j ≤ hi
    · rw [getLsbD_eq_of_field_eq h hin.1 hin.2]
    · simp [hin]

/-- The bits of a mask are clear exactly when the field is 0. -/
theorem IsMask.and_eq_zero_iff {m : Word} {hi lo : Nat} (hm : IsMask m hi lo) (w : Word) :
    w &&& m = 0 ↔ field w hi lo = 0 := by
  simpa [field] using hm.and_eq_and_iff w 0

theorem isMask_opc : IsMask 0xFF000000 31 24 := by unfold IsMask; decide
theorem isMask_below_opc : IsMask 0x00FFFFFF 23 0 := by unfold IsMask; decide
theorem isMask_reserved : IsMask 0x00FC0000 23 18 := by unfold IsMask; decide
theorem isMask_imm16 : IsMask 0x0000FFFF 15 0 := by unfold IsMask; decide
theorem isMask_above_imm16 : IsMask 0x00FF0000 23 16 := by unfold IsMask; decide

/-- Two words are the same under two masks together exactly when they are under each. -/
theorem and_or_eq_and_or_iff (v w m n : Word) :
    v &&& (m ||| n) = w &&& (m ||| n) ↔ v &&& m = w &&& m ∧ v &&& n = w &&& n := by
  constructor
  · intro h
    have hm : (m ||| n) &&& m = m := by ext j; simpa using Or.inl
    have hn : (m ||| n) &&& n = n := by ext j; simpa using Or.inr
    constructor
    · simpa only [BitVec.and_assoc, hm] using congrArg (· &&& m) h
    · simpa only [BitVec.and_assoc, hn] using congrArg (· &&& n) h
  · rintro ⟨hm, hn⟩
    rw [BitVec.and_or_distrib_left, BitVec.and_or_distrib_left, hm, hn]

/-! ### The header by its fields (R80, R81, R87, R89) -/

theorem opcode_le (op : Op) : op.code ≤ 10 := by cases op <;> decide

/-- The opcode map read the other way (R89). -/
theorem ofCode_eq_some_iff (n : Nat) (op : Op) : Op.ofCode n = some op ↔ n = op.code := by
  constructor
  · intro h
    unfold Op.ofCode at h
    split at h <;> cases h <;> rfl
  · rintro rfl
    cases op <;> rfl

theorem ofCode_eq_none_iff (n : Nat) : Op.ofCode n = none ↔ 10 < n := by
  constructor
  · intro h
    by_contra hn
    have hle : n ≤ 10 := not_lt.mp hn
    interval_cases n <;> cases h
  · intro h
    rw [Option.eq_none_iff_forall_ne_some]
    intro op hop
    have := opcode_le op
    rw [ofCode_eq_some_iff] at hop
    omega

theorem exists_opcode {n : Nat} (h : n ≤ 10) : ∃ op : Op, n = op.code := by
  simp only [← ofCode_eq_some_iff]
  rw [← Option.ne_none_iff_exists', ne_eq, ofCode_eq_none_iff]
  exact not_lt.mpr h

/-- Check (2) of R87 for an opcode, in the fields of R80. -/
theorem mustBeZero_iff (op : Op) (h : Word) :
    h &&& op.format.mustBeZero = 0 ↔
      match op.format with
      | .fn => field h 23 0 = 0
      | .fc => field h 23 18 = 0 ∧ field h 15 0 = 0
      | .fi => field h 23 16 = 0
      | .ff => field h 23 16 = 0 := by
  cases op.format with
  | fn => exact isMask_below_opc.and_eq_zero_iff h
  | fc =>
    rw [← isMask_reserved.and_eq_zero_iff, ← isMask_imm16.and_eq_zero_iff]
    exact and_or_eq_and_or_iff h 0 0x00FC0000 0x0000FFFF
  | fi => exact isMask_above_imm16.and_eq_zero_iff h
  | ff => exact isMask_above_imm16.and_eq_zero_iff h

/-- Check (1) of R87 fails. -/
theorem decodeHeader_unknownOpcode_iff (h : Word) : decodeHeader h = .error .unknownOpcode ↔ 10 < opcField h := by
  rw [← ofCode_eq_none_iff]
  unfold decodeHeader
  cases Op.ofCode (opcField h) with
  | none => simp
  | some op =>
    dsimp only
    split <;> simp

/-- Check (1) of R87 passes and check (2) fails. -/
theorem decodeHeader_reservedBits_iff (h : Word) :
    decodeHeader h = .error .reservedBits ↔ ∃ op : Op, opcField h = op.code ∧ h &&& op.format.mustBeZero ≠ 0 := by
  simp only [← ofCode_eq_some_iff]
  unfold decodeHeader
  cases Op.ofCode (opcField h) with
  | none => simp
  | some op => by_cases hz : h &&& op.format.mustBeZero = 0 <;> simp [hz]

/-- The row of R89's table that an opcode has: OPC fixed, and the bits that its format marks 0. -/
def opRow (op : Op) : OpRow := ⟨op, header op 0 0, 0xFF000000 ||| op.format.mustBeZero⟩

theorem mem_opTable_iff (r : OpRow) : r ∈ opTable ↔ r = opRow r.op := by
  constructor
  · intro hr
    have hall : ∀ r ∈ opTable, r = opRow r.op := by decide
    exact hall r hr
  · intro hr
    rw [hr]
    cases r.op <;> decide

/-- A header matches an opcode's row exactly when it is legal with that opcode. -/
theorem matches_opRow_iff (h : Word) (op : Op) : h &&& (opRow op).mask = (opRow op).pattern ↔ decodeHeader h = .ok op := by
  have hpattern : (opRow op).pattern = header op 0 0 &&& (0xFF000000 ||| op.format.mustBeZero) := by cases op <;> decide
  have hopc : h &&& 0xFF000000 = header op 0 0 &&& 0xFF000000 ↔ opcField h = op.code := by
    rw [isMask_opc.and_eq_and_iff]
    cases op <;> rfl
  have hclear : header op 0 0 &&& op.format.mustBeZero = 0 := by cases op <;> decide
  rw [hpattern, decodeHeader_ok_iff, ofCode_eq_some_iff, ← hopc, ← hclear]
  exact and_or_eq_and_or_iff h (header op 0 0) 0xFF000000 op.format.mustBeZero

/-! ### The header from its fields (R80) -/

/-- A header is its opcode above bits 23:0. -/
theorem toNat_eq_fields (h : Word) : h.toNat = opcField h * 2 ^ 24 + field h 23 0 := by
  have := h.isLt
  simp only [opcField, field_eq_div]
  omega

/-- Bits 23:0 of a header are its reserved bits, its channel and its 16-bit field. -/
theorem below_opc_eq_fields (h : Word) : field h 23 0 = field h 23 18 * 2 ^ 18 + chField h * 2 ^ 16 + imm16Field h := by
  simp only [chField, imm16Field, field_eq_div]
  omega

/-- A header with an opcode's OPC and these fields below it is the one that the encoder writes. -/
theorem eq_header {h : Word} {op : Op} {ch imm : Nat} (hopc : opcField h = op.code) (hlow : field h 23 0 = ch * 2 ^ 16 + imm) :
    h = header op ch imm := by
  have hnum : op.code * 2 ^ 24 + ch * 2 ^ 16 + imm = h.toNat := by
    rw [toNat_eq_fields, hopc, hlow, Nat.add_assoc]
  rw [header, hnum, BitVec.ofNat_toNat, BitVec.setWidth_eq]

/-- A legal header is its opcode and the fields that its format leaves free (R81). -/
theorem eq_header_of_decodeHeader {h : Word} {op : Op} (hd : decodeHeader h = .ok op) :
    h = match op.format with
      | .fn => header op 0 0
      | .fc => header op (chField h) 0
      | .fi => header op 0 (imm16Field h)
      | .ff => header op 0 (imm16Field h) := by
  obtain ⟨hop, hz⟩ := (decodeHeader_ok_iff h op).mp hd
  rw [ofCode_eq_some_iff] at hop
  rw [mustBeZero_iff] at hz
  have hlow := below_opc_eq_fields h
  have h16 : field h 23 0 = field h 23 16 * 2 ^ 16 + imm16Field h := by
    simp only [imm16Field, field_eq_div]
    omega
  generalize op.format = f at hz ⊢
  cases f with
  | fn => exact eq_header hop (by simpa using hz)
  | fc =>
    obtain ⟨hreserved, himm⟩ := hz
    refine eq_header hop ?_
    rw [hlow, hreserved, show imm16Field h = 0 from himm, Nat.zero_mul, Nat.zero_add]
  | fi => exact eq_header hop (by simpa [hz] using h16)
  | ff => exact eq_header hop (by simpa [hz] using h16)

/-! ### The words of a command that was decoded (R82 to R89) -/

theorem index_ofField {n : Nat} (h : n < 4) : (Channel.ofField n).index = n := by interval_cases n <;> rfl

theorem chField_lt (h : Word) : chField h < 4 := field_lt h 17 16

theorem imm16Field_lt (h : Word) : imm16Field h < 65536 := field_lt h 15 0

/-- Five operand words are the words of their set (R145, R146). -/
theorem words_operandSet {ops : List Word} (h : ops.length = 5) : (operandSet ops).words = ops := by
  match ops, h with
  | [_, _, _, _, _], _ => rfl

theorem singleton_operand {ops : List Word} (h : ops.length = 1) : [operand ops 0] = ops := by
  match ops, h with
  | [_], _ => rfl

theorem pair_operands {ops : List Word} (h : ops.length = 2) : [operand ops 0, operand ops 1] = ops := by
  match ops, h with
  | [_, _], _ => rfl

/-- The command that a header and its operand words spell has those operand words. -/
theorem operands_assemblePacket {op : Op} {h : Word} {ops : List Word} (hlen : ops.length = operandCount op h) :
    (assemblePacket op h ops).operands = ops := by
  cases op with
  | nop | init | reset | readInst | readCtrl => exact (List.length_eq_zero_iff.mp hlen).symm
  | assign | broadcast => exact words_operandSet hlen
  | process | ctrlSet => exact singleton_operand hlen
  | compute => exact pair_operands hlen
  | block => exact words_framesOf ops (imm16Field h) hlen

/-- The command that a legal header and its operand words spell has that header. -/
theorem header_assemblePacket {op : Op} {h : Word} {ops : List Word} (hd : decodeHeader h = .ok op)
    (hlen : ops.length = operandCount op h) : (assemblePacket op h ops).header = h := by
  have hh := eq_header_of_decodeHeader hd
  cases op with
  | nop | init | compute | broadcast | readCtrl => exact hh.symm
  | reset | assign | process | readInst =>
    change header _ (Channel.ofField (chField h)).index 0 = h
    rw [index_ofField (chField_lt h)]
    exact hh.symm
  | ctrlSet =>
    change header .ctrlSet 0 (BitVec.ofNat 16 (imm16Field h)).toNat = h
    rw [BitVec.toNat_ofNat, Nat.mod_eq_of_lt (imm16Field_lt h)]
    exact hh.symm
  | block =>
    change header .block 0 (framesOf ops).length = h
    rw [framesOf_length ops (imm16Field h) hlen]
    exact hh.symm

/-- The command that a header and its operand words spell is well formed (R85). -/
theorem wellFormed_assemblePacket {op : Op} {h : Word} {ops : List Word} (hlen : ops.length = operandCount op h) :
    (assemblePacket op h ops).wellFormed = true := by
  cases op with
  | block =>
    refine decide_eq_true ?_
    rw [framesOf_length ops (imm16Field h) hlen]
    exact Nat.le_of_lt_succ (imm16Field_lt h)
  | nop | init | reset | assign | process | compute | broadcast | ctrlSet | readInst | readCtrl => rfl

/-- Words that decode to a command are a legal header and its operand words, and what is left (R86). -/
theorem decode_command {ws : List Word} {i : Instr} {rest : List Word} (hd : decode ws = .command i rest) :
    ∃ op h ops, ws = h :: (ops ++ rest) ∧ decodeHeader h = .ok op ∧ ops.length = operandCount op h ∧
      i = assemblePacket op h ops := by
  cases ws with
  | nil => cases hd
  | cons h ws =>
    unfold decode at hd
    cases hh : decodeHeader h with
    | error cause => simp only [hh, reduceCtorEq] at hd
    | ok op =>
      simp only [hh] at hd
      split_ifs at hd with hlen
      cases hd
      rw [hasAtLeast_iff] at hlen
      exact ⟨op, h, ws.take (operandCount op h), by rw [List.take_append_drop], hh, List.length_take_of_le hlen, rfl⟩

end Sys2Proof

namespace Sys2Proof.Machine

/-! ### The statements -/

/-- Settles O14: the header asks for the operand words that follow it, and header and operand words spell the command. -/
theorem decodeReadsBackEveryEncodedCommand : Obligations.DecodeReadsBackEveryEncodedCommand :=
  fun _ rest hi => decode_encode_append hi rest

/-- Settles O12, opcode by opcode: each has the reserved bits of its format. -/
theorem headerLegalityByFields : Obligations.HeaderLegalityByFields := by
  intro h
  refine ⟨decodeHeader_unknownOpcode_iff h, ?_, rfl, rfl⟩
  rw [decodeHeader_reservedBits_iff]
  constructor
  · rintro ⟨op, hop, hz⟩
    rw [hop]
    refine ⟨opcode_le op, fun hclear => hz ((mustBeZero_iff op h).mpr ?_)⟩
    cases op <;> exact hclear
  · rintro ⟨hle, hset⟩
    obtain ⟨op, hop⟩ := exists_opcode hle
    refine ⟨op, hop, fun hz => hset ?_⟩
    have hclear := (mustBeZero_iff op h).mp hz
    rw [hop]
    cases op <;> exact hclear

/-- Settles O13: matching a row is being legal with its opcode, so the opcode of a header tells the row. -/
theorem headerSpellsExactlyOneRow : Obligations.HeaderSpellsExactlyOneRow := by
  refine ⟨fun h op => ?_, fun h r r' hr hr' hm hm' => ?_, by decide, fun _ => rfl, fun _ _ _ _ _ _ _ _ => rfl⟩
  · rw [← matches_opRow_iff]
    constructor
    · intro hm
      exact ⟨opRow op, (mem_opTable_iff _).mpr rfl, rfl, hm⟩
    · rintro ⟨r, hr, rfl, hm⟩
      rwa [← (mem_opTable_iff r).mp hr]
  · rw [mem_opTable_iff] at hr hr'
    rw [hr, matches_opRow_iff] at hm
    rw [hr', matches_opRow_iff, hm] at hm'
    rw [hr, hr', Except.ok.inj hm']

/-- Settles O15: a decoded packet is a legal header and as many operand words as it asks for, and the encoder writes both again. -/
theorem decodedWordsAreTheEncodingOfTheCommand : Obligations.DecodedWordsAreTheEncodingOfTheCommand := by
  intro ws i rest hd
  obtain ⟨op, h, ops, rfl, hh, hlen, rfl⟩ := decode_command hd
  refine ⟨?_, wellFormed_assemblePacket hlen⟩
  rw [encode, header_assemblePacket hh hlen, operands_assemblePacket hlen, List.cons_append]

/-- Settles O16, word by word. -/
theorem writtenOutWordsDecode : Obligations.WrittenOutWordsDecode := by
  unfold Obligations.WrittenOutWordsDecode
  decide

end Sys2Proof.Machine
end

section
/-! The parser one word at a time (spec/30_encoding.md R86) and the step that takes a packet at a time (log entry 5): what each does with
the words of a packet, whole or cut short. -/

namespace Sys2Proof.Machine

/-! ### What the decoder reads after a legal header (R86) -/

/-- Where all its operand words are there, the packet is read and what follows is left. -/
theorem decode_whole {op : Op} {h : Word} {ops rest : List Word} (hh : decodeHeader h = .ok op)
    (hlen : ops.length = operandCount op h) : decode (h :: (ops ++ rest)) = .command (assemblePacket op h ops) rest := by
  simp [decode, hh, ← hlen, hasAtLeast_append]

/-- Where some of its operand words are missing, the packet is partial (R64). -/
theorem decode_short {op : Op} {h : Word} {ops : List Word} (hh : decodeHeader h = .ok op)
    (hlen : ops.length < operandCount op h) : decode (h :: ops) = .truncated h (operandCount op h) ops := by
  have hshort : hasAtLeast (operandCount op h) ops = false := by
    rw [Bool.eq_false_iff, ne_eq, hasAtLeast_iff]
    exact not_le.mpr hlen
  simp [decode, hh, hshort]

/-! ### A step on the words that are there (R12, R86) -/

/-- An illegal header is consumed alone and raises the error. -/
theorem step_of_illegal {s : State} {cause : IllegalCause} {h : Word} {rest : List Word} (hr : s.resetLine = false)
    (hidle : s.parser = .idle) (hp : s.cmdPort = h :: rest) (hh : decodeHeader h = .error cause) :
    step s = .next ({ s with parser := .idle, cmdPort := rest }.raiseIllegal cause h) := by
  have hd : decode (s.parser.taken ++ h :: rest) = .illegal cause h rest := by
    rw [hidle]
    simp [Parser.taken, decode, hh]
  simp [step, fetch, hr, hp, hd]

/-- In IDLE, the words of a well-formed command run it, and what follows stays on the port. -/
theorem step_of_encode {s : State} {i : Instr} {rest : List Word} (hr : s.resetLine = false) (hidle : s.parser = .idle)
    (hi : i.wellFormed = true) (hp : s.cmdPort = encode i ++ rest) : step s = exec i { s with cmdPort := rest } := by
  have hne : s.cmdPort ≠ [] := by simp [hp, encode]
  have hd : decode (s.parser.taken ++ s.cmdPort) = .command i rest := by
    rw [hidle, hp]
    exact decode_encode_append hi rest
  rw [step_of_command hr hne hd, ← hidle]

/-! ### One word (R86) -/

/-- In IDLE, an illegal header is the error. -/
theorem receive_illegal {s : State} {h : Word} {cause : IllegalCause} (hidle : s.parser = .idle)
    (hh : decodeHeader h = .error cause) : receive h s = .next ({ s with parser := .idle }.raiseIllegal cause h) := by
  simp [receive, Parser.take, hidle, hh]

/-- In IDLE, the header of a packet without operand words runs it. -/
theorem receive_bare {s : State} {h : Word} {op : Op} (hidle : s.parser = .idle) (hh : decodeHeader h = .ok op)
    (hn : operandCount op h = 0) : receive h s = exec (assemblePacket op h []) s := by
  simp only [receive, Parser.take, hidle, hh, hn, if_true]
  rw [← hidle]

/-- In IDLE, the header of a packet with operand words opens a collection. -/
theorem receive_header {s : State} {h : Word} {op : Op} (hidle : s.parser = .idle) (hh : decodeHeader h = .ok op)
    (hn : operandCount op h ≠ 0) : receive h s = .next { s with parser := .collect h (operandCount op h) [] } := by
  simp [receive, Parser.take, hidle, hh, hn]

/-- In COLLECT, a word that is not the last is held. -/
theorem receive_operand {s : State} {h w : Word} {need : Nat} {got : List Word} (hp : s.parser = .collect h need got)
    (hn : got.length + 1 ≠ need) : receive w s = .next { s with parser := .collect h need (got ++ [w]) } := by
  simp [receive, Parser.take, hp, hn]

/-- In COLLECT, the last word runs the packet. -/
theorem receive_last {s : State} {h w : Word} {op : Op} {need : Nat} {got : List Word} (hp : s.parser = .collect h need got)
    (hh : decodeHeader h = .ok op) (hn : got.length + 1 = need) :
    receive w s = exec (assemblePacket op h (got ++ [w])) { s with parser := .idle } := by
  simp [receive, Parser.take, hp, hn, hh]

/-! ### Words one after the other -/

theorem receiveAll_cons_of_next {w : Word} {ws : List Word} {s t : State} (h : receive w s = .next t) :
    receiveAll (w :: ws) s = receiveAll ws t := by
  simp only [receiveAll, h]

theorem receiveAll_singleton (w : Word) (s : State) : receiveAll [w] s = receive w s := by
  simp only [receiveAll]
  cases receive w s <;> rfl

/-- In COLLECT, words that do not end the packet are held. -/
theorem receiveAll_short {ws : List Word} {s : State} {h : Word} {need : Nat} {got : List Word}
    (hp : s.parser = .collect h need got) (hn : got.length + ws.length < need) :
    receiveAll ws s = .next { s with parser := .collect h need (got ++ ws) } := by
  induction ws generalizing s got with
  | nil =>
    rw [List.append_nil, ← hp]
    rfl
  | cons w ws ih =>
    rw [List.length_cons] at hn
    rw [receiveAll_cons_of_next (receive_operand hp (by omega)), ih rfl (by simp; omega), List.append_assoc]
    rfl

/-- In COLLECT, the words that are missing run the packet. -/
theorem receiveAll_rest {ws : List Word} {s : State} {h : Word} {op : Op} {need : Nat} {got : List Word}
    (hp : s.parser = .collect h need got) (hh : decodeHeader h = .ok op) (hws : ws ≠ []) (hn : got.length + ws.length = need) :
    receiveAll ws s = exec (assemblePacket op h (got ++ ws)) { s with parser := .idle } := by
  induction ws generalizing s got with
  | nil => exact absurd rfl hws
  | cons w ws ih =>
    rw [List.length_cons] at hn
    cases ws with
    | nil => rw [receiveAll_singleton, receive_last hp hh hn]
    | cons w' ws =>
      have hmore : got.length + 1 ≠ need := by
        rw [List.length_cons] at hn
        omega
      rw [receiveAll_cons_of_next (receive_operand hp hmore), ih rfl (List.cons_ne_nil w' ws) (by simp at hn ⊢; omega),
        List.append_assoc]
      rfl

/-- In IDLE, the words of a well-formed command run it at the last of them. -/
theorem receiveAll_encode {s : State} {i : Instr} (hidle : s.parser = .idle) (hi : i.wellFormed = true) :
    receiveAll (encode i) s = exec i s := by
  obtain ⟨hh, hcount⟩ := i.packetHeader hi
  have hi' := assemblePacket_header_operands i
  rw [encode]
  cases hops : i.operands with
  | nil =>
    rw [hops] at hcount hi'
    rw [receiveAll_singleton, receive_bare hidle hh hcount, hi']
  | cons w ws =>
    rw [hops] at hcount hi'
    rw [receiveAll_cons_of_next (receive_header hidle hh (by simp [hcount])),
      receiveAll_rest rfl hh (List.cons_ne_nil w ws) (by simp [hcount]), List.nil_append, hi', ← hidle]

/-- In IDLE, the first words of a well-formed command, but not all of them, are held. -/
theorem receiveAll_front {s : State} {i : Instr} {front back : List Word} (hidle : s.parser = .idle) (hi : i.wellFormed = true)
    (hcut : encode i = front ++ back) (hfront : front ≠ []) (hback : back ≠ []) :
    receiveAll front s = .next { s with parser := .collect i.header i.operands.length front.tail } := by
  obtain ⟨hh, hcount⟩ := i.packetHeader hi
  obtain ⟨h, got, rfl⟩ := List.exists_cons_of_ne_nil hfront
  obtain ⟨rfl, hops⟩ : i.header = h ∧ i.operands = got ++ back := List.cons.inj hcut
  have hshort : got.length < i.operands.length := by
    rw [hops, List.length_append]
    exact Nat.lt_add_of_pos_right (List.length_pos_of_ne_nil hback)
  rw [receiveAll_cons_of_next (receive_header hidle hh (by omega)), receiveAll_short rfl (by simpa [hcount] using hshort), hcount]
  rfl

/-- From a sound COLLECT state, a step does what the words it takes do one at a time. -/
theorem step_of_collect {s : State} {h : Word} {need : Nat} {got : List Word} (hr : s.resetLine = false)
    (hp : s.parser = .collect h need got) (hsound : ParserSound s.parser) (hne : s.cmdPort ≠ []) :
    step s = receiveAll (s.cmdPort.take (need - got.length)) { s with cmdPort := s.cmdPort.drop (need - got.length) } := by
  rw [hp] at hsound
  obtain ⟨op, hh, rfl, hgot⟩ := hsound
  have htaken : s.parser.taken = h :: got := by rw [hp]; rfl
  generalize hn : operandCount op h - got.length = n
  by_cases hlen : n ≤ s.cmdPort.length
  · have htake : (s.cmdPort.take n).length = n := List.length_take_of_le hlen
    have hwhole : (got ++ s.cmdPort.take n).length = operandCount op h := by
      rw [List.length_append, htake]
      omega
    have hd : decode (s.parser.taken ++ s.cmdPort) =
        .command (assemblePacket op h (got ++ s.cmdPort.take n)) (s.cmdPort.drop n) := by
      rw [← decode_whole hh hwhole, List.append_assoc, List.take_append_drop, htaken, List.cons_append]
    have hws : s.cmdPort.take n ≠ [] := by
      rw [← List.length_pos_iff, htake]
      omega
    rw [step_of_command hr hne hd]
    exact (receiveAll_rest (s := { s with cmdPort := s.cmdPort.drop n }) hp hh hws (by omega)).symm
  · have hshort : (got ++ s.cmdPort).length < operandCount op h := by
      rw [List.length_append]
      omega
    have hd : decode (s.parser.taken ++ s.cmdPort) = .truncated h (operandCount op h) (got ++ s.cmdPort) := by
      rw [← decode_short hh hshort, htaken, List.cons_append]
    rw [step_of_truncated hr hne hd, List.take_of_length_le (by omega), List.drop_of_length_le (by omega)]
    exact (receiveAll_short (s := { s with cmdPort := [] }) hp (by rwa [List.length_append] at hshort)).symm

/-! ### The statements -/

/-- Settles O20: words that spell a whole packet run it, and the words of a well-formed command spell that command. -/
theorem stepRunsTheDecodedCommand : Obligations.StepRunsTheDecodedCommand :=
  ⟨fun _ _ _ hr hidle hi hp => step_of_encode hr hidle hi hp, fun _ _ _ hr hp hd => step_of_command hr hp hd⟩

/-- Settles O23: both sides of each clause are the same command, the same error or the same held words. -/
theorem wordSerialAndPacketStepsAgree : Obligations.WordSerialAndPacketStepsAgree := by
  refine ⟨fun s i hidle hi => receiveAll_encode hidle hi, fun s i rest hr hidle hi hp => ?_,
    fun s h rest cause hr hidle hp hh => ?_, fun s i front back hr hidle hi hcut hfront hback hp => ?_,
    fun s h need got hr hp hsound hne => step_of_collect hr hp hsound hne⟩
  · rw [step_of_encode hr hidle hi hp]
    exact (receiveAll_encode (s := { s with cmdPort := rest }) hidle hi).symm
  · rw [step_of_illegal hr hidle hp hh]
    exact (receive_illegal (s := { s with cmdPort := rest }) hidle hh).symm
  · have hd : decode (s.parser.taken ++ s.cmdPort) = .truncated i.header i.operands.length front.tail := by
      rw [hidle, hp]
      exact decode_front_of_encode hi hcut hfront hback
    rw [step_of_truncated hr (hp ▸ hfront) hd]
    exact (receiveAll_front (s := { s with cmdPort := [] }) hidle hi hcut hfront hback).symm

end Sys2Proof.Machine
end

section
/-! The pseudo-commands (spec/30_encoding.md R93): RESET_ALL zeroes every delay register, and BROADCAST is four ASSIGNs. -/

namespace Sys2Proof.Machine

/-- NF is one bit, so the same words noted twice are noted once (R225). -/
theorem State.noteFinite_twice (s : State) (ws : List Word) : (s.noteFinite ws).noteFinite ws = s.noteFinite ws := by
  unfold State.noteFinite
  split
  · rfl
  · simp [State.setNonFinite, setBit, BitVec.or_assoc]

/-- Noting words and loading a set touch different fields. -/
theorem State.writeCoef_noteFinite (s : State) (ch : Channel) (c : CoefSet Word) (ws : List Word) :
    (s.noteFinite ws).writeCoef ch c = (s.writeCoef ch c).noteFinite ws := by
  unfold State.noteFinite
  split <;> rfl

/-- Four ASSIGNs of one set are a BROADCAST of it (R93). -/
theorem execAll_assign_each (c : CoefSet Word) (s : State) :
    execAll [.assign .mainLeft c, .assign .mainRight c, .assign .subLeft c, .assign .subRight c] s =
      .next (execState (.broadcast c) s) := by
  simp only [execAll_cons, execAll_nil, execState, State.writeCoef_noteFinite, State.noteFinite_twice, State.writeAllCoefs]

/-- RESET of the four channels in order zeroes every delay register (R93). -/
theorem execAll_resetAll (s : State) : execAll Pseudo.resetAll.expand s = .next s.zeroAllDelays := by
  simp only [Pseudo.expand, execAll_cons, execAll_nil, execState, State.zeroAllDelays]

/-- Settles O19: the expansions by definition, RESET_ALL by the state it leaves, and BROADCAST by four ASSIGNs that note the same words. -/
theorem pseudoCommandsStandForTheirPackets : Obligations.PseudoCommandsStandForTheirPackets := by
  refine ⟨fun v => ⟨rfl, rfl⟩, by decide, rfl, fun c => rfl, fun mL mR sL sR => rfl, fun s => ?_, fun c s => ?_⟩
  · exact ⟨s.zeroAllDelays, execAll_resetAll s, rfl, rfl, rfl, fun ch => by simp⟩
  · exact ⟨execState (.broadcast c) s, exec_eq_next _ s, execAll_assign_each c s⟩

end Sys2Proof.Machine
end

section
/-! The input clamps (spec/40_coefficient_calculator.md R111, R112), by the bits of the operand, and COMPUTE (R116). -/

namespace Sys2Proof.Machine

/-! ### The clamps -/

/-- Both clamps are this function, of their own two bounds. -/
def clampWord (lo hi v : Word) : Word :=
  if isNaN v || fpLess v lo then lo else if fpGreater v hi then hi else v

theorem clampK_eq (c : Config) (v : Word) : clampK c v = clampWord c.kMin c.kMax v := rfl

theorem clampQ_eq (c : Config) (v : Word) : clampQ c v = clampWord c.qMin c.qMax v := rfl

theorem clampWord_low {lo v : Word} (hi : Word) (h : isNaN v = true ∨ fpLess v lo = true) : clampWord lo hi v = lo :=
  if_pos (by simpa using h)

theorem clampWord_high {lo hi v : Word} (hn : isNaN v = false) (hlo : fpLess v lo = false) (hhi : fpGreater v hi = true) :
    clampWord lo hi v = hi := by
  simp [clampWord, hn, hlo, hhi]

theorem clampWord_within {lo hi v : Word} (hn : isNaN v = false) (hlo : fpLess v lo = false) (hhi : fpGreater v hi = false) :
    clampWord lo hi v = v := by
  simp [clampWord, hn, hlo, hhi]

/-! ### The order of words by their bits -/

theorem fpOrder_of_positive {w : Word} (h : fpSign w = false) : fpOrder w = w.toNat := by
  have hlt : w.toNat < 2 ^ 31 := by simpa [fpSign_eq] using h
  rw [fpOrder, if_neg (by simp [h]), field_eq_div]
  omega

theorem fpOrder_of_negative {w : Word} (h : fpSign w = true) : fpOrder w ≤ 0 := by
  rw [fpOrder, if_pos h]
  omega

/-- Below a positive word is every negative word, and of the positive ones those with smaller bits. -/
theorem fpLess_positive_iff {v lo : Word} (hv : isNaN v = false) (hlo : isNaN lo = false) (hs : fpSign lo = false)
    (hpos : 0 < lo.toNat) : fpLess v lo = true ↔ fpSign v = true ∨ v.toNat < lo.toNat := by
  rw [fpLess_of_not_nan hv hlo, decide_eq_true_eq, fpOrder_of_positive hs]
  cases h : fpSign v with
  | true =>
    have := fpOrder_of_negative h
    simp only [true_or, iff_true]
    omega
  | false => simp [fpOrder_of_positive h]

/-- A clamp between positive bounds, by the bits of the operand. -/
theorem clampWord_by_bits {lo hi : Word} (hlo : isNaN lo = false) (hhi : isNaN hi = false) (slo : fpSign lo = false)
    (shi : fpSign hi = false) (hpos : 0 < lo.toNat) (v : Word) :
    clampWord lo hi v = if isNaN v ∨ fpSign v = true ∨ v.toNat < lo.toNat then lo else if hi.toNat < v.toNat then hi else v := by
  cases hn : isNaN v with
  | true => simp [clampWord_low hi (.inl hn)]
  | false =>
    have hlow := fpLess_positive_iff hn hlo slo hpos
    by_cases hl : fpSign v = true ∨ v.toNat < lo.toNat
    · rw [clampWord_low hi (.inr (hlow.mpr hl)), if_pos (.inr hl)]
    · have hs : fpSign v = false := by simpa using mt Or.inl hl
      have hgt : fpGreater v hi = decide (hi.toNat < v.toNat) := by
        rw [fpGreater, fpLess_of_not_nan hhi hn, fpOrder_of_positive hs, fpOrder_of_positive shi]
        simp
      rw [clampWord, hgt, hn, Bool.eq_false_iff.mpr (mt hlow.mp hl)]
      simp [hl]

/-- Settles O49: the two clamps are one function of their bounds, and between positive bounds the order is that of the bits. -/
theorem clampsReplaceOutOfRangeOperands : Obligations.ClampsReplaceOutOfRangeOperands := by
  intro c v
  refine ⟨clampWord_low _, clampWord_high, clampWord_within, clampWord_low _, clampWord_high, clampWord_within,
    fun hmin hmax => ?_, fun hmin hmax => ?_⟩
  · rw [clampK_eq, hmin, hmax]
    exact clampWord_by_bits (by decide) (by decide) (by decide) (by decide) (by decide) v
  · rw [clampQ_eq, hmin, hmax]
    exact clampWord_by_bits (by decide) (by decide) (by decide) (by decide) (by decide) v

/-! ### COMPUTE -/

/-- Responding with words and noting them touches the response queue and NF alone (R225). -/
theorem State.respond_noteFinite (ws : List Word) (s : State) :
    (s.respond ws).noteFinite ws =
      { s with responses := s.responses ++ ws, status := if ws.all isFinite then s.status else s.status ||| 0x8 } := by
  unfold State.noteFinite
  split <;> rfl

/-- Settles O6: COMPUTE responds with the five words and notes them, and the reference design is R114's formula by definition. -/
theorem computeExposesTheCalculator : Obligations.ComputeExposesTheCalculator := by
  refine fun k q s => ⟨?_, rfl, fun h => lpDesign_bilinear h _ _⟩
  rw [exec_eq_next]
  exact congrArg _ (State.respond_noteFinite _ s)

end Sys2Proof.Machine
end

section
/-! The reference design in exact arithmetic (spec/40_coefficient_calculator.md R117, R118): its transfer function, and its poles. -/

namespace Sys2Proof.Machine

/-! ### Poles -/

/-- R118's inequalities put every pole inside the unit circle, and the squared modulus of a pole that is not real is b2. -/
theorem pole_norm {b1 b2 : ℝ} (h2 : b2 < 1) (h1 : |b1| < 1 + b2) {z : ℂ} (hz : z ^ 2 + (b1 : ℂ) * z + (b2 : ℂ) = 0) :
    ‖z‖ < 1 ∧ (z.im ≠ 0 → ‖z‖ ^ 2 = b2) := by
  obtain ⟨hlo, hhi⟩ := abs_lt.mp h1
  have hnorm : ‖z‖ ^ 2 = z.re ^ 2 + z.im ^ 2 := by rw [Complex.sq_norm, Complex.normSq_apply]; ring
  have hre : z.re ^ 2 - z.im ^ 2 + b1 * z.re + b2 = 0 := by simpa [pow_two] using congrArg Complex.re hz
  have him : z.im * (2 * z.re + b1) = 0 := by
    have himag : z.re * z.im + z.im * z.re + b1 * z.im = 0 := by simpa [pow_two] using congrArg Complex.im hz
    linarith
  by_cases hi : z.im = 0
  · have habs : |z.re| < 1 := by
      rw [hi] at hre
      rw [abs_lt]
      constructor <;> by_contra hc <;> nlinarith
    refine ⟨?_, fun h => absurd hi h⟩
    rw [← sq_lt_one_iff₀ (norm_nonneg z), hnorm, hi]
    nlinarith [abs_lt.mp habs]
  · have hsum : 2 * z.re + b1 = 0 := (mul_eq_zero.mp him).resolve_left hi
    have hb2 : ‖z‖ ^ 2 = b2 := by
      rw [hnorm]
      linear_combination z.re * hsum - hre
    refine ⟨?_, fun _ => hb2⟩
    rw [← sq_lt_one_iff₀ (norm_nonneg z), hb2]
    exact h2

/-! ### The five coefficients (R114) -/

/-- The denominator `D = 1 + k/q + k²` of R114, by which everything else is divided. -/
noncomputable def exactD (k q : ℝ) : ℝ := 1 + k / q + k ^ 2

theorem exactD_pos {k q : ℝ} (hk : 0 < k) (hq : 0 < q) : 0 < exactD k q := by unfold exactD; positivity

theorem exactD_self {k q : ℝ} (hk : 0 < k) (hq : 0 < q) : (1 + k / q + k ^ 2) / exactD k q = 1 := div_self (exactD_pos hk hq).ne'

theorem lpDesignRef_exact (k q : ℝ) :
    lpDesignRef (exactArith ℝ) k q =
      { f0 := k ^ 2 / exactD k q, f1 := 2 * (k ^ 2 / exactD k q), f2 := k ^ 2 / exactD k q,
        b1 := 2 * (k ^ 2 - 1) / exactD k q, b2 := (1 - k / q + k ^ 2) / exactD k q } := by
  simp only [lpDesignRef, exactArith, exactD, div_eq_mul_inv, one_mul, pow_two]

theorem polesInside_exact {k q : ℝ} (hk : 0 < k) (hq : 0 < q) : PolesInside (lpDesignRef (exactArith ℝ) k q) := by
  have hD := exactD_pos hk hq
  have hx : 0 < k / q := div_pos hk hq
  have hkk : 0 < k ^ 2 := by positivity
  rw [lpDesignRef_exact]
  refine ⟨?_, ?_, ?_⟩
  · rw [lt_div_iff₀ hD, exactD]
    linarith
  · rw [div_lt_one hD, exactD]
    linarith
  · have hsum : 1 + (1 - k / q + k ^ 2) / exactD k q = 2 * (1 + k ^ 2) / exactD k q := by
      linear_combination -exactD_self hk hq
    rw [hsum, abs_div, abs_of_pos hD, div_lt_div_iff_of_pos_right hD, abs_lt]
    constructor <;> linarith

/-- b2 rises with q (R118). -/
theorem exact_b2_lt {k q q' : ℝ} (hk : 0 < k) (hq : 0 < q) (hqq : q < q') :
    (lpDesignRef (exactArith ℝ) k q).b2 < (lpDesignRef (exactArith ℝ) k q').b2 := by
  have hx : k / q' < k / q := div_lt_div_of_pos_left hk hq hqq
  have hD := exactD_pos hk hq
  have hD' := exactD_pos hk (hq.trans hqq)
  rw [lpDesignRef_exact, lpDesignRef_exact, div_lt_div_iff₀ hD hD']
  unfold exactD at *
  nlinarith [sq_nonneg k]

/-- Settles O51: R118's inequalities, and what they say of the poles. -/
theorem exactDesignIsStable : Obligations.ExactDesignIsStable := by
  intro k q hk hq c
  obtain ⟨hlow, hhigh, hb1⟩ := polesInside_exact hk hq
  exact ⟨hhigh, hlow, hb1, fun z hz => pole_norm hhigh hb1 hz, fun q' hqq => exact_b2_lt hk hq hqq⟩

/-- Settles O52, each clause by clearing the denominator D. -/
theorem exactDesignHasTheLowPassTransferFunction : Obligations.ExactDesignHasTheLowPassTransferFunction := by
  intro k q w hk hq c
  have hD := (exactD_pos hk hq).ne'
  have hc : c = _ := lpDesignRef_exact k q
  rw [hc]
  refine ⟨?_, ?_, by ring⟩
  · rw [show 1 + k / q + k ^ 2 = exactD k q from rfl]
    field_simp
    ring
  · linear_combination exactD_self hk hq

end Sys2Proof.Machine
end

section
/-! The gain of a coefficient set at the frequency that a warped value names (spec/40_coefficient_calculator.md R117; R142), and property (c)
of R113 for the reference design in exact arithmetic. -/

namespace Sys2Proof.Machine

/-! ### The gain at a warped frequency -/

/-- The squared modulus of `a0 + a1·z⁻¹ + a2·z⁻²` at the warped frequency v, times `(1 + v²)²`: `gainNum` and `gainDen` in real numbers. -/
def responseSq (a0 a1 a2 v : ℝ) : ℝ := ((a0 + a2) * (1 - v ^ 2) + a1 * (1 + v ^ 2)) ^ 2 + (2 * v * (a0 - a2)) ^ 2

theorem normSq_one_add_mul_I (v : ℝ) : ‖(1 : ℂ) + v * Complex.I‖ ^ 2 = 1 + v ^ 2 := by
  rw [Complex.sq_norm, ← Complex.ofReal_one, Complex.normSq_add_mul_I]
  ring

theorem one_add_mul_I_ne_zero (v : ℝ) : (1 : ℂ) + v * Complex.I ≠ 0 := fun h => by
  have := normSq_one_add_mul_I v
  rw [h, norm_zero] at this
  nlinarith [sq_nonneg v]

/-- The polynomial in z⁻¹ where `z⁻¹ = (1 − iv)/(1 + iv)`, over the square of that denominator. -/
theorem response_at_cutoffPoint (a0 a1 a2 v : ℝ) :
    (a0 : ℂ) + a1 * cutoffPoint v + a2 * cutoffPoint v ^ 2 =
      (((a0 + a2) * (1 - v ^ 2) + a1 * (1 + v ^ 2) : ℝ) + (2 * v * (a0 - a2) : ℝ) * Complex.I) / (1 + v * Complex.I) ^ 2 := by
  have hne := one_add_mul_I_ne_zero v
  unfold cutoffPoint
  field_simp
  push_cast
  linear_combination ((a0 : ℂ) - a1 + a2) * v ^ 2 * Complex.I_sq

theorem norm_response_sq (a0 a1 a2 v : ℝ) :
    ‖(a0 : ℂ) + a1 * cutoffPoint v + a2 * cutoffPoint v ^ 2‖ ^ 2 = responseSq a0 a1 a2 v / (1 + v ^ 2) ^ 2 := by
  rw [response_at_cutoffPoint, norm_div, div_pow, norm_pow, ← pow_mul, mul_comm 2 2, pow_mul, normSq_one_add_mul_I, Complex.sq_norm,
    Complex.normSq_add_mul_I, responseSq]

/-- The square of the gain is the quotient of the two squared moduli. -/
theorem gainAt_cutoffPoint_sq (c : CoefSet ℝ) (v : ℝ) :
    gainAt c (cutoffPoint v) ^ 2 = responseSq c.f0 c.f1 c.f2 v / responseSq 1 c.b1 c.b2 v := by
  have hden := norm_response_sq 1 c.b1 c.b2 v
  rw [Complex.ofReal_one] at hden
  rw [gainAt, norm_div, div_pow, norm_response_sq, hden, div_div_div_cancel_right₀ (by positivity)]

/-- DC is the frequency of the warped value 0. -/
theorem cutoffPoint_zero : cutoffPoint 0 = 1 := by simp [cutoffPoint]

theorem gainAt_nonneg (c : CoefSet ℝ) (w : ℂ) : 0 ≤ gainAt c w := norm_nonneg _

theorem relativeGain_nonneg (c : CoefSet ℝ) (w : ℂ) : 0 ≤ relativeGain c w := div_nonneg (gainAt_nonneg c w) (gainAt_nonneg c 1)

/-- The square of the gain relative to DC. -/
theorem relativeGain_cutoffPoint_sq (c : CoefSet ℝ) (v : ℝ) :
    relativeGain c (cutoffPoint v) ^ 2 =
      (responseSq c.f0 c.f1 c.f2 v * responseSq 1 c.b1 c.b2 0) / (responseSq 1 c.b1 c.b2 v * responseSq c.f0 c.f1 c.f2 0) := by
  rw [relativeGain, div_pow, gainAt_cutoffPoint_sq, ← cutoffPoint_zero, gainAt_cutoffPoint_sq, div_div_div_eq]

/-- A set whose numerator vanishes at Nyquist passes nothing there. -/
theorem gainAt_nyquist {c : CoefSet ℝ} (h : c.f0 - c.f1 + c.f2 = 0) : gainAt c (-1) = 0 := by
  have hnum : (c.f0 : ℂ) + c.f1 * (-1) + c.f2 * (-1) ^ 2 = ((c.f0 - c.f1 + c.f2 : ℝ) : ℂ) := by push_cast; ring
  rw [gainAt, hnum, h, Complex.ofReal_zero, zero_div, norm_zero]

/-! ### The gain of the exact reference design -/

/-- `|k² + (k/q)·s + s²|²` at `s = iv`: what the square of the gain of the reference design is divided by. -/
noncomputable def resonanceSq (k q v : ℝ) : ℝ := (k ^ 2 - v ^ 2) ^ 2 + (k / q * v) ^ 2

theorem resonanceSq_pos {k q v : ℝ} (hk : 0 < k) (hq : 0 < q) : 0 < resonanceSq k q v := by
  unfold resonanceSq
  rcases eq_or_ne v 0 with rfl | hv
  · rw [mul_zero, zero_pow two_ne_zero, sub_zero]
    positivity
  · positivity

theorem gainAt_exact_sq {k q : ℝ} (hk : 0 < k) (hq : 0 < q) (v : ℝ) :
    gainAt (lpDesignRef (exactArith ℝ) k q) (cutoffPoint v) ^ 2 = k ^ 4 / resonanceSq k q v := by
  have hD := exactD_pos hk hq
  have hsum : 1 + (1 - k / q + k ^ 2) / exactD k q = 2 * (1 + k ^ 2) / exactD k q := by
    linear_combination -exactD_self hk hq
  have hdiff : 1 - (1 - k / q + k ^ 2) / exactD k q = 2 * (k / q) / exactD k q := by
    linear_combination -exactD_self hk hq
  have hnum : responseSq (k ^ 2 / exactD k q) (2 * (k ^ 2 / exactD k q)) (k ^ 2 / exactD k q) v = 16 / exactD k q ^ 2 * k ^ 4 := by
    rw [responseSq]
    ring
  have hden : responseSq 1 (2 * (k ^ 2 - 1) / exactD k q) ((1 - k / q + k ^ 2) / exactD k q) v =
      16 / exactD k q ^ 2 * resonanceSq k q v := by
    rw [responseSq, hsum, hdiff, resonanceSq]
    ring
  rw [gainAt_cutoffPoint_sq, lpDesignRef_exact, hnum, hden, mul_div_mul_left _ _ (by positivity)]

theorem gainAt_exact_dc {k q : ℝ} (hk : 0 < k) (hq : 0 < q) : gainAt (lpDesignRef (exactArith ℝ) k q) 1 = 1 := by
  have hsq := gainAt_exact_sq hk hq 0
  rw [cutoffPoint_zero, show resonanceSq k q 0 = k ^ 4 by rw [resonanceSq]; ring, div_self (by positivity)] at hsq
  exact (pow_eq_one_iff_of_nonneg (gainAt_nonneg _ _) two_ne_zero).mp hsq

/-- The gain of the exact reference design relative to DC, at the frequency v. -/
noncomputable def exactGain (k q v : ℝ) : ℝ := relativeGain (lpDesignRef (exactArith ℝ) k q) (cutoffPoint v)

theorem exactGain_eq {k q : ℝ} (hk : 0 < k) (hq : 0 < q) (v : ℝ) :
    exactGain k q v = gainAt (lpDesignRef (exactArith ℝ) k q) (cutoffPoint v) := by
  rw [exactGain, relativeGain, gainAt_exact_dc hk hq, div_one]

theorem exactGain_nonneg (k q v : ℝ) : 0 ≤ exactGain k q v := relativeGain_nonneg _ _

theorem exactGain_sq {k q : ℝ} (hk : 0 < k) (hq : 0 < q) (v : ℝ) : exactGain k q v ^ 2 = k ^ 4 / resonanceSq k q v := by
  rw [exactGain_eq hk hq, gainAt_exact_sq hk hq]

/-- At the frequency that k names the gain is q (R117). -/
theorem exactGain_at_cutoff {k q : ℝ} (hk : 0 < k) (hq : 0 < q) : exactGain k q k = q := by
  have hsq : exactGain k q k ^ 2 = q ^ 2 := by
    rw [exactGain_sq hk hq, resonanceSq]
    field_simp
    ring
  exact (pow_left_inj₀ (exactGain_nonneg _ _ _) hq.le two_ne_zero).mp hsq

/-- The gain is the larger where the resonance term, by its cutoff, is the smaller. -/
theorem exactGain_lt {k k' q q' v v' : ℝ} (hk : 0 < k) (hk' : 0 < k') (hq : 0 < q) (hq' : 0 < q')
    (h : k ^ 4 * resonanceSq k' q' v' < k' ^ 4 * resonanceSq k q v) : exactGain k q v < exactGain k' q' v' := by
  refine lt_of_pow_lt_pow_left₀ 2 (exactGain_nonneg _ _ _) ?_
  rw [exactGain_sq hk hq, exactGain_sq hk' hq', div_lt_div_iff₀ (resonanceSq_pos hk hq) (resonanceSq_pos hk' hq')]
  exact h

/-- With less resonance nothing passes more strongly. -/
theorem exactGain_mono {k q q' : ℝ} (v : ℝ) (hk : 0 < k) (hq : 0 < q) (hqq : q ≤ q') : exactGain k q v ≤ exactGain k q' v := by
  have hq' := hq.trans_le hqq
  have hx : k / q' ≤ k / q := div_le_div_of_nonneg_left hk.le hq hqq
  refine le_of_sq_le_sq ?_ (exactGain_nonneg _ _ _)
  rw [exactGain_sq hk hq, exactGain_sq hk hq']
  refine div_le_div_of_nonneg_left (by positivity) (resonanceSq_pos hk hq') (add_le_add_right ?_ _)
  rw [mul_pow, mul_pow]
  gcongr

/-! ### Property (c), clause by clause -/

/-- The pass band: up to half of k and of k·q. -/
theorem exactGain_passBand {k q v : ℝ} (hk : 0 < k) (hq : 0 < q) (hv : 0 ≤ v) (h1 : 2 * v ≤ k) (h2 : 2 * v ≤ k * q) :
    1 / 2 ≤ exactGain k q v ∧ exactGain k q v ≤ 2 := by
  have hR := resonanceSq_pos (v := v) hk hq
  have hsq := exactGain_sq hk hq v
  have hterm : k / q * v ≤ k ^ 2 / 2 := by
    rw [div_mul_eq_mul_div, div_le_iff₀ hq]
    nlinarith
  have hterm0 : 0 ≤ k / q * v := by positivity
  have hv2 : v ^ 2 ≤ k ^ 2 / 4 := by nlinarith
  have hlow : (3 / 4 * k ^ 2) ^ 2 ≤ (k ^ 2 - v ^ 2) ^ 2 := by
    refine pow_le_pow_left₀ (by positivity) ?_ 2
    linarith
  have hhigh : (k ^ 2 - v ^ 2) ^ 2 ≤ (k ^ 2) ^ 2 := pow_le_pow_left₀ (by linarith [sq_nonneg k]) (by linarith [sq_nonneg v]) 2
  have hterm2 : (k / q * v) ^ 2 ≤ (k ^ 2 / 2) ^ 2 := pow_le_pow_left₀ hterm0 hterm 2
  have h4 : 0 < k ^ 4 := by positivity
  constructor
  · refine le_of_sq_le_sq ?_ (exactGain_nonneg _ _ _)
    rw [hsq, le_div_iff₀ hR, resonanceSq]
    nlinarith
  · refine le_of_sq_le_sq ?_ zero_le_two
    rw [hsq, div_le_iff₀ hR, resonanceSq]
    nlinarith [sq_nonneg (k / q * v)]

/-- The stop band: from twice k on, falling like the square of the frequency. -/
theorem exactGain_stopBand {k q v : ℝ} (hk : 0 < k) (hq : 0 < q) (h : 2 * k ≤ v) : exactGain k q v * v ^ 2 ≤ 2 * k ^ 2 := by
  have hR := resonanceSq_pos (v := v) hk hq
  have hv2 : 4 * k ^ 2 ≤ v ^ 2 := by nlinarith
  have hfar : (v ^ 2 / 2) ^ 2 ≤ (v ^ 2 - k ^ 2) ^ 2 := pow_le_pow_left₀ (by positivity) (by nlinarith) 2
  refine le_of_sq_le_sq ?_ (by positivity)
  rw [mul_pow, exactGain_sq hk hq, div_mul_eq_mul_div, div_le_iff₀ hR, resonanceSq]
  have h4 : 0 < k ^ 4 := by positivity
  nlinarith [sq_nonneg (k / q * v)]

/-- In the stop band of both the larger cutoff lets more through. -/
theorem exactGain_skirt {k k' q v : ℝ} (hk : 0 < k) (hkk : k < k') (hq : 0 < q) (h : 2 * k' ≤ v) :
    exactGain k q v < exactGain k' q v := by
  have hk' := hk.trans hkk
  refine exactGain_lt hk hk' hq hq ?_
  have hsq : k ^ 2 < k' ^ 2 := pow_lt_pow_left₀ hkk hk.le two_ne_zero
  have hv2 : k' ^ 2 < v ^ 2 := pow_lt_pow_left₀ (by linarith) hk'.le two_ne_zero
  have hfirst : k ^ 2 * (v ^ 2 - k' ^ 2) < k' ^ 2 * (v ^ 2 - k ^ 2) := by nlinarith [sq_nonneg v]
  have hfirst2 := pow_lt_pow_left₀ hfirst (mul_nonneg (sq_nonneg k) (by linarith)) two_ne_zero
  have hsecond : k ^ 4 * (k' / q * v) ^ 2 ≤ k' ^ 4 * (k / q * v) ^ 2 := by
    have : k' ^ 4 * (k / q * v) ^ 2 - k ^ 4 * (k' / q * v) ^ 2 = (k * k' * (v / q)) ^ 2 * (k' ^ 2 - k ^ 2) := by ring
    nlinarith [mul_nonneg (sq_nonneg (k * k' * (v / q))) (by linarith : (0 : ℝ) ≤ k' ^ 2 - k ^ 2)]
  unfold resonanceSq
  nlinarith

/-- Far in the stop band the resonance, from 1/√2 up, changes little. -/
theorem exactGain_skirtOfK {k q q' v : ℝ} (hk : 0 < k) (hq : 1 / Real.sqrt 2 ≤ q) (hq' : 1 / Real.sqrt 2 ≤ q') (h : 4 * k ≤ v) :
    exactGain k q v ^ 2 ≤ 2 * exactGain k q' v ^ 2 := by
  have hpos : (0 : ℝ) < 1 / Real.sqrt 2 := by positivity
  have hq0 := hpos.trans_le hq
  have hq0' := hpos.trans_le hq'
  have hhalf : 1 / 2 ≤ q' ^ 2 := by
    have := pow_le_pow_left₀ hpos.le hq' 2
    rwa [div_pow, Real.sq_sqrt zero_le_two, one_pow] at this
  have hterm : (k / q' * v) ^ 2 ≤ 2 * (k ^ 2 * v ^ 2) := by
    rw [div_mul_eq_mul_div, div_pow, div_le_iff₀ (by positivity), mul_pow]
    nlinarith [mul_nonneg (sq_nonneg k) (sq_nonneg v)]
  have hv2 : 16 * k ^ 2 ≤ v ^ 2 := by nlinarith
  rw [exactGain_sq hk hq0, exactGain_sq hk hq0', ← mul_div_assoc, div_le_div_iff₀ (resonanceSq_pos hk hq0) (resonanceSq_pos hk hq0')]
  have hmain : resonanceSq k q' v ≤ 2 * resonanceSq k q v := by
    unfold resonanceSq
    nlinarith [sq_nonneg (k / q * v), sq_nonneg k, sq_nonneg v]
  nlinarith [mul_le_mul_of_nonneg_left hmain (by positivity : 0 ≤ k ^ 4)]

/-- From q = 1/√2 up the peak rises with q: with `y = v²` the resonance term is `(y − p)² + k⁴ − p²`, and at the larger q the place p of its
least value is the larger. -/
theorem exactGain_peak {k q q' : ℝ} (hk : 0 < k) (hq : 1 / Real.sqrt 2 ≤ q) (hqq : q < q') :
    ∃ v', 0 ≤ v' ∧ ∀ v, 0 ≤ v → exactGain k q v < exactGain k q' v' := by
  have hpos : (0 : ℝ) < 1 / Real.sqrt 2 := by positivity
  have hq0 := hpos.trans_le hq
  have hq0' := hq0.trans hqq
  have hhalf : 1 / 2 ≤ q ^ 2 := by
    have := pow_le_pow_left₀ hpos.le hq 2
    rwa [div_pow, Real.sq_sqrt zero_le_two, one_pow] at this
  have hinv : 1 / q ^ 2 ≤ 2 := by
    rw [div_le_iff₀ (by positivity)]
    linarith
  have hinv' : 1 / q' ^ 2 < 1 / q ^ 2 := one_div_lt_one_div_of_lt (by positivity) (pow_lt_pow_left₀ hqq hq0.le two_ne_zero)
  set p := k ^ 2 * (1 - 1 / q ^ 2 / 2) with hp
  set p' := k ^ 2 * (1 - 1 / q' ^ 2 / 2) with hp'
  have hp0 : 0 ≤ p := mul_nonneg (sq_nonneg k) (by linarith)
  have hpp : p < p' := mul_lt_mul_of_pos_left (by linarith) (by positivity)
  have hR : ∀ v, resonanceSq k q v = (v ^ 2 - p) ^ 2 + k ^ 4 - p ^ 2 := fun v => by
    rw [resonanceSq, hp]
    ring
  have hR' : resonanceSq k q' (Real.sqrt p') = k ^ 4 - p' ^ 2 := by
    have hs : Real.sqrt p' ^ 2 = p' := Real.sq_sqrt (hp0.trans hpp.le)
    have : resonanceSq k q' (Real.sqrt p') = (Real.sqrt p' ^ 2 - p') ^ 2 + k ^ 4 - p' ^ 2 := by
      rw [resonanceSq, hp']
      ring
    rw [this, hs]
    ring
  refine ⟨Real.sqrt p', Real.sqrt_nonneg _, fun v _ => exactGain_lt hk hk hq0 hq0' ?_⟩
  refine mul_lt_mul_of_pos_left ?_ (by positivity)
  rw [hR, hR']
  nlinarith [sq_nonneg (v ^ 2 - p)]

/-- The exact reference design over a domain of positive parameters. -/
theorem lowPassDesign_exact {kMin qMin : ℝ} (kMax qMax : ℝ) (hk0 : 0 < kMin) (hq0 : 0 < qMin) :
    LowPassDesign (lpDesignRef (exactArith ℝ)) kMin kMax qMin qMax where
  stable _ _ hk _ hq _ := polesInside_exact (hk0.trans_le hk) (hq0.trans_le hq)
  lowPass _ _ hk _ hq _ := by
    rw [gainAt_exact_dc (hk0.trans_le hk) (hq0.trans_le hq), gainAt_nyquist (by rw [lpDesignRef_exact]; ring)]
    exact one_pos
  passBand _ _ _ hk _ hq _ hv h1 h2 := exactGain_passBand (hk0.trans_le hk) (hq0.trans_le hq) hv h1 h2
  stopBand _ _ _ hk _ hq _ h := exactGain_stopBand (hk0.trans_le hk) (hq0.trans_le hq) h
  cutoff _ _ _ hk _ hk' _ hq _ :=
    (exactGain_at_cutoff (hk0.trans_le hk) (hq0.trans_le hq)).trans (exactGain_at_cutoff (hk0.trans_le hk') (hq0.trans_le hq)).symm
  skirt _ _ _ _ hk hkk _ hq _ h := exactGain_skirt (hk0.trans_le hk) hkk (hq0.trans_le hq) h
  skirtOfK _ _ _ _ hk _ _ _ _ _ hb hb' h := exactGain_skirtOfK (hk0.trans_le hk) hb hb' h
  peakHeight _ _ _ hk _ hq hqq _ :=
    ⟨fun v hv => ⟨v, hv, exactGain_mono v (hk0.trans_le hk) (hq0.trans_le hq) hqq.le⟩, fun hb => exactGain_peak (hk0.trans_le hk) hb hqq⟩
  peak _ _ _ hk _ hq hqq _ := by
    have hcut := exactGain_at_cutoff (hk0.trans_le hk) (hq0.trans_le hq)
    have hcut' := exactGain_at_cutoff (hk0.trans_le hk) ((hq0.trans_le hq).trans hqq)
    exact (hcut.trans_lt hqq).trans_eq hcut'.symm

/-- Settles O58: the gain of the exact design at v is `k²` over `|k² + (k/q)·s + s²|` at `s = iv`, from which each clause of (c) follows. -/
theorem exactDesignHasPropertyC : Obligations.ExactDesignHasPropertyC :=
  ⟨fun _ kMax _ qMax hk hq => lowPassDesign_exact kMax qMax hk hq,
    fun k _ hk hq => ⟨(exactGain_eq hk hq k).symm.trans (exactGain_at_cutoff hk hq), gainAt_exact_dc hk hq⟩⟩

end Sys2Proof.Machine
end

section
/-! A design function that is not the reference (spec/40_coefficient_calculator.md R113): what `lowPassSet` and `soundDesign` say of float words,
in real numbers (log entry 4). -/

namespace Sys2Proof.Machine

/-! ### Values of words as real numbers -/

theorem fpValue_cast (w : Word) : (fpValue w : ℝ) = 2 ^ 149 * realValue w := by
  rw [realValue]
  field_simp

theorem fpValue_zero : fpValue 0 = 0 := by decide

theorem realValue_zero : realValue 0 = 0 := by rw [realValue, fpValue_zero, Int.cast_zero, zero_div]

theorem mul_realValue_le_iff (m n : ℤ) (a b : Word) : (m : ℝ) * realValue a ≤ n * realValue b ↔ m * fpValue a ≤ n * fpValue b := by
  rw [realValue, realValue, ← mul_div_assoc, ← mul_div_assoc, div_le_div_iff_of_pos_right (by positivity)]
  exact_mod_cast Iff.rfl

theorem realValue_le_iff (a b : Word) : realValue a ≤ realValue b ↔ fpValue a ≤ fpValue b := by
  simpa using mul_realValue_le_iff 1 1 a b

theorem realValue_lt_iff (a b : Word) : realValue a < realValue b ↔ fpValue a < fpValue b := by
  rw [← not_le, realValue_le_iff, not_le]

theorem realValue_nonneg_iff (a : Word) : 0 ≤ realValue a ↔ 0 ≤ fpValue a := by
  rw [← realValue_zero, realValue_le_iff, fpValue_zero]

/-- The frequencies beyond n times k, in real numbers. -/
theorem isBeyond_iff (n : ℤ) (k v : Word) : isBeyond n k v = true ↔
    (n : ℝ) * realValue k ≤ realValue v ∧ (realValue v ≤ 1024 ∨ realValue v ≤ 2 * n * realValue k) := by
  have hlow := mul_realValue_le_iff n 1 k v
  have hhigh := mul_realValue_le_iff 1 (2 * n) v k
  have hmax : realValue v ≤ 1024 ↔ fpValue v ≤ 2 ^ 159 := by
    rw [realValue, div_le_iff₀ (by positivity), show (1024 : ℝ) * 2 ^ 149 = ((2 ^ 159 : ℤ) : ℝ) by norm_num]
    exact_mod_cast Iff.rfl
  push_cast [one_mul] at hlow hhigh
  rw [isBeyond, decide_eq_true_eq, hlow, hhigh, hmax]

/-! ### Low-pass sets -/

/-- A low-pass set has its poles inside the unit circle and, cross-multiplied, passes DC more strongly than Nyquist. -/
theorem lowPassSet_real {c : CoefSet Word} (h : lowPassSet c = true) : PolesInside (realSet c) ∧
    |(realSet c).f0 - (realSet c).f1 + (realSet c).f2| * (1 + (realSet c).b1 + (realSet c).b2) <
      |(realSet c).f0 + (realSet c).f1 + (realSet c).f2| * (1 - (realSet c).b1 + (realSet c).b2) := by
  simp only [lowPassSet, decide_eq_true_eq] at h
  obtain ⟨hlow, hhigh, hb1, hgain⟩ := h
  have hU : (0 : ℝ) < 2 ^ 149 := by positivity
  rify at hlow hhigh hb1 hgain
  simp only [fpValue_cast] at hlow hhigh hb1 hgain
  generalize (2 : ℝ) ^ 149 = U at *
  have hN : |U * realValue c.f0 - U * realValue c.f1 + U * realValue c.f2| = U * |realValue c.f0 - realValue c.f1 + realValue c.f2| := by
    rw [← mul_sub, ← mul_add, abs_mul, abs_of_pos hU]
  have hP : |U * realValue c.f0 + U * realValue c.f1 + U * realValue c.f2| = U * |realValue c.f0 + realValue c.f1 + realValue c.f2| := by
    rw [← mul_add, ← mul_add, abs_mul, abs_of_pos hU]
  rw [abs_mul, abs_of_pos hU] at hb1
  rw [hN, hP] at hgain
  simp only [PolesInside, realSet]
  refine ⟨⟨?_, ?_, ?_⟩, ?_⟩
  · exact lt_of_mul_lt_mul_left (by linarith : U * -1 < U * realValue c.b2) hU.le
  · exact lt_of_mul_lt_mul_left (by linarith : U * realValue c.b2 < U * 1) hU.le
  · exact lt_of_mul_lt_mul_left (by linarith : U * |realValue c.b1| < U * (1 + realValue c.b2)) hU.le
  · refine lt_of_mul_lt_mul_left ?_ (mul_nonneg hU.le hU.le)
    calc U * U * (|realValue c.f0 - realValue c.f1 + realValue c.f2| * (1 + realValue c.b1 + realValue c.b2))
        = U * |realValue c.f0 - realValue c.f1 + realValue c.f2| * (U + U * realValue c.b1 + U * realValue c.b2) := by ring
      _ < U * |realValue c.f0 + realValue c.f1 + realValue c.f2| * (U - U * realValue c.b1 + U * realValue c.b2) := hgain
      _ = _ := by ring

/-- With the poles inside, the denominator of the gain vanishes nowhere on the unit circle. -/
theorem responseSq_den_pos {c : CoefSet ℝ} (h : PolesInside c) (v : ℝ) : 0 < responseSq 1 c.b1 c.b2 v := by
  obtain ⟨-, hhigh, hb1⟩ := h
  obtain ⟨hb1, -⟩ := abs_lt.mp hb1
  unfold responseSq
  rcases eq_or_ne v 0 with rfl | hv
  · have : 0 < 1 + c.b2 + c.b1 := by linarith
    simpa using by positivity
  · have : 2 * v * (1 - c.b2) ≠ 0 := mul_ne_zero (mul_ne_zero two_ne_zero hv) (by linarith)
    positivity

/-- The gain at DC. -/
theorem gainAt_dc {c : CoefSet ℝ} (h : PolesInside c) : gainAt c 1 = |c.f0 + c.f1 + c.f2| / (1 + c.b1 + c.b2) := by
  obtain ⟨hb1, -⟩ := abs_lt.mp h.2.2
  have hval : ((c.f0 : ℂ) + c.f1 * 1 + c.f2 * 1 ^ 2) / (1 + c.b1 * 1 + c.b2 * 1 ^ 2) =
      (((c.f0 + c.f1 + c.f2) / (1 + c.b1 + c.b2) : ℝ) : ℂ) := by push_cast; ring
  rw [gainAt, hval, Complex.norm_real, Real.norm_eq_abs, abs_div, abs_of_pos (by linarith : 0 < 1 + c.b1 + c.b2)]

/-- The gain at Nyquist. -/
theorem gainAt_neg_one {c : CoefSet ℝ} (h : PolesInside c) : gainAt c (-1) = |c.f0 - c.f1 + c.f2| / (1 - c.b1 + c.b2) := by
  obtain ⟨-, hb1⟩ := abs_lt.mp h.2.2
  have hval : ((c.f0 : ℂ) + c.f1 * (-1) + c.f2 * (-1) ^ 2) / (1 + c.b1 * (-1) + c.b2 * (-1) ^ 2) =
      (((c.f0 - c.f1 + c.f2) / (1 - c.b1 + c.b2) : ℝ) : ℂ) := by push_cast; ring
  rw [gainAt, hval, Complex.norm_real, Real.norm_eq_abs, abs_div, abs_of_pos (by linarith : 0 < 1 - c.b1 + c.b2)]

/-- A low-pass set passes DC more strongly than Nyquist. -/
theorem gainAt_lt_of_lowPassSet {c : CoefSet Word} (h : lowPassSet c = true) : gainAt (realSet c) (-1) < gainAt (realSet c) 1 := by
  obtain ⟨hp, hgain⟩ := lowPassSet_real h
  obtain ⟨hb1, hb1'⟩ := abs_lt.mp hp.2.2
  rw [gainAt_dc hp, gainAt_neg_one hp, div_lt_div_iff₀ (by linarith) (by linarith)]
  exact hgain

/-! ### The parameters that the calculator does not read -/

theorem soundDesign_congr_defaults (c : Config) (kDefault qDefault : Word) (byteOrder : ByteOrder) (design : Word → Word → CoefSet Word) :
    soundDesign { c with kDefault := kDefault, qDefault := qDefault, byteOrder := byteOrder } design = soundDesign c design := rfl

/-- The design function does not read the defaults of INIT or the byte order. -/
theorem lpDesign_congr_defaults (c : Config) (kDefault qDefault : Word) (byteOrder : ByteOrder) (k q : Word) :
    lpDesign { c with kDefault := kDefault, qDefault := qDefault, byteOrder := byteOrder } k q = lpDesign c k q := by
  unfold lpDesign
  cases c.design with
  | bilinear => rfl
  | other n =>
    dsimp only
    rw [soundDesign_congr_defaults]
    rfl

/-- Settles O57: the set is the image of `asLowPass`, which is finite and low-pass whatever the free function gives. -/
theorem otherDesignsAreFiniteAndLowPass : Obligations.OtherDesignsAreFiniteAndLowPass := by
  intro c n k q hc r
  have hr : ∃ s, r = asLowPass s := by
    rcases lpDesign_other_cases hc with ⟨-, h⟩ | ⟨-, h⟩ <;> exact ⟨_, h _ _⟩
  obtain ⟨s, hs⟩ := hr
  rw [hs]
  have hset := lowPassSet_asLowPass s
  refine ⟨fun kDefault qDefault byteOrder k' q' hk hq => ?_, words_finite_asLowPass s, (lowPassSet_real hset).1,
    gainAt_lt_of_lowPassSet hset⟩
  rw [← hs, calculator, hk, hq]
  exact lpDesign_congr_defaults c kDefault qDefault byteOrder _ _

end Sys2Proof.Machine
end

section
/-! Property (c) of R113 for a design that is not the reference (spec/40_coefficient_calculator.md): each comparison of `soundDesign` is one of
relative gains in real numbers (log entry 4). -/

namespace Sys2Proof.Machine

/-! ### The relative gain of a set of words -/

/-- The gain of a set of words relative to DC, at the frequency that a word names. -/
noncomputable def wordGain (c : CoefSet Word) (v : Word) : ℝ := relativeGain (realSet c) (cutoffPoint (realValue v))

theorem wordGain_nonneg (c : CoefSet Word) (v : Word) : 0 ≤ wordGain c v := relativeGain_nonneg _ _

theorem gainNum_cast (c : CoefSet Word) (v : Word) :
    (gainNum c v : ℝ) = (2 ^ 149) ^ 6 * responseSq (realSet c).f0 (realSet c).f1 (realSet c).f2 (realValue v) := by
  simp only [gainNum, Int.cast_add, Int.cast_sub, Int.cast_mul, Int.cast_pow, Int.cast_ofNat, fpValue_cast, realSet, responseSq,
    -Int.reducePow]
  generalize (2 : ℝ) ^ 149 = U
  ring

theorem gainDen_cast (c : CoefSet Word) (v : Word) :
    (gainDen c v : ℝ) = (2 ^ 149) ^ 6 * responseSq 1 (realSet c).b1 (realSet c).b2 (realValue v) := by
  simp only [gainDen, Int.cast_add, Int.cast_sub, Int.cast_mul, Int.cast_pow, Int.cast_ofNat, fpValue_cast, realSet, responseSq,
    -Int.reducePow]
  generalize (2 : ℝ) ^ 149 = U
  ring

/-- The square of the relative gain is the quotient that the comparisons of `soundDesign` cross-multiply. -/
theorem wordGain_sq (c : CoefSet Word) (v : Word) : wordGain c v ^ 2 = relNum c v / relDen c v := by
  rw [wordGain, relativeGain_cutoffPoint_sq, relNum, relDen, Int.cast_mul, Int.cast_mul, gainNum_cast, gainNum_cast, gainDen_cast, gainDen_cast, realValue_zero]
  have hU : (0 : ℝ) < 2 ^ 149 := by positivity
  generalize (2 : ℝ) ^ 149 = U at *
  rw [mul_mul_mul_comm _ _ (U ^ 6), mul_mul_mul_comm _ _ (U ^ 6), mul_div_mul_left _ _ (by positivity)]

/-- A low-pass set passes DC, so its relative gain is a quotient by a positive number. -/
theorem relDen_pos {c : CoefSet Word} (h : lowPassSet c = true) (v : Word) : (0 : ℝ) < relDen c v := by
  obtain ⟨hp, hgain⟩ := lowPassSet_real h
  obtain ⟨hb1, hb1'⟩ := abs_lt.mp hp.2.2
  have hdc : (realSet c).f0 + (realSet c).f1 + (realSet c).f2 ≠ 0 := fun h0 => by
    rw [h0, abs_zero, zero_mul] at hgain
    exact absurd hgain (not_lt.mpr (mul_nonneg (abs_nonneg _) (by linarith)))
  have hnum : 0 < responseSq (realSet c).f0 (realSet c).f1 (realSet c).f2 0 := by
    rw [responseSq, show (((realSet c).f0 + (realSet c).f2) * (1 - 0 ^ 2) + (realSet c).f1 * (1 + 0 ^ 2)) =
      (realSet c).f0 + (realSet c).f1 + (realSet c).f2 by ring]
    positivity
  have hden := responseSq_den_pos hp (realValue v)
  rw [relDen, Int.cast_mul, gainNum_cast, gainDen_cast, realValue_zero]
  positivity

/-! ### The comparisons, in real numbers -/

section

variable {c c' : CoefSet Word} (h : lowPassSet c = true) (h' : lowPassSet c' = true)
include h h'

theorem wordGain_sq_le_iff (r : ℝ) (v v' : Word) : wordGain c v ^ 2 ≤ r * wordGain c' v' ^ 2 ↔
    (relNum c v : ℝ) * relDen c' v' ≤ r * relNum c' v' * relDen c v := by
  rw [wordGain_sq, wordGain_sq, ← mul_div_assoc, div_le_div_iff₀ (relDen_pos h v) (relDen_pos h' v')]

theorem gainBelow_iff (v v' : Word) : gainBelow c v c' v' = true ↔ wordGain c v < wordGain c' v' := by
  rw [← pow_lt_pow_iff_left₀ (wordGain_nonneg c v) (wordGain_nonneg c' v') two_ne_zero, ← not_le, ← one_mul (wordGain c v ^ 2),
    wordGain_sq_le_iff h' h, one_mul, not_le, gainBelow, decide_eq_true_eq]
  exact_mod_cast Iff.rfl

theorem gainAtMostTwice_iff (v v' : Word) : gainAtMostTwice c v c' v' = true ↔ wordGain c v ≤ 2 * wordGain c' v' := by
  rw [← pow_le_pow_iff_left₀ (wordGain_nonneg c v) (mul_nonneg zero_le_two (wordGain_nonneg c' v')) two_ne_zero, mul_pow,
    wordGain_sq_le_iff h h', gainAtMostTwice, decide_eq_true_eq, show (2 : ℝ) ^ 2 = 4 by norm_num]
  exact_mod_cast Iff.rfl

theorem gainNotAbove_iff (v v' : Word) :
    gainNotAbove c v c' v' = true ↔ wordGain c v ^ 2 ≤ (1 + 1 / 32) * wordGain c' v' ^ 2 := by
  rw [wordGain_sq_le_iff h h', gainNotAbove, decide_eq_true_eq, ← @Int.cast_le ℝ]
  push_cast
  constructor <;> intro hle <;> linarith

theorem peakNotAbove_iff : peakNotAbove c c' = true ↔ ∀ v, isFrequency v = true →
    ∃ v', isFrequency v' = true ∧ wordGain c v ^ 2 ≤ (1 + 1 / 32) * wordGain c' v' ^ 2 := by
  simp only [peakNotAbove, decide_eq_true_eq, gainNotAbove_iff h h']

theorem peakBelow_iff : peakBelow c c' = true ↔ ∃ v', isFrequency v' = true ∧
    ∀ v, isFrequency v = true → wordGain c v < wordGain c' v' := by
  simp only [peakBelow, decide_eq_true_eq, gainBelow_iff h h']

end

/-- The pass band: the square of the relative gain lies between 1/4 and 4. -/
theorem wordGain_of_passesAt {c : CoefSet Word} (h : lowPassSet c = true) {k q v : Word} (hpass : passesAt c k q v = true)
    (h0 : 0 ≤ realValue v) (h1 : 2 * realValue v ≤ realValue k) (h2 : 2 * realValue v ≤ realValue k * realValue q) :
    1 / 2 ≤ wordGain c v ∧ wordGain c v ≤ 2 := by
  simp only [passesAt, decide_eq_true_eq] at hpass
  have h1' : 2 * fpValue v ≤ fpValue k := by simpa using (mul_realValue_le_iff 2 1 v k).mp (by simpa using h1)
  have h2' : 2 * fpValue v * 2 ^ 149 ≤ fpValue k * fpValue q := by
    rify
    rw [fpValue_cast, fpValue_cast, fpValue_cast]
    have hU : (0 : ℝ) < 2 ^ 149 := by positivity
    generalize (2 : ℝ) ^ 149 = U at *
    nlinarith [mul_le_mul_of_nonneg_left h2 (mul_nonneg hU.le hU.le)]
  obtain ⟨hlow, hhigh⟩ := hpass ((realValue_nonneg_iff v).mp h0) h1' h2'
  rify at hlow hhigh
  have hD := relDen_pos h v
  have hsq := wordGain_sq c v
  constructor
  · refine le_of_sq_le_sq ?_ (wordGain_nonneg c v)
    rw [hsq, le_div_iff₀ hD]
    linarith
  · refine le_of_sq_le_sq ?_ zero_le_two
    rw [hsq, div_le_iff₀ hD]
    linarith

/-- The stop band falls like the square of the frequency. -/
theorem wordGain_of_stopsAt {c : CoefSet Word} (h : lowPassSet c = true) {k v : Word} (hstop : stopsAt c k v = true)
    (hv : isBeyond 2 k v = true) : wordGain c v * realValue v ^ 2 ≤ 2 * realValue k ^ 2 := by
  simp only [stopsAt, decide_eq_true_eq] at hstop
  have hle := hstop hv
  rify at hle
  rw [fpValue_cast, fpValue_cast, mul_pow, mul_pow] at hle
  refine le_of_sq_le_sq ?_ (by positivity)
  rw [mul_pow, wordGain_sq, div_mul_eq_mul_div, div_le_iff₀ (relDen_pos h v)]
  refine le_of_mul_le_mul_left ?_ (by positivity : (0 : ℝ) < (2 ^ 149) ^ 4)
  generalize (2 : ℝ) ^ 149 = U at *
  linarith

/-! ### The statement -/

/-- Settles O60: over the clamped domain a sound free function is taken as it is, and each of its properties is one of relative gains. -/
theorem otherDesignsFollowTheirParameters : Obligations.OtherDesignsFollowTheirParameters := by
  intro c n hc gain
  refine (lpDesign_other_cases hc).symm.imp_right ?_
  rintro ⟨hs, heq⟩
  have hd : ∀ {k q}, inDomain c k q = true → lpDesign c k q = Config.otherDesign n k q := fun h => (heq _ _).trans (asLowPass_of_sound hs h)
  have hg : ∀ {k q} v, inDomain c k q = true → gain k q v = wordGain (Config.otherDesign n k q) v := fun v h =>
    congrArg (wordGain · v) (hd h)
  obtain ⟨-, -, -, hset, hband, hcut, hres, hskirt, hfar⟩ := (soundDesign_iff c _).mp hs
  have hlow : ∀ {k q}, inDomain c k q = true → lowPassSet (Config.otherDesign n k q) = true := fun h => (hset _ _ h).2
  have hapart : ∀ {a b : Word}, (1 + 1 / 32) * realValue a ≤ realValue b → 33 * fpValue a ≤ 32 * fpValue b := fun h =>
    (mul_realValue_le_iff 33 32 _ _).mp (by push_cast; linarith)
  refine ⟨?_, ?_, ?_, ?_, ?_, ?_⟩
  · intro k q v hk hv h0 h1 h2
    rw [hg v hk]
    exact wordGain_of_passesAt (hlow hk) (hband k q v hk hv).1 h0 h1 h2
  · intro k q v hk hv h1 h2
    rw [hg v hk]
    exact wordGain_of_stopsAt (hlow hk) (hband k q v hk hv).2 ((isBeyond_iff 2 k v).mpr ⟨h1, h2.imp_right fun h => by push_cast; linarith⟩)
  · intro k k' q hk hk'
    rw [hg k hk, hg k' hk']
    exact (gainAtMostTwice_iff (hlow hk) (hlow hk') k k').mp (hcut k k' q hk hk')
  · intro k q q' hk hk' hqq
    simp only [hg _ hk, hg _ hk']
    obtain ⟨hcutoff, hpeak, hstrict⟩ := hres k q q' hk hk' ((realValue_lt_iff q q').mp hqq)
    refine ⟨(gainNotAbove_iff (hlow hk) (hlow hk') k k).mp hcutoff, (peakNotAbove_iff (hlow hk) (hlow hk')).mp hpeak, fun hfar => ?_⟩
    obtain ⟨hbelow, hpeakBelow⟩ := hstrict (hapart hfar)
    exact ⟨(gainBelow_iff (hlow hk) (hlow hk') k k).mp hbelow,
      fun hb => (peakBelow_iff (hlow hk) (hlow hk')).mp (hpeakBelow ((realValue_le_iff _ _).mp hb))⟩
  · intro k k' q v hk hk' hv hkk h1 h2
    rw [hg v hk, hg v hk']
    obtain ⟨hnot, hstrict⟩ := hskirt k k' q v hk hk' hv ((realValue_lt_iff k k').mp hkk)
      ((isBeyond_iff 2 k' v).mpr ⟨h1, h2.imp_right fun h => by push_cast; linarith⟩)
    exact ⟨(gainNotAbove_iff (hlow hk) (hlow hk') v v).mp hnot,
      fun hfar => (gainBelow_iff (hlow hk) (hlow hk') v v).mp (hstrict (hapart hfar))⟩
  · intro k q q' v hk hk' hv hb hb' h1 h2
    rw [hg v hk, hg v hk']
    have hle := hfar k q q' v hk hk' hv ((realValue_le_iff _ _).mp hb) ((realValue_le_iff _ _).mp hb')
      ((isBeyond_iff 4 k v).mpr ⟨h1, h2.imp_right fun h => by push_cast; linarith⟩)
    exact (wordGain_sq_le_iff (hlow hk) (hlow hk') 2 v v).mpr (by exact_mod_cast hle)

end Sys2Proof.Machine
end

section
/-! One rounding in real numbers (spec/00_scope.md R9): the relative error of an operation, exact doubling, and how errors add up along a
formula. -/

namespace Sys2Proof.Machine

/-! ### The relative error of one rounding -/

/-- Half a unit in the last place, relative to the value. -/
noncomputable def roundingUnit : ℝ := 1 / 2 ^ 24

theorem roundingUnit_pos : 0 < roundingUnit := by unfold roundingUnit; positivity

theorem roundingUnit_le : roundingUnit ≤ 1 / 10000000 := by unfold roundingUnit; norm_num

/-- A value that is normal or a whole number of units is rounded with a relative error of at most 2^-24. -/
theorem roundedUnits_relative {num den : Nat} (hd : 0 < den) (h : (2 : ℚ) ^ 23 ≤ num / den ∨ ∃ n : ℕ, (num : ℚ) / den = n) :
    |(roundedUnits num den : ℚ) - num / den| ≤ num / den / 2 ^ 24 := by
  have hnear := roundedUnits_near num hd
  rcases Nat.eq_zero_or_pos (roundShift num den) with ht | ht
  · rw [ht, pow_zero] at hnear
    rcases h with h | ⟨n, hn⟩
    · linarith
    · rw [hn] at hnear ⊢
      have hlt : |(roundedUnits num den : ℤ) - n| < 1 := by
        have : |(roundedUnits num den : ℚ) - n| < 1 := by linarith
        exact_mod_cast this
      have heq : (roundedUnits num den : ℚ) = n := by exact_mod_cast sub_eq_zero.mp (Int.abs_lt_one_iff.mp hlt)
      rw [heq, sub_self, abs_zero]
      positivity
  · have hlead : (2 : ℚ) ^ (roundShift num den + 23) ≤ num / den := by
      rw [le_div_iff₀ (by exact_mod_cast hd)]
      exact_mod_cast (Nat.le_div_iff_mul_le hd).mp (roundShift_le_div ht)
    rw [pow_add] at hlead
    linarith

/-- A rounded word is finite below the overflow bound, and its relative error is at most 2^-24. -/
theorem roundWord_relative (s : Bool) {num den : Nat} (hd : 0 < den) (hlt : (num : ℚ) / den < overflowUnits)
    (h : (2 : ℚ) ^ 23 ≤ num / den ∨ ∃ n : ℕ, (num : ℚ) / den = n) :
    isFinite (roundWord s num den) = true ∧
      |(fpValue (roundWord s num den) : ℚ) - signFactor s * (num / den)| ≤ num / den / 2 ^ 24 := by
  have hmag := roundMagnitude_lt_infMagnitude hd hlt
  rw [isFinite_roundWord, decide_eq_true_eq, fpValue_roundWord s hd hmag, ← mul_sub, abs_signFactor_mul]
  exact ⟨hmag, roundedUnits_relative hd h⟩

/-- The exact result of a primitive in real numbers. -/
noncomputable def realResult (op : FpOp) (x y : ℝ) : ℝ :=
  match op with
  | .add => x + y
  | .sub => x - y
  | .mul => x * y
  | .div => x / y

theorem exactResult_cast (op : FpOp) (a b : Word) :
    (exactResult op a b : ℝ) = 2 ^ 149 * realResult op (realValue a) (realValue b) := by
  cases op with
  | add => simp only [exactResult, realResult]; push_cast; rw [fpValue_cast, fpValue_cast, mul_add]
  | sub => simp only [exactResult, realResult]; push_cast; rw [fpValue_cast, fpValue_cast, mul_sub]
  | mul => simp only [exactResult, realResult]; push_cast; rw [fpValue_cast, fpValue_cast]; ring
  | div =>
    simp only [exactResult, realResult]
    push_cast
    rw [fpValue_cast, fpValue_cast, mul_assoc, mul_div_mul_left _ _ (by positivity)]
    ring

/-- The sum and the difference of two words are a whole number of units. -/
theorem exactResult_add_sub {op : FpOp} (h : op = .add ∨ op = .sub) (a b : Word) : ∃ n : ℤ, exactResult op a b = n := by
  rcases h with rfl | rfl
  · exact ⟨fpValue a + fpValue b, by rw [exactResult]; push_cast; rfl⟩
  · exact ⟨fpValue a - fpValue b, by rw [exactResult]; push_cast; rfl⟩

/-- The reference arithmetic without FTZ rounds a result that neither overflows nor falls below the normal range with a relative error of at
most 2^-24; a sum or a difference has no lower limit. -/
theorem fpOp_relative {c : Config} (hfp : c.fp = .binary32) (hftz : c.ftz = false) (op : FpOp) (key : NanKey) {a b : Word}
    (ha : isFinite a = true) (hb : isFinite b = true) (hdiv : op = .div → isZero b = false)
    (hhigh : |realResult op (realValue a) (realValue b)| ≤ 2 ^ 100)
    (hlow : (op = .add ∨ op = .sub) ∨ realResult op (realValue a) (realValue b) = 0 ∨
      1 / 2 ^ 100 ≤ |realResult op (realValue a) (realValue b)|) :
    isFinite (fpOp c op key a b) = true ∧
      |realValue (fpOp c op key a b) - realResult op (realValue a) (realValue b)| ≤
        roundingUnit * |realResult op (realValue a) (realValue b)| := by
  obtain ⟨s, num, den, hd, hr, he⟩ := refOp_isRounded op ha hb hdiv
  have hx : (0 : ℚ) ≤ num / den := by positivity
  have habs : |exactResult op a b| = (num : ℚ) / den := by rw [he, abs_signFactor_mul, abs_of_nonneg hx]
  have hcast := exactResult_cast op a b
  set z := realResult op (realValue a) (realValue b) with hz
  have habs' : (((num : ℚ) / den : ℚ) : ℝ) = 2 ^ 149 * |z| := by
    rw [← habs, Rat.cast_abs, hcast, abs_mul, abs_of_pos (by positivity)]
  have hlt : (num : ℚ) / den < overflowUnits := by
    rw [← Rat.cast_lt (K := ℝ), habs', overflowUnits]
    refine (mul_le_mul_of_nonneg_left hhigh (by positivity)).trans_lt ?_
    norm_num
  have hnorm : (2 : ℚ) ^ 23 ≤ num / den ∨ ∃ n : ℕ, (num : ℚ) / den = n := by
    rcases hlow with h | h | h
    · obtain ⟨n, hn⟩ := exactResult_add_sub h a b
      exact .inr ⟨n.natAbs, by rw [← habs, hn, Nat.cast_natAbs, Int.cast_abs]⟩
    · refine .inr ⟨0, ?_⟩
      rw [← Rat.cast_inj (α := ℝ), habs', h]
      simp
    · left
      rw [← Rat.cast_le (K := ℝ), habs']
      refine le_trans ?_ (mul_le_mul_of_nonneg_left h (by positivity))
      norm_num
  obtain ⟨hfin, herr⟩ := roundWord_relative s hd hlt hnorm
  have hop : fpOp c op key a b = roundWord s num den := by rw [fpOp_of_some hfp key hr, hftz, if_neg Bool.false_ne_true]
  rw [hop]
  refine ⟨hfin, ?_⟩
  rw [← he, ← Rat.cast_le (K := ℝ)] at herr
  push_cast [hcast, fpValue_cast] at herr
  push_cast at habs'
  rw [habs', ← mul_sub, abs_mul, abs_of_pos (by positivity : (0 : ℝ) < 2 ^ 149), mul_div_assoc] at herr
  have := le_of_mul_le_mul_left herr (by positivity)
  rw [roundingUnit]
  linarith

/-! ### Doubling is exact -/

/-- Twice the units of a word are a whole number of units in the last place. -/
theorem double_on_grid (w : Word) {num den : Nat} (hd : 0 < den) (h : num = 2 * fpUnits w * den) :
    ∃ k : ℕ, 2 * fpUnits w = k * 2 ^ roundShift num den := by
  have hdiv : num / den = 2 * fpUnits w := by rw [h, Nat.mul_div_cancel _ hd]
  cases ht : roundShift num den with
  | zero => exact ⟨2 * fpUnits w, by simp⟩
  | succ t =>
    have hlead := roundShift_le_div (num := num) (den := den) (by omega)
    rw [hdiv, ht] at hlead
    rcases fpUnits_grid (v := w) t with ⟨k, hk⟩ | ⟨-, hlt⟩
    · exact ⟨k, by rw [hk, pow_succ]; ring⟩
    · rw [show t + 1 + 23 = t + 23 + 1 by omega, pow_succ] at hlead
      omega

theorem roundedUnits_double (w : Word) {num den : Nat} (hd : 0 < den) (h : num = 2 * fpUnits w * den) :
    roundedUnits num den = 2 * fpUnits w := by
  obtain ⟨k, hk⟩ := double_on_grid w hd h
  have hden : (den : ℚ) ≠ 0 := by exact_mod_cast hd.ne'
  have hval : (num : ℚ) / den = ((2 * fpUnits w : ℕ) : ℚ) := by
    rw [h]
    push_cast
    rw [mul_div_cancel_right₀ _ hden]
  have hnear := (roundedUnits_nearest_multiple num hd k).1
  have hgrid : ((k : ℤ) : ℚ) * 2 ^ roundShift num den = ((2 * fpUnits w : ℕ) : ℚ) := by rw [hk]; push_cast; rfl
  rw [hgrid, hval, sub_self, abs_zero] at hnear
  exact_mod_cast sub_eq_zero.mp (abs_nonpos_iff.mp hnear)

theorem fpValue_fpOne : fpValue fpOne = 2 ^ 149 := by decide +kernel

theorem fpUnits_fpTwo : fpUnits fpTwo = 2 * 2 ^ 149 := by decide +kernel

theorem realValue_fpOne : realValue fpOne = 1 := by
  rw [realValue, fpValue_fpOne]
  norm_num

theorem realValue_double {v w : Word} (h : fpValue v = 2 * fpValue w) : realValue v = 2 * realValue w := by
  rw [realValue, h, realValue, Int.cast_mul, mul_div_assoc]
  rfl

/-- A product with 2.0 is exact. -/
theorem fpOp_double {c : Config} (hfp : c.fp = .binary32) (hftz : c.ftz = false) (key : NanKey) {w : Word} (hw : isFinite w = true)
    (hhigh : |realValue w| ≤ 2 ^ 99) :
    isFinite (fpOp c .mul key fpTwo w) = true ∧ fpValue (fpOp c .mul key fpTwo w) = 2 * fpValue w := by
  have hop : fpOp c .mul key fpTwo w = roundWord (fpSign w) (fpUnits fpTwo * fpUnits w) (2 ^ 149) := by
    have hr : refOp .mul fpTwo w = some _ := refMul_finite (by decide) hw
    rw [fpOp_of_some hfp key hr, hftz, if_neg Bool.false_ne_true, show fpSign fpTwo = false by decide, Bool.false_bne]
  have hnum : fpUnits fpTwo * fpUnits w = 2 * fpUnits w * 2 ^ 149 := by rw [fpUnits_fpTwo]; ring
  have hunits := fpValue_eq_signFactor w
  have hlt : ((fpUnits fpTwo * fpUnits w : ℕ) : ℚ) / (2 ^ 149 : ℕ) < overflowUnits := by
    have hU : |(fpValue w : ℚ)| = fpUnits w := by rw [hunits, abs_signFactor_mul, Nat.abs_cast]
    rw [realValue, abs_div, abs_of_pos (by positivity : (0 : ℝ) < 2 ^ 149), div_le_iff₀ (by positivity)] at hhigh
    have hle : |(fpValue w : ℚ)| ≤ 2 ^ 99 * 2 ^ 149 := by exact_mod_cast hhigh
    rw [hU] at hle
    rw [hnum, Nat.cast_mul, mul_div_cancel_right₀ _ (by positivity), overflowUnits]
    push_cast
    linarith
  have hmag := roundMagnitude_lt_infMagnitude (by positivity) hlt
  rw [hop]
  refine ⟨by rw [isFinite_roundWord, decide_eq_true_eq]; exact hmag, ?_⟩
  have hval := fpValue_roundWord (fpSign w) (by positivity) hmag
  rw [roundedUnits_double w (by positivity) hnum] at hval
  have : (fpValue (roundWord (fpSign w) (fpUnits fpTwo * fpUnits w) (2 ^ 149)) : ℚ) = ((2 * fpValue w : ℤ) : ℚ) := by
    rw [hval]
    push_cast
    rw [hunits]
    ring
  exact_mod_cast this

/-! ### Errors along a formula -/

/-- The word stands for `x`, of a magnitude of at most `S`, with an error of at most `n` roundings of `S`. -/
structure Near (w : Word) (x n S : ℝ) : Prop where
  finite : isFinite w = true
  bound : |x| ≤ S
  error : |realValue w - x| ≤ n * roundingUnit * S

theorem Near.exact {w : Word} {x S : ℝ} (hw : isFinite w = true) (hx : realValue w = x) (hS : |x| ≤ S) : Near w x 0 S :=
  ⟨hw, hS, by rw [hx]; simp⟩

theorem Near.mono {w : Word} {x m n S : ℝ} (h : Near w x m S) (hmn : m ≤ n) : Near w x n S where
  finite := h.finite
  bound := h.bound
  error := h.error.trans (mul_le_mul_of_nonneg_right (mul_le_mul_of_nonneg_right hmn roundingUnit_pos.le) ((abs_nonneg x).trans h.bound))

theorem Near.scale_nonneg {w : Word} {x n S : ℝ} (h : Near w x n S) : 0 ≤ S := (abs_nonneg x).trans h.bound

/-- With few roundings the word's own magnitude is at most twice the scale. -/
theorem Near.abs_value_le {w : Word} {x n S : ℝ} (h : Near w x n S) (hn : n ≤ 100) : |realValue w| ≤ 2 * S := by
  have herr := (h.mono hn).error
  have htri := abs_sub_abs_le_abs_sub (realValue w) x
  nlinarith [h.bound, h.scale_nonneg, roundingUnit_le]

/-- A word whose scale is its own magnitude stays away from zero. -/
theorem Near.half_le_abs {w : Word} {x n : ℝ} (h : Near w x n |x|) (hn : n ≤ 100) : |x| / 2 ≤ |realValue w| := by
  have herr := (h.mono hn).error
  have htri := abs_sub_abs_le_abs_sub x (realValue w)
  rw [abs_sub_comm] at htri
  nlinarith [abs_nonneg x, roundingUnit_le]

section

variable {c : Config} (hfp : c.fp = .binary32) (hftz : c.ftz = false)
include hfp hftz

/-- The last rounding: where the exact result on the words misses `x` by `e` roundings of `S`, the rounded one misses it by two more. -/
theorem Near.of_exact_result (op : FpOp) (key : NanKey) {a b : Word} {x e S : ℝ} (ha : isFinite a = true) (hb : isFinite b = true)
    (hdiv : op = .div → isZero b = false) (he : 0 ≤ e) (he' : e ≤ 1000) (hx : |x| ≤ S) (hhigh : S ≤ 2 ^ 99)
    (hlow : (op = .add ∨ op = .sub) ∨ realResult op (realValue a) (realValue b) = 0 ∨
      1 / 2 ^ 100 ≤ |realResult op (realValue a) (realValue b)|)
    (hz : |realResult op (realValue a) (realValue b) - x| ≤ e * roundingUnit * S) : Near (fpOp c op key a b) x (e + 3 / 2) S := by
  have hu := roundingUnit_pos
  have hS : 0 ≤ S := (abs_nonneg x).trans hx
  have hsmall : e * roundingUnit ≤ 1 / 2 := by nlinarith [roundingUnit_le]
  have hzle : |realResult op (realValue a) (realValue b)| ≤ 3 / 2 * S := by
    nlinarith [abs_sub_abs_le_abs_sub (realResult op (realValue a) (realValue b)) x]
  obtain ⟨hfin, hround⟩ := fpOp_relative hfp hftz op key ha hb hdiv (by linarith) hlow
  refine ⟨hfin, hx, ?_⟩
  have htri := abs_sub_le (realValue (fpOp c op key a b)) (realResult op (realValue a) (realValue b)) x
  linarith [mul_le_mul_of_nonneg_left hzle hu.le]

/-- A sum: the scales add up. -/
theorem Near.add (key : NanKey) {a b : Word} {x y n S T : ℝ} (ha : Near a x n S) (hb : Near b y n T) (h0 : 0 ≤ n) (hn : n ≤ 100)
    (hhigh : S + T ≤ 2 ^ 99) : Near (fpOp c .add key a b) (x + y) (n + 2) (S + T) := by
  have hz : |realValue a + realValue b - (x + y)| ≤ n * roundingUnit * (S + T) := by
    rw [add_sub_add_comm]
    linarith [abs_add_le (realValue a - x) (realValue b - y), ha.error, hb.error]
  exact (Near.of_exact_result hfp hftz .add key ha.finite hb.finite (by simp) h0 (by linarith)
    (by linarith [abs_add_le x y, ha.bound, hb.bound]) hhigh (.inl (.inl rfl)) hz).mono (by linarith)

/-- A difference, in the same way. -/
theorem Near.sub (key : NanKey) {a b : Word} {x y n S T : ℝ} (ha : Near a x n S) (hb : Near b y n T) (h0 : 0 ≤ n) (hn : n ≤ 100)
    (hhigh : S + T ≤ 2 ^ 99) : Near (fpOp c .sub key a b) (x - y) (n + 2) (S + T) := by
  have hz : |realValue a - realValue b - (x - y)| ≤ n * roundingUnit * (S + T) := by
    rw [sub_sub_sub_comm]
    linarith [abs_sub (realValue a - x) (realValue b - y), ha.error, hb.error]
  exact (Near.of_exact_result hfp hftz .sub key ha.finite hb.finite (by simp) h0 (by linarith)
    (by linarith [abs_sub x y, ha.bound, hb.bound]) hhigh (.inl (.inr rfl)) hz).mono (by linarith)

/-- A product, of normal size or exactly zero: the scales multiply and the errors add up. -/
theorem Near.mul (key : NanKey) {a b : Word} {x y m n S T : ℝ} (ha : Near a x m S) (hb : Near b y n T) (h0 : 0 ≤ m) (hm : m ≤ 100)
    (h0' : 0 ≤ n) (hn : n ≤ 100) (hhigh : S * T ≤ 2 ^ 99)
    (hlow : realValue a * realValue b = 0 ∨ 1 / 2 ^ 100 ≤ |realValue a * realValue b|) :
    Near (fpOp c .mul key a b) (x * y) (m + n + 2) (S * T) := by
  have hu := roundingUnit_pos
  have hS := ha.scale_nonneg
  have hT := hb.scale_nonneg
  have hbound : |x * y| ≤ S * T := by
    rw [abs_mul]
    exact mul_le_mul ha.bound hb.bound (abs_nonneg _) hS
  have hz : |realValue a * realValue b - x * y| ≤ (m + n + 1 / 2) * roundingUnit * (S * T) := by
    have hfirst : |(realValue a - x) * realValue b| ≤ m * roundingUnit * S * (T + n * roundingUnit * T) := by
      rw [abs_mul]
      refine mul_le_mul ha.error ?_ (abs_nonneg _) (by positivity)
      linarith [abs_sub_abs_le_abs_sub (realValue b) y, hb.bound, hb.error]
    have hsecond : |x * (realValue b - y)| ≤ S * (n * roundingUnit * T) := by
      rw [abs_mul]
      exact mul_le_mul ha.bound hb.error (abs_nonneg _) hS
    have hsmall : m * (n * roundingUnit) ≤ 1 / 2 := by nlinarith [mul_le_mul hm hn h0' (by norm_num), roundingUnit_le]
    have hcross : m * (n * roundingUnit) * (roundingUnit * (S * T)) ≤ 1 / 2 * (roundingUnit * (S * T)) :=
      mul_le_mul_of_nonneg_right hsmall (by positivity)
    have hsplit : realValue a * realValue b - x * y = (realValue a - x) * realValue b + x * (realValue b - y) := by ring
    rw [hsplit]
    linarith [abs_add_le ((realValue a - x) * realValue b) (x * (realValue b - y))]
  exact (Near.of_exact_result hfp hftz .mul key ha.finite hb.finite (by simp) (by linarith) (by linarith) hbound hhigh (.inr hlow)
    hz).mono (by linarith)

/-- A quotient of normal size by a positive number with a relative error. -/
theorem Near.div (key : NanKey) {a b : Word} {x y m n S : ℝ} (ha : Near a x m S) (hb : Near b y n y) (hy : 0 < y) (h0 : 0 ≤ m)
    (hm : m ≤ 100) (h0' : 0 ≤ n) (hn : n ≤ 100) (hhigh : S / y ≤ 2 ^ 99)
    (hlow : 1 / 2 ^ 100 ≤ |realValue a / realValue b|) :
    Near (fpOp c .div key a b) (x / y) (m + n + 2) (S / y) := by
  have hu := roundingUnit_pos
  have hS := ha.scale_nonneg
  have hsmall : n * roundingUnit ≤ 1 / 1000 := by nlinarith [roundingUnit_le]
  have hbpos : y * (1 - n * roundingUnit) ≤ realValue b := by linarith [(abs_le.mp hb.error).1]
  have hb0 : 0 < realValue b := by nlinarith
  have hzero : isZero b = false := by
    refine Bool.eq_false_iff.mpr fun hz => hb0.ne' ?_
    rw [realValue, (fpValue_eq_zero_iff b).mpr hz, Int.cast_zero, zero_div]
  have hbound : |x / y| ≤ S / y := by
    rw [abs_div, abs_of_pos hy]
    exact div_le_div_of_nonneg_right ha.bound hy.le
  have hz : |realValue a / realValue b - x / y| ≤ (m + n + 1 / 2) * roundingUnit * (S / y) := by
    have hnum : |realValue a * y - realValue b * x| ≤ (m + n) * roundingUnit * (S * y) := by
      have hsplit : realValue a * y - realValue b * x = (realValue a - x) * y - x * (realValue b - y) := by ring
      have hfirst : |(realValue a - x) * y| ≤ m * roundingUnit * S * y := by
        rw [abs_mul, abs_of_pos hy]
        exact mul_le_mul_of_nonneg_right ha.error hy.le
      have hsecond : |x * (realValue b - y)| ≤ S * (n * roundingUnit * y) := by
        rw [abs_mul]
        exact mul_le_mul ha.bound hb.error (abs_nonneg _) hS
      rw [hsplit]
      linarith [abs_sub ((realValue a - x) * y) (x * (realValue b - y))]
    have hgrow : m + n ≤ (m + n + 1 / 2) * (1 - n * roundingUnit) := by nlinarith
    rw [div_sub_div _ _ hb0.ne' hy.ne', abs_div, abs_of_pos (mul_pos hb0 hy), div_le_iff₀ (mul_pos hb0 hy)]
    calc |realValue a * y - realValue b * x| ≤ (m + n) * (roundingUnit * (S * y)) := by linarith
      _ ≤ (m + n + 1 / 2) * (1 - n * roundingUnit) * (roundingUnit * (S * y)) := mul_le_mul_of_nonneg_right hgrow (by positivity)
      _ = (m + n + 1 / 2) * roundingUnit * S * (y * (1 - n * roundingUnit)) := by ring
      _ ≤ (m + n + 1 / 2) * roundingUnit * S * realValue b := mul_le_mul_of_nonneg_left hbpos (by positivity)
      _ = (m + n + 1 / 2) * roundingUnit * (S / y) * (realValue b * y) := by field_simp
  exact (Near.of_exact_result hfp hftz .div key ha.finite hb.finite (fun _ => hzero) (by linarith) (by linarith) hbound hhigh
    (.inr (.inr hlow)) hz).mono (by linarith)

/-- Doubling adds no error. -/
theorem Near.double (key : NanKey) {w : Word} {x n S : ℝ} (h : Near w x n S) (hn : n ≤ 100) (hhigh : S ≤ 2 ^ 90) :
    Near (fpOp c .mul key fpTwo w) (2 * x) n (2 * S) := by
  obtain ⟨hfin, hval⟩ := fpOp_double hfp hftz key h.finite (by linarith [h.abs_value_le hn])
  refine ⟨hfin, ?_, ?_⟩
  · rw [abs_mul, abs_two]
    linarith [h.bound]
  · rw [realValue_double hval, ← mul_sub, abs_mul, abs_two]
    linarith [h.error]

end

end Sys2Proof.Machine
end

section
/-! The binary32 reference calculator (spec/40_coefficient_calculator.md R114, R115, R118; spec/92_eei_decisions.md D25): every word of the formula
next to its exact value, so five finite words, and a margin of stability that the roundings do not use up. -/

namespace Sys2Proof.Machine

/-! ### The reference configuration -/

/-- What the calculator reads of a reference configuration. -/
theorem ReferenceUpToNaN.fields {c : Config} (h : ReferenceUpToNaN c) :
    c.fp = .binary32 ∧ c.ftz = false ∧ c.design = .bilinear ∧ c.kMin = 0x3B4DE35B ∧ c.kMax = 0x41FE907B ∧ c.qMin = 0x3F3504F3 ∧
      c.qMax = 0x413504F3 :=
  ⟨congrArg Config.fp h, congrArg Config.ftz h, congrArg Config.design h, congrArg Config.kMin h, congrArg Config.kMax h,
    congrArg Config.qMin h, congrArg Config.qMax h⟩

/-- Operands that the reference clamps let through, by slightly wider bounds. -/
structure Clamped (k q : Word) : Prop where
  finite_k : isFinite k = true
  finite_q : isFinite q = true
  le_k : 3 / 1000 ≤ realValue k
  k_le : realValue k ≤ 32
  le_q : 7 / 10 ≤ realValue q
  q_le : realValue q ≤ 12

theorem realValue_eq {w : Word} {n : ℤ} (h : fpValue w = n) : realValue w = n / 2 ^ 149 := by rw [realValue, h]

/-- A clamp between finite bounds gives a finite word between them. -/
theorem clampWord_bounds {lo hi : Word} (hlo : isFinite lo = true) (hhi : isFinite hi = true) (hle : fpValue lo ≤ fpValue hi) (v : Word) :
    isFinite (clampWord lo hi v) = true ∧ realValue lo ≤ realValue (clampWord lo hi v) ∧ realValue (clampWord lo hi v) ≤ realValue hi := by
  simp only [realValue_le_iff]
  by_cases hlow : isNaN v = true ∨ fpLess v lo = true
  · rw [clampWord_low hi hlow]
    exact ⟨hlo, le_rfl, hle⟩
  · simp only [not_or, Bool.not_eq_true] at hlow
    obtain ⟨hn, hless⟩ := hlow
    cases hgt : fpGreater v hi with
    | true =>
      rw [clampWord_high hn hless hgt]
      exact ⟨hhi, hle, le_rfl⟩
    | false =>
      rw [clampWord_within hn hless hgt]
      have hv := finite_of_between hn hlo hhi hless hgt
      exact ⟨hv, not_lt.mp fun h => by simp [(fpLess_finite_iff hv hlo).mpr h] at hless,
        not_lt.mp fun h => by simp [fpGreater, (fpLess_finite_iff hhi hv).mpr h] at hgt⟩

theorem clamped_of_reference {c : Config} (h : ReferenceUpToNaN c) (k q : Word) : Clamped (clampK c k) (clampQ c q) := by
  obtain ⟨-, -, -, hkmin, hkmax, hqmin, hqmax⟩ := h.fields
  rw [clampK_eq, clampQ_eq, hkmin, hkmax, hqmin, hqmax]
  obtain ⟨fk, hk, hk'⟩ := clampWord_bounds (lo := 0x3B4DE35B) (hi := 0x41FE907B) (by decide) (by decide) (by decide +kernel) k
  obtain ⟨fq, hq, hq'⟩ := clampWord_bounds (lo := 0x3F3504F3) (hi := 0x413504F3) (by decide) (by decide) (by decide +kernel) q
  rw [realValue_eq (w := 0x3B4DE35B) (n := 13493083 * 2 ^ 117) (by decide +kernel)] at hk
  rw [realValue_eq (w := 0x41FE907B) (n := 16683131 * 2 ^ 130) (by decide +kernel)] at hk'
  rw [realValue_eq (w := 0x3F3504F3) (n := 11863283 * 2 ^ 125) (by decide +kernel)] at hq
  rw [realValue_eq (w := 0x413504F3) (n := 11863283 * 2 ^ 129) (by decide +kernel)] at hq'
  exact ⟨fk, fq, le_trans (by norm_num) hk, hk'.trans (by norm_num), le_trans (by norm_num) hq, hq'.trans (by norm_num)⟩

/-! ### The words of the formula (R114) -/

section

variable (c : Config) (k q : Word)

/-- `kk` -/
def refSquare : Word := fpOp c .mul (.design k q 0) k k
/-- `kq` -/
def refQuotient : Word := fpOp c .div (.design k q 1) k q
/-- `D` -/
def refDenominator : Word := fpOp c .add (.design k q 3) (fpOp c .add (.design k q 2) fpOne (refQuotient c k q)) (refSquare c k q)
/-- `inv` -/
def refInverse : Word := fpOp c .div (.design k q 4) fpOne (refDenominator c k q)
/-- `f0` -/
def refGain : Word := fpOp c .mul (.design k q 5) (refSquare c k q) (refInverse c k q)
/-- `kk − 1`, in b1 -/
def refDifference : Word := fpOp c .sub (.design k q 7) (refSquare c k q) fpOne
/-- Twice that difference. -/
def refTwiceDifference : Word := fpOp c .mul (.design k q 8) fpTwo (refDifference c k q)
/-- `(1 − kq) + kk`, in b2 -/
def refSum : Word := fpOp c .add (.design k q 11) (fpOp c .sub (.design k q 10) fpOne (refQuotient c k q)) (refSquare c k q)

theorem referenceDesign_eq : referenceDesign c k q =
    { f0 := refGain c k q
      f1 := fpOp c .mul (.design k q 6) fpTwo (refGain c k q)
      f2 := refGain c k q
      b1 := fpOp c .mul (.design k q 9) (refTwiceDifference c k q) (refInverse c k q)
      b2 := fpOp c .mul (.design k q 12) (refSum c k q) (refInverse c k q) } := rfl

end

/-! ### Exact values over the clamped domain -/

/-- The ranges of `k²`, `k/q` and `D` over the clamped domain. -/
structure ExactRanges (k q : ℝ) : Prop where
  k_pos : 0 < k
  q_pos : 0 < q
  le_square : 9 / 1000000 ≤ k ^ 2
  square_le : k ^ 2 ≤ 1024
  le_quotient : k / 12 ≤ k / q
  quotient_le : k / q ≤ 10 / 7 * k
  k_le : k ≤ 32
  one_le_D : 1 ≤ exactD k q
  D_le : exactD k q ≤ 1100
  le_inverse : 1 / 1100 ≤ 1 / exactD k q
  inverse_le : 1 / exactD k q ≤ 1
  /-- `1 − k/q + k²`, the numerator of b2, stays away from zero -/
  sum_pos : 2 / 5 ≤ 1 - k / q + k ^ 2

theorem Clamped.ranges {k q : Word} (h : Clamped k q) : ExactRanges (realValue k) (realValue q) := by
  obtain ⟨-, -, hk, hk', hq, hq'⟩ := h
  have hk0 : 0 < realValue k := by linarith
  have hq0 : 0 < realValue q := by linarith
  have hx : realValue k / realValue q ≤ 10 / 7 * realValue k := by
    rw [div_le_iff₀ hq0]
    nlinarith
  have hx0 : 0 < realValue k / realValue q := div_pos hk0 hq0
  have hD : 1 ≤ exactD (realValue k) (realValue q) := by rw [exactD]; nlinarith
  have hD' : exactD (realValue k) (realValue q) ≤ 1100 := by rw [exactD]; nlinarith
  exact
    { k_pos := hk0
      q_pos := hq0
      le_square := by nlinarith
      square_le := by nlinarith
      le_quotient := div_le_div_of_nonneg_left hk0.le hq0 hq'
      quotient_le := hx
      k_le := hk'
      one_le_D := hD
      D_le := hD'
      le_inverse := one_div_le_one_div_of_le (by linarith) hD'
      inverse_le := by rwa [div_le_one (by linarith)]
      sum_pos := by nlinarith [sq_nonneg (realValue k - 5 / 7)] }

/-! ### Each word next to its exact value -/

theorem near_fpOne : Near fpOne 1 0 1 := Near.exact (by decide) realValue_fpOne (by norm_num)

/-- A word next to 1 is 1 or at least 2^-24 away from it, the distance of the words below 1. -/
theorem one_or_apart (w : Word) : realValue w = 1 ∨ 1 / 2 ^ 24 ≤ |realValue w - 1| := by
  have hsub : realValue w - 1 = (fpValue w - 2 ^ 149) / 2 ^ 149 := by rw [realValue]; field_simp
  rw [hsub, abs_div, abs_of_pos (by positivity : (0 : ℝ) < 2 ^ 149), le_div_iff₀ (by positivity)]
  have hgrid := signed_value_grid false w 125
  simp only [signFactor, Bool.false_eq_true, if_false, one_mul] at hgrid
  rcases hgrid with ⟨n, hn⟩ | ⟨-, hlt⟩
  · have hn' : (fpValue w : ℝ) = n * 2 ^ 125 := by exact_mod_cast hn
    by_cases h1 : n = 2 ^ 24
    · left
      rw [realValue, hn', h1]
      norm_num
    · right
      have hone : (1 : ℝ) ≤ |((n - 2 ^ 24 : ℤ) : ℝ)| := by exact_mod_cast Int.one_le_abs (sub_ne_zero.mpr h1)
      have hsplit : (fpValue w : ℝ) - 2 ^ 149 = ((n - 2 ^ 24 : ℤ) : ℝ) * 2 ^ 125 := by
        rw [hn']
        push_cast
        ring
      rw [hsplit, abs_mul, abs_of_pos (by positivity : (0 : ℝ) < 2 ^ 125), show (1 : ℝ) / 2 ^ 24 * 2 ^ 149 = 1 * 2 ^ 125 by norm_num]
      exact mul_le_mul_of_nonneg_right hone (by positivity)
  · right
    have hlt' : (fpValue w : ℝ) < 2 ^ 148 := by exact_mod_cast hlt
    rw [abs_of_neg (by linarith)]
    linarith

section

variable {c : Config} {k q : Word} (hfp : c.fp = .binary32) (hftz : c.ftz = false) (hkq : Clamped k q)
include hfp hftz hkq

theorem near_refSquare : Near (refSquare c k q) (realValue k ^ 2) 2 (realValue k ^ 2) := by
  have hr := hkq.ranges
  have hk := Near.exact hkq.finite_k rfl (abs_of_pos hr.k_pos).le
  rw [pow_two]
  refine (Near.mul hfp hftz _ hk hk le_rfl (by norm_num) le_rfl (by norm_num) ?_ (.inr ?_)).mono (by norm_num)
  · linarith [hr.square_le]
  · rw [← pow_two, abs_of_pos (by linarith [hr.le_square])]
    linarith [hr.le_square]

theorem near_refQuotient : Near (refQuotient c k q) (realValue k / realValue q) 2 (realValue k / realValue q) := by
  have hr := hkq.ranges
  have hk := Near.exact hkq.finite_k rfl (abs_of_pos hr.k_pos).le
  have hq := Near.exact hkq.finite_q rfl (abs_of_pos hr.q_pos).le
  refine (Near.div hfp hftz _ hk hq hr.q_pos le_rfl (by norm_num) le_rfl (by norm_num) ?_ ?_).mono (by norm_num)
  · linarith [hr.quotient_le, hr.k_le]
  · rw [abs_of_pos (div_pos hr.k_pos hr.q_pos)]
    linarith [hr.le_quotient, hkq.le_k]

theorem near_refDenominator :
    Near (refDenominator c k q) (exactD (realValue k) (realValue q)) 6 (exactD (realValue k) (realValue q)) := by
  have hr := hkq.ranges
  have hx := near_refQuotient hfp hftz hkq
  have hkk := near_refSquare hfp hftz hkq
  have hinner := Near.add hfp hftz (.design k q 2) (near_fpOne.mono zero_le_two) hx zero_le_two (by norm_num)
    (by linarith [hr.quotient_le, hr.k_le])
  refine (Near.add hfp hftz _ hinner (hkk.mono (by norm_num)) (by norm_num) (by norm_num) ?_).mono (by norm_num)
  have := hr.D_le
  rw [exactD] at this
  linarith

theorem near_refInverse :
    Near (refInverse c k q) (1 / exactD (realValue k) (realValue q)) 8 (1 / exactD (realValue k) (realValue q)) := by
  have hr := hkq.ranges
  have hD := near_refDenominator hfp hftz hkq
  have hpos := exactD_pos hr.k_pos hr.q_pos
  have habs := hD.abs_value_le (by norm_num)
  have hhalf := Near.half_le_abs (by rwa [abs_of_pos hpos]) (by norm_num : (6 : ℝ) ≤ 100)
  rw [abs_of_pos hpos] at hhalf
  refine (Near.div hfp hftz _ near_fpOne hD hpos le_rfl (by norm_num) (by norm_num) (by norm_num) ?_ ?_).mono (by norm_num)
  · rw [div_le_iff₀ hpos]
    linarith [hr.one_le_D]
  · rw [realValue_fpOne, abs_div, abs_one]
    exact one_div_le_one_div_of_le (by linarith) (by linarith [hr.D_le])

/-- The inverse stays away from zero. -/
theorem le_refInverse : 1 / 2200 ≤ realValue (refInverse c k q) := by
  have hr := hkq.ranges
  have hi := near_refInverse hfp hftz hkq
  have herr := (abs_le.mp hi.error).1
  nlinarith [roundingUnit_le, hr.le_inverse]

theorem near_refGain : Near (refGain c k q) (realValue k ^ 2 * (1 / exactD (realValue k) (realValue q))) 12
    (realValue k ^ 2 * (1 / exactD (realValue k) (realValue q))) := by
  have hr := hkq.ranges
  have hkk := near_refSquare hfp hftz hkq
  have hi := near_refInverse hfp hftz hkq
  have hilow := le_refInverse hfp hftz hkq
  have hkklow := (abs_le.mp hkk.error).1
  have hkk0 : 1 / 1000000 ≤ realValue (refSquare c k q) := by nlinarith [roundingUnit_le, hr.le_square]
  refine (Near.mul hfp hftz _ hkk hi zero_le_two (by norm_num) (by norm_num) (by norm_num) ?_ (.inr ?_)).mono (by norm_num)
  · nlinarith [hr.square_le, hr.le_square, hr.le_inverse, hr.inverse_le]
  · rw [abs_of_pos (mul_pos (by linarith) (by linarith))]
    nlinarith

theorem near_refDifference : Near (refDifference c k q) (realValue k ^ 2 - 1) 4 (realValue k ^ 2 + 1) :=
  (Near.sub hfp hftz _ (near_refSquare hfp hftz hkq) (near_fpOne.mono zero_le_two) zero_le_two (by norm_num)
    (by linarith [hkq.ranges.square_le])).mono (by norm_num)

theorem near_refTwiceDifference :
    Near (refTwiceDifference c k q) (2 * (realValue k ^ 2 - 1)) 4 (2 * (realValue k ^ 2 + 1)) :=
  Near.double hfp hftz _ (near_refDifference hfp hftz hkq) (by norm_num) (by linarith [hkq.ranges.square_le])

theorem near_refSum : Near (refSum c k q) (1 - realValue k / realValue q + realValue k ^ 2) 6 (exactD (realValue k) (realValue q)) := by
  have hr := hkq.ranges
  have hx := near_refQuotient hfp hftz hkq
  have hkk := near_refSquare hfp hftz hkq
  have hinner := Near.sub hfp hftz (.design k q 10) (near_fpOne.mono zero_le_two) hx zero_le_two (by norm_num)
    (by linarith [hr.quotient_le, hr.k_le])
  refine (Near.add hfp hftz _ hinner (hkk.mono (by norm_num)) (by norm_num) (by norm_num) ?_).mono (by norm_num)
  have := hr.D_le
  rw [exactD] at this
  linarith

/-! ### b1 is zero only where k² is 1 -/

/-- The difference `kk − 1` is exactly zero, and then `kk` is 1.0, or far from underflow. -/
theorem refTwiceDifference_cases :
    (realValue (refSquare c k q) = 1 ∧ realValue (refTwiceDifference c k q) = 0) ∨
      (realValue (refSquare c k q) ≠ 1 ∧ 1 / 2 ^ 24 ≤ |realValue (refTwiceDifference c k q)|) := by
  have hkk := near_refSquare hfp hftz hkq
  have hsq := hkq.ranges.square_le
  have hdiff := near_refDifference hfp hftz hkq
  have hkkle := hkk.abs_value_le (by norm_num)
  have hrange : |realValue (refSquare c k q) - realValue fpOne| ≤ 2 ^ 100 := by
    rw [realValue_fpOne]
    linarith [abs_sub (realValue (refSquare c k q)) 1, abs_one (α := ℝ)]
  have hround := (fpOp_relative hfp hftz .sub (.design k q 7) hkk.finite near_fpOne.finite (by simp) hrange (.inl (.inr rfl))).2
  have hround' : |realValue (refDifference c k q) - (realValue (refSquare c k q) - 1)| ≤
      roundingUnit * |realValue (refSquare c k q) - 1| := by
    rw [← realValue_fpOne]
    exact hround
  have htwice : realValue (refTwiceDifference c k q) = 2 * realValue (refDifference c k q) :=
    realValue_double (fpOp_double hfp hftz (.design k q 8) hdiff.finite (by linarith [hdiff.abs_value_le (by norm_num)])).2
  rcases one_or_apart (refSquare c k q) with h1 | h1
  · left
    rw [h1, sub_self, abs_zero, mul_zero, sub_zero] at hround'
    exact ⟨h1, by rw [htwice, abs_nonpos_iff.mp hround', mul_zero]⟩
  · right
    refine ⟨fun h => ?_, ?_⟩
    · rw [h, sub_self, abs_zero] at h1
      norm_num at h1
    · rw [htwice, abs_mul, abs_two]
      have htri := abs_sub_abs_le_abs_sub (realValue (refSquare c k q) - 1) (realValue (refDifference c k q))
      rw [abs_sub_comm (realValue (refSquare c k q) - 1)] at htri
      nlinarith [roundingUnit_le]

/-- The product that b1 rounds neither overflows nor, unless it is exactly zero, falls below the normal range. -/
theorem refB1_range : |realValue (refTwiceDifference c k q) * realValue (refInverse c k q)| ≤ 2 ^ 100 ∧
    (realValue (refTwiceDifference c k q) * realValue (refInverse c k q) = 0 ∨
      1 / 2 ^ 100 ≤ |realValue (refTwiceDifference c k q) * realValue (refInverse c k q)|) := by
  have hr := hkq.ranges
  have hn := (near_refTwiceDifference hfp hftz hkq).abs_value_le (by norm_num)
  have hi := (near_refInverse hfp hftz hkq).abs_value_le (by norm_num)
  have hilow := le_refInverse hfp hftz hkq
  constructor
  · rw [abs_mul]
    nlinarith [mul_le_mul hn hi (abs_nonneg _) (by linarith [hr.le_square]), hr.square_le, hr.le_square, hr.le_inverse, hr.inverse_le]
  · refine (refTwiceDifference_cases hfp hftz hkq).imp (fun h => by rw [h.2, zero_mul]) fun h => ?_
    rw [abs_mul, abs_of_pos (by linarith : 0 < realValue (refInverse c k q))]
    nlinarith [h.2]

theorem near_refB1 (key : NanKey) : Near (fpOp c .mul key (refTwiceDifference c k q) (refInverse c k q))
    (2 * (realValue k ^ 2 - 1) * (1 / exactD (realValue k) (realValue q))) 14
    (2 * (realValue k ^ 2 + 1) * (1 / exactD (realValue k) (realValue q))) := by
  have hr := hkq.ranges
  have hn := near_refTwiceDifference hfp hftz hkq
  have hi := near_refInverse hfp hftz hkq
  refine (Near.mul hfp hftz key hn hi (by norm_num) (by norm_num) (by norm_num) (by norm_num) ?_
    (refB1_range hfp hftz hkq).2).mono (by norm_num)
  nlinarith [hr.square_le, hr.le_square, hr.le_inverse, hr.inverse_le]

theorem near_refB2 (key : NanKey) : Near (fpOp c .mul key (refSum c k q) (refInverse c k q))
    ((1 - realValue k / realValue q + realValue k ^ 2) * (1 / exactD (realValue k) (realValue q))) 16 1 := by
  have hr := hkq.ranges
  have hp := near_refSum hfp hftz hkq
  have hi := near_refInverse hfp hftz hkq
  have hilow := le_refInverse hfp hftz hkq
  have hplow : 1 / 5 ≤ realValue (refSum c k q) := by nlinarith [(abs_le.mp hp.error).1, hr.sum_pos, hr.D_le, roundingUnit_le, roundingUnit_pos]
  have hscale : exactD (realValue k) (realValue q) * (1 / exactD (realValue k) (realValue q)) = 1 :=
    mul_one_div_cancel (exactD_pos hr.k_pos hr.q_pos).ne'
  have := (Near.mul hfp hftz key hp hi (by norm_num) (by norm_num) (by norm_num) (by norm_num) (by rw [hscale]; norm_num)
    (.inr (by rw [abs_of_pos (mul_pos (by linarith) (by linarith))]; nlinarith))).mono (by norm_num : (6 : ℝ) + 8 + 2 ≤ 16)
  rwa [hscale] at this

end

end Sys2Proof.Machine
end

section
/-! The words of the binary32 reference calculator (spec/40_coefficient_calculator.md R115, R118): finite, exact where R115 says so, and a stable
low-pass set. -/

namespace Sys2Proof.Machine

/-! ### Words from their values -/

theorem fpSign_of_pos {w : Word} (h : 0 < realValue w) : fpSign w = false := by
  by_contra hs
  rw [realValue, fpValue, if_pos (by simpa using hs)] at h
  have : (0 : ℝ) ≤ fpUnits w / 2 ^ 149 := by positivity
  push_cast at h
  linarith [neg_div (2 ^ 149 : ℝ) (fpUnits w : ℝ)]

/-- A word of the value 1 is 1.0. -/
theorem eq_fpOne {w : Word} (h : realValue w = 1) : w = fpOne := by
  have hs : fpSign w = false := fpSign_of_pos (by rw [h]; exact one_pos)
  have hone : fpSign fpOne = false := by decide
  have hlt := fpOrder_lt_iff w fpOne
  have hgt := fpOrder_lt_iff fpOne w
  have hval : fpValue w = fpValue fpOne := le_antisymm ((realValue_le_iff _ _).mp (h.trans realValue_fpOne.symm).le)
    ((realValue_le_iff _ _).mp (realValue_fpOne.trans h.symm).le)
  rw [hval, fpOrder_of_positive hs, fpOrder_of_positive hone] at hlt hgt
  apply BitVec.eq_of_toNat_eq
  omega

/-! ### The exact relations (R115) -/

theorem calculator_reference {c : Config} (h : ReferenceUpToNaN c) (k q : Word) :
    calculator c k q = referenceDesign c (clampK c k) (clampQ c q) := by
  obtain ⟨-, -, hdesign, -⟩ := h.fields
  rw [calculator, lpDesign_bilinear hdesign]

section

variable {c : Config} {k q : Word} (hfp : c.fp = .binary32) (hftz : c.ftz = false) (hkq : Clamped k q)
include hfp hftz hkq

theorem refGain_doubled (key : NanKey) : isFinite (fpOp c .mul key fpTwo (refGain c k q)) = true ∧
    fpValue (fpOp c .mul key fpTwo (refGain c k q)) = 2 * fpValue (refGain c k q) := by
  have hf := near_refGain hfp hftz hkq
  refine fpOp_double hfp hftz key hf.finite ?_
  have hle := hf.abs_value_le (by norm_num)
  have hr := hkq.ranges
  nlinarith [hr.square_le, hr.le_square, hr.le_inverse, hr.inverse_le]

theorem words_finite_reference : (referenceDesign c k q).words.all isFinite = true := by
  rw [referenceDesign_eq]
  simp [(near_refGain hfp hftz hkq).finite, (refGain_doubled hfp hftz hkq _).1, (near_refB1 hfp hftz hkq _).finite,
    (near_refB2 hfp hftz hkq _).finite]

/-- Where `kk` is 1.0 the operations of b1 are exact zeros, with the sign of +0. -/
theorem refB1_of_square_one (key : NanKey) (h : refSquare c k q = fpOne) :
    fpOp c .mul key (refTwiceDifference c k q) (refInverse c k q) = 0x00000000 := by
  have hi := near_refInverse hfp hftz hkq
  have hs : fpSign (refInverse c k q) = false := fpSign_of_pos (by linarith [le_refInverse hfp hftz hkq])
  have hsub : refOp .sub fpOne fpOne = some 0x00000000 := refSub_self (by decide)
  have hmul : refOp .mul fpTwo 0x00000000 = some (packWord (fpSign fpTwo != fpSign 0x00000000) 0) :=
    refMul_zero_right (a := fpTwo) (b := 0x00000000) (by decide) (by decide)
  have hlast : refOp .mul 0x00000000 (refInverse c k q) = some (packWord (fpSign 0x00000000 != fpSign (refInverse c k q)) 0) :=
    refMul_zero_left (a := 0x00000000) (by decide) hi.finite
  rw [refTwiceDifference, refDifference, h, fpOp_of_some hfp _ hsub, hftz, if_neg Bool.false_ne_true, fpOp_of_some hfp _ hmul, hftz,
    if_neg Bool.false_ne_true, show packWord (fpSign fpTwo != fpSign 0x00000000) 0 = 0x00000000 by decide, fpOp_of_some hfp _ hlast, hftz,
    if_neg Bool.false_ne_true, hs]
  decide

/-- b1 is +0 exactly where `kk` is 1.0: elsewhere the difference is far from underflow. -/
theorem refB1_eq_zero_iff (key : NanKey) :
    fpOp c .mul key (refTwiceDifference c k q) (refInverse c k q) = 0x00000000 ↔ refSquare c k q = fpOne := by
  refine ⟨fun h => ?_, refB1_of_square_one hfp hftz hkq key⟩
  rcases refTwiceDifference_cases hfp hftz hkq with ⟨h1, -⟩ | ⟨-, hn⟩
  · exact eq_fpOne h1
  · have hi := le_refInverse hfp hftz hkq
    obtain ⟨hhigh, hlow⟩ := refB1_range hfp hftz hkq
    have hround := (fpOp_relative hfp hftz .mul key (near_refTwiceDifference hfp hftz hkq).finite (near_refInverse hfp hftz hkq).finite
      (by simp) hhigh (.inr hlow)).2
    rw [h, show realValue 0x00000000 = 0 from realValue_zero, zero_sub, abs_neg, realResult, abs_mul] at hround
    have hpos : 0 < |realValue (refTwiceDifference c k q)| * |realValue (refInverse c k q)| :=
      mul_pos (by linarith) (abs_pos.mpr (by linarith))
    nlinarith [roundingUnit_le]

/-! ### Stability (R118) -/

/-- The margins of the exact design over the clamped domain, `1 + b1 + b2 = 4k²/D`, `1 − b1 + b2 = 4/D` and `1 − b2 = 2(k/q)/D`, are wider than
the errors of b1 and b2. -/
theorem polesInside_reference : PolesInside (realSet (referenceDesign c k q)) := by
  have hr := hkq.ranges
  obtain ⟨h1, h1'⟩ := abs_le.mp (near_refB1 hfp hftz hkq (.design k q 9)).error
  obtain ⟨h2, h2'⟩ := abs_le.mp (near_refB2 hfp hftz hkq (.design k q 12)).error
  have hu := roundingUnit_le
  have hD := exactD_pos hr.k_pos hr.q_pos
  have hself := exactD_self hr.k_pos hr.q_pos
  rw [← mul_one_div] at hself
  have hdc : 8 / 1000000 ≤ realValue k ^ 2 * (1 / exactD (realValue k) (realValue q)) := by
    rw [mul_one_div, le_div_iff₀ hD, exactD]
    nlinarith [hkq.le_k, hr.quotient_le]
  have hdamp : 1 / 10000 ≤ realValue k / realValue q * (1 / exactD (realValue k) (realValue q)) := by
    rw [mul_one_div, le_div_iff₀ hD, exactD]
    nlinarith [hkq.le_k, hr.le_quotient, hr.k_le]
  have hi := hr.le_inverse
  have hquot := div_pos hr.k_pos hr.q_pos
  rw [referenceDesign_eq]
  generalize 1 / exactD (realValue k) (realValue q) = i at *
  generalize realValue k / realValue q = x at *
  have hscale : roundingUnit * (2 * (realValue k ^ 2 + 1) * i) ≤ roundingUnit * 2 :=
    mul_le_mul_of_nonneg_left (by nlinarith) roundingUnit_pos.le
  have hplus : 1 + 2 * (realValue k ^ 2 - 1) * i + (1 - x + realValue k ^ 2) * i = 4 * (realValue k ^ 2 * i) := by
    linear_combination -hself
  have hminus : 1 - 2 * (realValue k ^ 2 - 1) * i + (1 - x + realValue k ^ 2) * i = 4 * i := by linear_combination -hself
  have hb2 : 1 - (1 - x + realValue k ^ 2) * i = 2 * (x * i) := by linear_combination -hself
  simp only [PolesInside, realSet, abs_lt]
  exact ⟨by linarith, by linarith, by linarith, by linarith⟩

/-- The reference set passes DC and nothing at Nyquist. -/
theorem gains_reference : gainAt (realSet (referenceDesign c k q)) (-1) = 0 ∧ 0 < gainAt (realSet (referenceDesign c k q)) 1 := by
  have hp := polesInside_reference hfp hftz hkq
  obtain ⟨hb1, -⟩ := abs_lt.mp hp.2.2
  have hr := hkq.ranges
  have hdouble : (realSet (referenceDesign c k q)).f1 = 2 * realValue (refGain c k q) :=
    realValue_double (refGain_doubled hfp hftz hkq (.design k q 6)).2
  have hf0 : (realSet (referenceDesign c k q)).f0 = realValue (refGain c k q) := rfl
  have hf2 : (realSet (referenceDesign c k q)).f2 = realValue (refGain c k q) := rfl
  have hpos : 0 < realValue (refGain c k q) := by
    have herr := (abs_le.mp (near_refGain hfp hftz hkq).error).1
    have : 0 < realValue k ^ 2 * (1 / exactD (realValue k) (realValue q)) := mul_pos (pow_pos hr.k_pos 2) (by linarith [hr.le_inverse])
    nlinarith [roundingUnit_le]
  refine ⟨gainAt_nyquist (by rw [hdouble, hf0, hf2]; ring), ?_⟩
  rw [gainAt_dc hp, hdouble, hf0, hf2]
  exact div_pos (abs_pos.mpr (by linarith)) (by linarith)

end

/-! ### The statements -/

/-- Settles O50: every word of the formula stands next to its exact value, and the two exact relations are those of doubling and of b1. -/
theorem referenceCoefficientsAreFinite : Obligations.ReferenceCoefficientsAreFinite := by
  intro c k q hc r
  obtain ⟨hfp, hftz, -⟩ := hc.fields
  have hkq := clamped_of_reference hc k q
  have hr : r = referenceDesign c (clampK c k) (clampQ c q) := calculator_reference hc k q
  rw [hr]
  exact ⟨words_finite_reference hfp hftz hkq, rfl, (refGain_doubled hfp hftz hkq _).2, refB1_eq_zero_iff hfp hftz hkq _⟩

/-- Settles O59: the exact design's margins of stability outlast the roundings (R118, D25). -/
theorem referenceCoefficientsAreStable : Obligations.ReferenceCoefficientsAreStable := by
  intro c k q hc r
  obtain ⟨hfp, hftz, -⟩ := hc.fields
  have hkq := clamped_of_reference hc k q
  have hr : r = realSet (referenceDesign c (clampK c k) (clampQ c q)) := congrArg realSet (calculator_reference hc k q)
  rw [hr]
  exact ⟨polesInside_reference hfp hftz hkq, gains_reference hfp hftz hkq⟩

end Sys2Proof.Machine
end

section
/-! The commands that write a channel (spec/41_filter_instance.md R143 to R146), each with its whole next state, and the delay registers
across a change of coefficients (R150). -/

namespace Sys2Proof.Machine

/-! ### The packet of a command that names a channel (R80, R83) -/

/-- The header of a command that names a channel: its opcode above its CH field. -/
theorem header_channel (op : Op) (ch : Channel) :
    header op ch.index 0 = BitVec.ofNat 32 op.code <<< 24 ||| BitVec.ofNat 32 ch.index <<< 16 := by
  cases op <;> cases ch <;> rfl

/-! ### The states, written out -/

/-- Noting words touches STATUS alone, and there only bit 3. -/
theorem State.noteFinite_eq (s : State) (ws : List Word) :
    s.noteFinite ws = { s with status := if ws.all isFinite then s.status else s.status ||| 0x8 } := by
  unfold State.noteFinite
  split <;> rfl

/-- The state after a sample, written out (R140, R143). -/
theorem State.sample_eq (s : State) (ch : Channel) (x : Word) :
    s.sample ch x =
      let r := s.sosResult ch x
      { s with
        bank := s.bank.set ch { coef := s.coef ch, z1 := r.nz1, z2 := r.nz2 }
        status := if isFinite r.acc && isFinite r.nz1 && isFinite r.nz2 then s.status else s.status ||| 0x8
        responses := s.responses ++ [r.acc]
        nanDraws := s.nanDraws + 9 } := by
  simp only [State.sample, State.sosState, State.noteFinite_eq, List.all_cons, List.all_nil, Bool.and_true, ← Bool.and_assoc]
  rfl

/-- ASSIGN to a channel and BROADCAST both load the set into that channel, and leave its delays, the parameters, the draw number and the
response queue. -/
theorem execState_swap {i : Instr} {ch : Channel} {c : CoefSet Word} (h : i = .assign ch c ∨ i = .broadcast c) (s : State) :
    (execState i s).coef ch = c ∧ (execState i s).z1 ch = s.z1 ch ∧ (execState i s).z2 ch = s.z2 ch ∧
      (execState i s).cfg = s.cfg ∧ (execState i s).nanDraws = s.nanDraws ∧ (execState i s).responses = s.responses := by
  rcases h with rfl | rfl <;> simp [execState]

/-! ### The statements -/

/-- Settles O2: the write of the two delay registers is the write of one channel's registers, which the others do not see. -/
theorem resetZeroesTheDelaysOfOneChannel : Obligations.ResetZeroesTheDelaysOfOneChannel :=
  fun ch s => ⟨exec_eq_next (.reset ch) s, congrArg ([·]) (header_channel .reset ch), fun _ h => s.bank.get_set_other _ h⟩

/-- Settles O3: the write of the set is the write of one channel's registers, and its words are noted. -/
theorem assignLoadsOneCoefficientSet : Obligations.AssignLoadsOneCoefficientSet := by
  refine fun ch c s => ⟨?_, congrArg (· :: c.words) (header_channel .assign ch), fun _ h => s.bank.get_set_other _ h⟩
  rw [exec_eq_next]
  exact congrArg _ (State.noteFinite_eq (s.writeCoef ch c) c.words)

/-- Settles O4: the four writes of the set leave the delay registers of each channel, and its words are noted once. -/
theorem broadcastLoadsAllFourCoefficientSets : Obligations.BroadcastLoadsAllFourCoefficientSets := by
  refine fun c s => ⟨?_, rfl⟩
  rw [exec_eq_next]
  exact congrArg _ (State.noteFinite_eq (s.writeAllCoefs c) c.words)

/-- Settles O5: PROCESS is one sample, and what it computes is R140's recurrence by definition. -/
theorem processRunsTheRecurrence : Obligations.ProcessRunsTheRecurrence := by
  refine fun ch x s => ⟨?_, congrArg (· :: [x]) (header_channel .process ch)⟩
  rw [exec_eq_next]
  exact congrArg _ (s.sample_eq ch x)

/-- Settles O41: the sample after the swap reads the new set and the old delay registers. -/
theorem coefficientSwapKeepsTheDelays : Obligations.CoefficientSwapKeepsTheDelays := by
  intro ch c x s i hi
  obtain ⟨hcoef, h1, h2, hcfg, hdraws, hresp⟩ := execState_swap hi s
  refine ⟨_, _, exec_eq_next i s, h1, h2, exec_eq_next (.process ch x) _, ?_⟩
  rw [execState, State.sample_responses, hresp, ← hcfg, ← hdraws, ← h1, ← hcoef]
  rfl

end Sys2Proof.Machine
end

section
/-! NaN in a channel (spec/41_filter_instance.md R143, R147, R148): it goes through every operation of the recurrence that reads it. -/

namespace Sys2Proof.Machine

/-- In the reference arithmetic an operation on a NaN gives a NaN (R9). -/
theorem isNaN_fpOp {c : Config} (hfp : c.fp = .binary32) (op : FpOp) (key : NanKey) {a b : Word}
    (h : isNaN a = true ∨ isNaN b = true) : isNaN (fpOp c op key a b) = true := by
  have hnone : refOp op a b = none := h.elim (refOp_nan_left op b) (refOp_nan_right op a)
  rw [fpOp_of_none hfp key hnone, isNaN_nanOut]

section
variable {c : Config} (hfp : c.fp = .binary32) (key : Nat → NanKey) (set : CoefSet Word) {z1 z2 x : Word}
include hfp

/-- A NaN output goes back into both delay registers (R140). -/
theorem isNaN_sosUpdate_delays (h : isNaN (sosUpdate (floatArith c key) set z1 z2 x).acc = true) :
    isNaN (sosUpdate (floatArith c key) set z1 z2 x).nz1 = true ∧ isNaN (sosUpdate (floatArith c key) set z1 z2 x).nz2 = true :=
  ⟨isNaN_fpOp hfp .sub _ (.inr (isNaN_fpOp hfp .mul _ (.inr h))), isNaN_fpOp hfp .sub _ (.inr (isNaN_fpOp hfp .mul _ (.inr h)))⟩

/-- The output reads the sample and the first delay register. -/
theorem isNaN_sosUpdate_acc (h : isNaN x = true ∨ isNaN z1 = true) : isNaN (sosUpdate (floatArith c key) set z1 z2 x).acc = true :=
  isNaN_fpOp hfp .add _ (h.imp_left fun hx => isNaN_fpOp hfp .mul _ (.inr hx))

/-- The first delay register reads the second. -/
theorem isNaN_sosUpdate_nz1 (h : isNaN z2 = true) : isNaN (sosUpdate (floatArith c key) set z1 z2 x).nz1 = true :=
  isNaN_fpOp hfp .sub _ (.inl (isNaN_fpOp hfp .add _ (.inr h)))

end

/-- The delay registers after a sample are those that it computes. -/
theorem State.sample_registers (s : State) (ch : Channel) (x : Word) :
    (s.sample ch x).z1 ch = (s.sosResult ch x).nz1 ∧ (s.sample ch x).z2 ch = (s.sosResult ch x).nz2 :=
  ⟨(s.sample_z1 ch ch x).trans (if_pos rfl), (s.sample_z2 ch ch x).trans (if_pos rfl)⟩

/-- A NaN stored in the first delay register sets NF (R225). -/
theorem State.sample_nonFinite_of_nz1 {s : State} {ch : Channel} {x : Word} (h : isNaN (s.sosResult ch x).nz1 = true) :
    (s.sample ch x).nonFinite = true := by
  rw [State.sample_nonFinite]
  simp [isNaN_not_finite h]

/-- Settles O43: a NaN in the sample or in Z1 makes the output a NaN, which goes back into both delays; a NaN in Z2 goes into Z1. -/
theorem nanStaysInAChannel : Obligations.NaNStaysInAChannel := by
  intro ch x s hfp
  obtain ⟨e1, e2⟩ := s.sample_registers ch x
  refine ⟨fun h => ?_, fun h => ?_⟩
  · have hacc : isNaN (s.sosResult ch x).acc = true := isNaN_sosUpdate_acc hfp _ _ h
    obtain ⟨h1, h2⟩ := isNaN_sosUpdate_delays hfp _ _ hacc
    exact ⟨_, _, exec_eq_next (.process ch x) s, s.sample_responses ch x, hacc, (congrArg isNaN e1).trans h1,
      (congrArg isNaN e2).trans h2, State.sample_nonFinite_of_nz1 h1⟩
  · have h1 : isNaN (s.sosResult ch x).nz1 = true := isNaN_sosUpdate_nz1 hfp _ _ h
    exact ⟨_, exec_eq_next (.process ch x) s, (congrArg isNaN e1).trans h1, State.sample_nonFinite_of_nz1 h1⟩

end Sys2Proof.Machine
end

section
/-! Silence (spec/41_filter_instance.md R149; spec/90_conflicts.md C3): with finite coefficients and zero delays, zero samples give zero
outputs and leave the delays zero. -/

namespace Sys2Proof.Machine

/-! ### The recurrence on zeros -/

section
variable {c : Config} (hfp : c.fp = .binary32)
include hfp

/-- An operation whose reference result is a zero gives a zero, flushed or not. -/
theorem isZero_fpOp {op : FpOp} (key : NanKey) {a b : Word} {sign : Bool} (h : refOp op a b = some (packWord sign 0)) :
    isZero (fpOp c op key a b) = true := by
  rw [fpOp_of_some hfp key h]
  split <;> simp

theorem isZero_fpOp_mul (key : NanKey) {a b : Word} (ha : isFinite a = true) (hb : isZero b = true) :
    isZero (fpOp c .mul key a b) = true :=
  isZero_fpOp hfp key (refMul_zero_right ha hb)

theorem isZero_fpOp_add (key : NanKey) {a b : Word} (ha : isZero a = true) (hb : isZero b = true) :
    isZero (fpOp c .add key a b) = true :=
  isZero_fpOp hfp key (refAdd_zero ha hb)

theorem isZero_fpOp_sub (key : NanKey) {a b : Word} (ha : isZero a = true) (hb : isZero b = true) :
    isZero (fpOp c .sub key a b) = true :=
  isZero_fpOp hfp key (refSub_zero ha hb)

/-- One sample on zeros: each product is of a finite coefficient and a zero, and each sum is of zeros (R140). -/
theorem isZero_sosUpdate (key : Nat → NanKey) {set : CoefSet Word} (hset : set.words.all isFinite = true) {z1 z2 x : Word}
    (h1 : isZero z1 = true) (h2 : isZero z2 = true) (hx : isZero x = true) :
    isZero (sosUpdate (floatArith c key) set z1 z2 x).acc = true ∧ isZero (sosUpdate (floatArith c key) set z1 z2 x).nz1 = true ∧
      isZero (sosUpdate (floatArith c key) set z1 z2 x).nz2 = true := by
  simp only [List.all_cons, List.all_nil, Bool.and_true, Bool.and_eq_true] at hset
  obtain ⟨hf0, hf1, hf2, hb1, hb2⟩ := hset
  have hacc : isZero (sosUpdate (floatArith c key) set z1 z2 x).acc = true :=
    isZero_fpOp_add hfp _ (isZero_fpOp_mul hfp _ hf0 hx) h1
  exact ⟨hacc,
    isZero_fpOp_sub hfp _ (isZero_fpOp_add hfp _ (isZero_fpOp_mul hfp _ hf1 hx) h2) (isZero_fpOp_mul hfp _ hb1 hacc),
    isZero_fpOp_sub hfp _ (isZero_fpOp_mul hfp _ hf2 hx) (isZero_fpOp_mul hfp _ hb2 hacc)⟩

end

/-! ### A silent channel -/

/-- The channel is silent: the arithmetic is the reference, its coefficients are finite, and its delay registers are zeros. -/
structure Silent (ch : Channel) (s : State) : Prop where
  fp   : s.cfg.fp = .binary32
  coef : (s.coef ch).words.all isFinite = true
  z1   : isZero (s.z1 ch) = true
  z2   : isZero (s.z2 ch) = true

/-- RESET leaves zeros in the delay registers of its channel (R144). -/
theorem isZero_delays_of_reset (s : State) (ch : Channel) :
    isZero ((s.writeDelay ch 0 0).z1 ch) = true ∧ isZero ((s.writeDelay ch 0 0).z2 ch) = true := by
  rw [State.writeDelay_z1, State.writeDelay_z2, if_pos rfl, if_pos rfl]
  decide

/-- RESET makes a channel with finite coefficients silent. -/
theorem silent_reset {ch : Channel} {s : State} (hfp : s.cfg.fp = .binary32) (hc : (s.coef ch).words.all isFinite = true) :
    Silent ch (s.writeDelay ch 0 0) :=
  ⟨hfp, by rwa [State.writeDelay_coef], (isZero_delays_of_reset s ch).1, (isZero_delays_of_reset s ch).2⟩

section
variable {ch : Channel} {s : State} (h : Silent ch s)
include h

/-- What a sample computes on a silent channel from a zero is zero. -/
theorem Silent.sosResult {x : Word} (hx : isZero x = true) :
    isZero (s.sosResult ch x).acc = true ∧ isZero (s.sosResult ch x).nz1 = true ∧ isZero (s.sosResult ch x).nz2 = true :=
  isZero_sosUpdate h.fp _ h.coef h.z1 h.z2 hx

theorem Silent.sample {x : Word} (hx : isZero x = true) : Silent ch (s.sample ch x) := by
  obtain ⟨-, h1, h2⟩ := h.sosResult hx
  obtain ⟨e1, e2⟩ := s.sample_registers ch x
  exact ⟨by rw [State.sample_cfg, h.fp], by rw [State.sample_coef, h.coef], by rw [e1, h1], by rw [e2, h2]⟩

/-- A PROCESS row of zeros answers zeros and keeps the channel silent. -/
theorem Silent.execAll_process {xs : List Word} (hxs : xs.all isZero = true) :
    ∃ (t : State) (ys : List Word), execAll (xs.map (.process ch)) s = .next t ∧ t.responses = s.responses ++ ys ∧
      ys.length = xs.length ∧ ys.all isZero = true ∧ Silent ch t := by
  induction xs generalizing s with
  | nil => exact ⟨s, [], rfl, (List.append_nil _).symm, rfl, rfl, h⟩
  | cons x xs ih =>
    rw [List.all_cons, Bool.and_eq_true] at hxs
    obtain ⟨hx, hxs⟩ := hxs
    have hacc := (h.sosResult hx).1
    obtain ⟨t, ys, ht, hresp, hlen, hys, hend⟩ := ih (h.sample hx) hxs
    refine ⟨t, (s.sosResult ch x).acc :: ys, ?_, ?_, by simp [hlen], by simp [hacc, hys], hend⟩
    · rw [List.map_cons, execAll_cons]
      exact ht
    · rw [hresp, State.sample_responses, List.append_assoc]
      rfl

/-- What a frame computes on a silent channel from a zero sample is zero, whatever the other channels hold or get. -/
theorem Silent.frameResult {x : Word} (hx : isZero x = true) :
    isZero (s.frameResult ch x).acc = true ∧ isZero (s.frameResult ch x).nz1 = true ∧ isZero (s.frameResult ch x).nz2 = true :=
  isZero_sosUpdate h.fp _ h.coef h.z1 h.z2 hx

theorem Silent.frame {f : Frame} (hf : isZero (frameSample f ch) = true) : Silent ch (s.frame f) := by
  obtain ⟨-, h1, h2⟩ := h.frameResult hf
  obtain ⟨e1, e2⟩ := s.frame_registers f ch
  exact ⟨by rw [State.frame_cfg, h.fp], by rw [State.frame_coef, h.coef], by rw [e1, h1], by rw [e2, h2]⟩

theorem Silent.frames {fs : List Frame} (hfs : ∀ f ∈ fs, isZero (frameSample f ch) = true) : Silent ch (s.frames fs) := by
  induction fs generalizing s with
  | nil => exact h
  | cons f fs ih => exact ih (h.frame (hfs f List.mem_cons_self)) fun g hg => hfs g (List.mem_cons_of_mem _ hg)

end

/-! ### The answers of a BLOCK, frame by frame (R173) -/

/-- The answer to frame n for a channel is what that frame computes on it after the frames before. -/
theorem State.frames_answers (s : State) (fs : List Frame) (ch : Channel) {n : Nat} (hn : n < fs.length) :
    (s.frames fs).responses[s.responses.length + (4 * n + ch.index)]? =
      some ((s.frames (fs.take n)).frameResult ch (frameSample fs[n] ch)).acc := by
  obtain ⟨ys, hy, hly⟩ := s.frames_responses (fs.take n)
  have hplace : s.responses.length + (4 * n + ch.index) = (s.frames (fs.take n)).responses.length + ch.index := by
    rw [hy, List.length_append, hly, List.length_take_of_le hn.le]
    omega
  have hsplit : s.frames fs = (s.frames (fs.take n)).frames (fs[n] :: fs.drop (n + 1)) := by
    rw [← List.drop_eq_getElem_cons hn, State.frames, State.frames, State.frames, ← List.foldl_append, List.take_append_drop]
  rw [hplace, hsplit, State.frames_answers_first]

/-- A block of frames with zero samples on a silent channel answers zeros in that channel's places. -/
theorem Silent.frames_answers {ch : Channel} {s : State} (h : Silent ch s) {fs : List Frame}
    (hfs : ∀ f ∈ fs, isZero (frameSample f ch) = true) {ys : List Word} (hy : (s.frames fs).responses = s.responses ++ ys)
    {n : Nat} (hn : n < fs.length) : ∃ y, ys[4 * n + ch.index]? = some y ∧ isZero y = true := by
  have hanswer := s.frames_answers fs ch hn
  rw [hy, List.getElem?_append_right (Nat.le_add_right _ _), Nat.add_sub_cancel_left] at hanswer
  have hbefore : Silent ch (s.frames (fs.take n)) := h.frames fun f hf => hfs f (List.mem_of_mem_take hf)
  exact ⟨_, hanswer, (hbefore.frameResult (hfs _ (List.getElem_mem hn))).1⟩

/-- The commit step keeps a channel silent where the set that it leaves there is finite (R172). -/
theorem silent_commitIfDirty {ch : Channel} {s : State} (hfp : s.cfg.fp = .binary32)
    (hc : (if s.dirty then calculator s.cfg s.pK s.pQ else s.coef ch).words.all isFinite = true)
    (h1 : isZero (s.z1 ch) = true) (h2 : isZero (s.z2 ch) = true) : Silent ch s.commitIfDirty where
  fp   := by rw [State.commitIfDirty_cfg, hfp]
  coef := by rw [State.commitIfDirty_coef, hc]
  z1   := by rw [State.commitIfDirty_z1, h1]
  z2   := by rw [State.commitIfDirty_z2, h2]

/-- Settles O40: RESET, and a commit of finite coefficients, make the channel silent, and samples and frames with zeros on it keep it so. -/
theorem silenceInGivesSilenceOut : Obligations.SilenceInGivesSilenceOut := by
  refine ⟨fun ch s xs hfp hc hxs => ?_, fun ch s fs hfp hc hfs => ?_⟩
  · obtain ⟨t, ys, ht, hresp, hlen, hys, hend⟩ := (silent_reset hfp hc).execAll_process hxs
    exact ⟨t, ys, (execAll_cons _ _ s).trans ht, hresp, hlen, hys, hend.z1, hend.z2⟩
  · obtain ⟨h1, h2⟩ := isZero_delays_of_reset s ch
    have hsilent : Silent ch (s.writeDelay ch 0 0).commitIfDirty :=
      silent_commitIfDirty hfp (by rwa [State.writeDelay_coef]) h1 h2
    have hzero : ∀ f ∈ fs, isZero (frameSample f ch) = true := by simpa using hfs
    obtain ⟨ys, hy, hly⟩ := (s.writeDelay ch 0 0).commitIfDirty.frames_responses fs
    have hend := hsilent.frames hzero
    exact ⟨_, ys, by rw [execAll_cons, execAll_cons, execAll_nil]; rfl,
      by rw [hy, State.commitIfDirty_responses]; rfl, hly, fun n hn => hsilent.frames_answers hzero hy hn, hend.z1, hend.z2⟩

end Sys2Proof.Machine
end

section
/-! The recurrence in exact arithmetic (spec/41_filter_instance.md R142): the second-order difference equation. -/

namespace Sys2Proof.Machine

/-- One sample in exact arithmetic, as three equations (R140). -/
theorem sosUpdate_exact_iff (c : CoefSet ℝ) (z1 z2 x y w1 w2 : ℝ) :
    sosUpdate (exactArith ℝ) c z1 z2 x = ⟨y, w1, w2⟩ ↔
      y = c.f0 * x + z1 ∧ w1 = c.f1 * x + z2 - c.b1 * y ∧ w2 = c.f2 * x - c.b2 * y := by
  simp only [sosUpdate, exactArith, SosResult.mk.injEq]
  constructor
  · rintro ⟨rfl, rfl, rfl⟩
    exact ⟨rfl, rfl, rfl⟩
  · rintro ⟨rfl, rfl, rfl⟩
    exact ⟨rfl, rfl, rfl⟩

/-- Settles O53: the second delay register holds two terms of the equation, the first adds two more with the next sample, and the output
the last one. -/
theorem exactRecurrenceIsTheDifferenceEquation : Obligations.ExactRecurrenceIsTheDifferenceEquation := by
  intro c x y z1 z2 hzero hsucc
  obtain ⟨hy0, h10, h20⟩ := (sosUpdate_exact_iff ..).mp hzero
  rw [add_zero] at hy0 h10
  have hsample (n : ℕ) := (sosUpdate_exact_iff ..).mp (hsucc n)
  have h2 (n : ℕ) : z2 n = c.f2 * x n - c.b2 * y n := by
    cases n with
    | zero => exact h20
    | succ n => exact (hsample n).2.2
  have h1 (n : ℕ) : z1 (n + 1) = c.f1 * x (n + 1) + c.f2 * x n - c.b1 * y (n + 1) - c.b2 * y n := by
    obtain ⟨-, e, -⟩ := hsample n
    rw [e, h2]
    ring
  refine ⟨hy0, ?_, h10, fun n => ⟨?_, h1 n, h2 n⟩⟩
  · obtain ⟨e, -, -⟩ := hsample 0
    rw [e, h10]
    ring
  · obtain ⟨e, -, -⟩ := hsample (n + 1)
    rw [e, h1]
    ring

end Sys2Proof.Machine
end

section
/-! The update protocol (spec/42_update_protocol.md R171 to R176): CTRL_SET, BLOCK and INIT with their whole next states, and at most
one recompute per block. -/

namespace Sys2Proof.Machine

/-! ### CTRL_SET (R171) -/

/-- The header of CTRL_SET: its opcode above its IDX field (R80, R84). -/
theorem header_ctrlSet (idx : BitVec 16) : header .ctrlSet 0 idx.toNat = 0x07000000 ||| idx.zeroExtend 32 := by
  rw [header_imm, BitVec.append_def]
  rfl

/-- The state after CTRL_SET, written out: one parameter and DIRTY for index 0 and 1, nothing for any other. -/
theorem State.storeControl_eq (idx : BitVec 16) (v : Word) (s : State) :
    s.storeControl idx v =
      if idx = 0 then { s with pK := v, status := s.status ||| 0x1 }
      else if idx = 1 then { s with pQ := v, status := s.status ||| 0x1 }
      else s := by
  unfold State.storeControl controlOf
  split_ifs <;> rfl

/-- Settles O7: the state that CTRL_SET leaves, and its header, written out. -/
theorem ctrlSetStoresAPendingParameter : Obligations.CtrlSetStoresAPendingParameter := by
  refine fun idx v s => ⟨?_, congrArg (· :: [v]) (header_ctrlSet idx)⟩
  rw [exec_eq_next, execState, State.storeControl_eq]

/-! ### INIT (R174) -/

/-- The state after INIT, written out. -/
theorem State.loadDefaults_eq (s : State) :
    s.loadDefaults =
      let c := calculator s.cfg s.cfg.kDefault s.cfg.qDefault
      let fresh : FilterInstance := { coef := c, z1 := 0, z2 := 0 }
      let flags := (s.status &&& ~~~(0x1#32)) ||| 0x2
      { s with
        bank := { mainLeft := fresh, mainRight := fresh, subLeft := fresh, subRight := fresh }
        pK := s.cfg.kDefault
        pQ := s.cfg.qDefault
        status := if c.words.all isFinite then flags else flags ||| 0x8 } := by
  rw [State.loadDefaults, State.noteFinite_eq]
  rfl

/-- Settles O9: the state that INIT leaves, written out; the header and the defaults of R6 by definition. -/
theorem initLoadsTheDefaults : Obligations.InitLoadsTheDefaults := by
  refine fun s => ⟨?_, rfl, rfl, rfl⟩
  rw [exec_eq_next, execState, State.loadDefaults_eq]

/-! ### BLOCK (R172, R173) -/

/-- The state after a COMMIT, written out. -/
theorem State.commit_eq (s : State) :
    s.commit =
      let c := calculator s.cfg s.pK s.pQ
      let cleared := s.status &&& ~~~(0x1#32)
      { s with
        bank :=
          { mainLeft := { coef := c, z1 := s.z1 .mainLeft, z2 := s.z2 .mainLeft }
            mainRight := { coef := c, z1 := s.z1 .mainRight, z2 := s.z2 .mainRight }
            subLeft := { coef := c, z1 := s.z1 .subLeft, z2 := s.z2 .subLeft }
            subRight := { coef := c, z1 := s.z1 .subRight, z2 := s.z2 .subRight } }
        status := if c.words.all isFinite then cleared else cleared ||| 0x8 } := by
  rw [State.commit, State.noteFinite_eq]
  rfl

/-- The frames of a block are their PROCESS commands, four a frame. -/
theorem execAll_frameCommands (fs : List Frame) (s : State) : execAll (fs.flatMap frameCommands) s = .next (s.frames fs) := by
  induction fs generalizing s with
  | nil => rfl
  | cons f fs ih =>
    simp only [List.flatMap_cons, frameCommands, List.cons_append, List.nil_append, execAll_cons]
    exact ih (s.frame f)

/-- Settles O8: the commit written out, and the frames command by command; DIRTY is clear after the commit, and no frame sets it. -/
theorem blockCommitsOnceThenProcessesItsFrames : Obligations.BlockCommitsOnceThenProcessesItsFrames := by
  intro frames s c cleared committed
  have hcommit : s.commitIfDirty = if s.dirty then committed else s := by rw [State.commitIfDirty, State.commit_eq]
  obtain ⟨ys, hy, hlen⟩ := s.commitIfDirty.frames_responses frames
  refine ⟨s.commitIfDirty.frames frames, ys, exec_eq_next _ s, ?_, ?_, hlen, ?_⟩
  · rw [← hcommit, execAll_frameCommands]
  · rw [hy, State.commitIfDirty_responses]
  · rw [State.frames_dirty, State.commitIfDirty_dirty]

/-! ### At most one recompute per block (R175) -/

theorem execState_block_dirty (fs : List Frame) (s : State) : (execState (.block fs) s).dirty = false := by
  simp [execState]

/-- A BLOCK leaves `CALC(P_K, P_Q)` in every channel if DIRTY, and otherwise the sets it found. -/
theorem execState_block_coef (fs : List Frame) (s : State) (ch : Channel) :
    (execState (.block fs) s).coef ch = if s.dirty then calculator s.cfg s.pK s.pQ else s.coef ch := by
  simp [execState]

/-- A BLOCK that finds DIRTY clear runs its frames alone. -/
theorem exec_block_of_clean {s : State} (h : s.dirty = false) (fs : List Frame) :
    exec (.block fs) s = execAll (fs.flatMap frameCommands) s := by
  rw [exec_eq_next, execAll_frameCommands, execState, State.commitIfDirty, h, if_neg Bool.false_ne_true]

/-- A row of CTRL_SETs leaves in P_K and P_Q the last values it writes there, DIRTY set if it writes one, and the coefficients alone. -/
theorem execAll_ctrlSets {cs : List Instr} (h : ∀ i ∈ cs, ∃ idx v, i = .ctrlSet idx v) (u : State) :
    ∃ v, execAll cs u = .next v ∧ v.cfg = u.cfg ∧ v.pK = lastControl 0 u.pK cs ∧ v.pQ = lastControl 1 u.pQ cs ∧
      v.dirty = (u.dirty || cs.any updatesControl) ∧ ∀ ch, v.coef ch = u.coef ch := by
  induction cs generalizing u with
  | nil => exact ⟨u, rfl, rfl, rfl, rfl, (Bool.or_false _).symm, fun _ => rfl⟩
  | cons i cs ih =>
    obtain ⟨⟨idx, w, rfl⟩, hcs⟩ := List.forall_mem_cons.mp h
    obtain ⟨v, hv, hcfg, hk, hq, hd, hcoef⟩ := ih hcs (u.storeControl idx w)
    refine ⟨v, (execAll_cons _ cs u).trans hv, ?_, ?_, ?_, ?_, fun ch => ?_⟩
    · rw [hcfg, State.storeControl_cfg]
    · rw [hk, State.storeControl_pK, lastControl]
    · rw [hq, State.storeControl_pQ, lastControl]
    · rw [hd, State.storeControl_dirty, List.any_cons, Bool.or_assoc]
    · rw [hcoef, State.storeControl_coef]

/-- A row without an update of a known index leaves DIRTY clear where it is. -/
theorem execAll_clean {cs : List Instr} (h : ∀ i ∈ cs, updatesControl i = false) {u : State} (hu : u.dirty = false) :
    ∃ v, execAll cs u = .next v ∧ v.dirty = false := by
  induction cs generalizing u with
  | nil => exact ⟨u, rfl, hu⟩
  | cons i cs ih =>
    obtain ⟨hi, hcs⟩ := List.forall_mem_cons.mp h
    have hclean : (execState i u).dirty = false :=
      Bool.eq_false_iff.mpr fun hd => Bool.eq_false_iff.mp hi (execState_sets_dirty hd hu)
    rw [execAll_cons]
    exact ih hcs hclean

/-- Settles O39: a BLOCK leaves DIRTY clear, so the second one commits exactly if a CTRL_SET between them wrote a parameter. -/
theorem atMostOneRecomputePerBlock : Obligations.AtMostOneRecomputePerBlock := by
  refine ⟨fun s fs1 fs2 cs hcs => ?_, fun s fs1 fs2 cs hcs => ?_⟩
  · obtain ⟨v, hv, hcfg, hk, hq, hd, hcoef⟩ := execAll_ctrlSets hcs (execState (.block fs1) s)
    rw [execState_block_dirty, Bool.false_or] at hd
    refine ⟨_, v, _, exec_eq_next _ s, hv, exec_eq_next _ v, execState_block_dirty fs2 v, fun ch => ?_⟩
    rw [execState_block_coef, hd, hcfg, hk, hq, hcoef]
  · obtain ⟨v, hv, hclean⟩ := execAll_clean (fun i hi => (hcs i hi).2) (execState_block_dirty fs1 s)
    exact ⟨_, v, exec_eq_next _ s, hv, exec_block_of_clean hclean fs2⟩

end Sys2Proof.Machine
end

section
/-! The control and debug commands (spec/43_control_and_debug.md R200 to R202): NOP, READ_INST and READ_CTRL, each with its whole next
state and its header. -/

namespace Sys2Proof.Machine

/-! ### NOP (R200) -/

/-- NOP's header is the zero word. -/
theorem encode_nop : encode .nop = [0] := rfl

/-- The zero word is the only header with OPC 0x00 whose other bits are clear. -/
theorem eq_zero_of_fields {h : Word} (hopc : opcField h = 0) (hlow : field h 23 0 = 0) : h = 0 :=
  eq_header (op := .nop) (ch := 0) (imm := 0) hopc hlow

/-- Format FN asks for clear bits below OPC, so NOP's opcode with another bit set fails check (2) of R87. -/
theorem decodeHeader_of_nop_opcode {h : Word} (hopc : opcField h = 0) (hne : h ≠ 0) : decodeHeader h = .error .reservedBits :=
  (decodeHeader_reservedBits_iff h).mpr ⟨.nop, hopc, fun hz => hne (eq_zero_of_fields hopc ((mustBeZero_iff .nop h).mp hz))⟩

/-- A zero word met in IDLE is consumed, and that is all. -/
theorem step_of_zero_word {s : State} {rest : List Word} (hr : s.resetLine = false) (hidle : s.parser = .idle)
    (hp : s.cmdPort = 0 :: rest) : step s = .next { s with cmdPort := rest } := by
  have hnop : s.cmdPort = encode .nop ++ rest := by rw [hp, encode_nop, List.singleton_append]
  rw [step_of_encode hr hidle rfl hnop, exec_eq_next, execState]

/-- A word that does not complete the packet is held as an operand, whatever its bits (R86). -/
theorem Parser.take_operand {need : Nat} {got : List Word} (h w : Word) (hn : got.length + 1 < need) :
    (Parser.collect h need got).take w = (.collect h need (got ++ [w]), .nothing) := by
  simp [Parser.take, hn.ne]

/-- Settles O1: the zero word is NOP's header in IDLE and an operand in COLLECT, and any other header with OPC 0x00 breaks format FN. -/
theorem nopChangesNothing : Obligations.NopChangesNothing :=
  ⟨exec_eq_next .nop, encode_nop, fun _ => decodeHeader_of_nop_opcode, rfl, fun _ _ => step_of_zero_word,
    fun h _ _ => Parser.take_operand h 0⟩

/-! ### READ_INST (R201) -/

/-- Settles O10: the channel's set and its delay registers go to the response queue, which is the only thing written. -/
theorem readInstReturnsOneChannel : Obligations.ReadInstReturnsOneChannel :=
  fun ch s => ⟨exec_eq_next (.readInst ch) s, congrArg ([·]) (header_channel .readInst ch)⟩

/-! ### READ_CTRL (R202) -/

/-- Bits 31:8 of STATUS are clear exactly when its value fits in the byte that the defined fields take (R37). -/
theorem reservedClear_iff (s : State) : ReservedClear s ↔ s.status.toNat < 2 ^ 8 := by
  have := s.status.isLt
  rw [ReservedClear, field_eq_div]
  omega

/-- Settles O11: the parameters and the two status words go to the response queue, STATUS as it stands, with DIRTY in it. -/
theorem readCtrlReturnsParametersAndStatus : Obligations.ReadCtrlReturnsParametersAndStatus :=
  ⟨exec_eq_next .readCtrl, rfl, fun s => (reservedClear_iff s).mp⟩

end Sys2Proof.Machine
end

section
/-! The one exception, IllegalCommand (spec/60_exceptions.md R221): what it writes, and that no command writes the error record. -/

namespace Sys2Proof.Machine

/-- The state after the exception, written out: the first error alone is recorded, and ERR is set. -/
theorem State.raiseIllegal_eq (s : State) (cause : IllegalCause) (h : Word) :
    s.raiseIllegal cause h =
      { s with
        status := (if s.err then s.status
          else (s.status &&& ~~~(0xF0#32)) ||| (BitVec.ofNat 32 (causeCode cause) <<< 4)) ||| 0x4
        errInfo := if s.err then s.errInfo else h } := by
  unfold State.raiseIllegal
  split_ifs
  · rfl
  · rw [State.setErrCode, withErrCode, Nat.mod_eq_of_lt (causeCode_lt cause)]
    rfl

/-- Settles O21: the step on an illegal header raises the exception, written out, and no command touches the three parts of the record. -/
theorem illegalHeaderTakesTheErrorAction : Obligations.IllegalHeaderTakesTheErrorAction := by
  refine ⟨fun s h rest cause hr hidle hp hh => ?_, fun i s =>
    ⟨execState i s, exec_eq_next i s, execState_err i s, execState_errCode i s, execState_errInfo i s⟩⟩
  rw [step_of_illegal hr hidle hp hh, State.raiseIllegal_eq, ← hidle]
  rfl

end Sys2Proof.Machine
end

section
/-! The non-finite flag (spec/60_exceptions.md R225): it is sticky, it notes the words that a command stores or returns, and no command but
READ_CTRL reads it. -/

namespace Sys2Proof.Machine

/-! ### NF is sticky -/

theorem State.sample_keeps_nonFinite {s : State} (ch : Channel) (x : Word) (h : s.nonFinite = true) : (s.sample ch x).nonFinite = true := by
  rw [State.sample_nonFinite, h, Bool.true_or]

theorem State.commitIfDirty_keeps_nonFinite {s : State} (h : s.nonFinite = true) : s.commitIfDirty.nonFinite = true := by
  unfold State.commitIfDirty
  split
  · rw [State.commit_nonFinite, h, Bool.true_or]
  · exact h

/-- No command clears NF. -/
theorem execState_keeps_nonFinite {s : State} (h : s.nonFinite = true) (i : Instr) : (execState i s).nonFinite = true := by
  cases i with
  | process ch x => exact State.sample_keeps_nonFinite ch x h
  | block fs =>
    exact State.frames_induction (P := fun t => t.nonFinite = true) (fun _ ch x => State.sample_keeps_nonFinite ch x) _ fs
      (State.commitIfDirty_keeps_nonFinite h)
  | _ => simp [execState, h]

/-! ### The words that NF notes -/

/-- NF is clear only if every word that was returned since `s` is finite. -/
def NotesAnswersSince (s t : State) : Prop :=
  ∃ ys : List Word, t.responses = s.responses ++ ys ∧ (t.nonFinite = false → ys.all isFinite = true)

/-- A sample returns one word, and notes it (R225 b). -/
theorem NotesAnswersSince.sample {s t : State} (h : NotesAnswersSince s t) (ch : Channel) (x : Word) :
    NotesAnswersSince s (t.sample ch x) := by
  obtain ⟨ys, hy, hfin⟩ := h
  refine ⟨ys ++ [(t.sosResult ch x).acc], by rw [State.sample_responses, hy, List.append_assoc], fun hn => ?_⟩
  rw [State.sample_nonFinite, Bool.or_eq_false_iff] at hn
  obtain ⟨hbefore, hnoted⟩ := hn
  have hacc : isFinite (t.sosResult ch x).acc = true := by
    simp only [List.all_cons, Bool.not_eq_false', Bool.and_eq_true] at hnoted
    exact hnoted.1
  rw [List.all_append, hfin hbefore, List.all_cons, hacc]
  rfl

/-- A BLOCK notes all that it returns, since its commit returns nothing. -/
theorem notesAnswersSince_block (fs : List Frame) (s : State) : NotesAnswersSince s (execState (.block fs) s) :=
  State.frames_induction (fun _ ch x h => h.sample ch x) _ fs
    ⟨[], by rw [State.commitIfDirty_responses, List.append_nil], fun _ => rfl⟩

/-- Settles O36, command by command from the word that each one notes; a BLOCK by induction on its samples. -/
theorem nonFiniteFlagIsStickyAndExact : Obligations.NonFiniteFlagIsStickyAndExact := by
  refine ⟨fun i s t h hn => ?_, fun i s t h hi => ?_, fun i c s t h hi => ?_, fun fs s t ys h hy hn => ?_⟩ <;>
    obtain rfl := exec_eq_next_iff.mp h
  · exact execState_keeps_nonFinite hn i
  · rcases hi with rfl | rfl | ⟨ch, rfl⟩ | ⟨ch, rfl⟩ | ⟨idx, v, rfl⟩
    · rfl
    · rfl
    · rfl
    · rfl
    · exact s.storeControl_nonFinite idx v
  · rcases hi with rfl | ⟨ch, rfl⟩ | ⟨k, q, rfl, rfl⟩
    · exact State.noteFinite_nonFinite (s.writeAllCoefs c) c.words
    · exact State.noteFinite_nonFinite (s.writeCoef ch c) c.words
    · exact State.noteFinite_nonFinite (s.respond _) _
  · obtain ⟨zs, hz, hfin⟩ := notesAnswersSince_block fs s
    obtain rfl : ys = zs := List.append_cancel_left (hy.symm.trans hz)
    exact hfin hn

/-! ### No operation reads NF -/

theorem setBit_comm (i j : Nat) (w : Word) : setBit i (setBit j w) = setBit j (setBit i w) := by
  rw [setBit, setBit, BitVec.or_assoc, BitVec.or_comm (1#32 <<< j), ← BitVec.or_assoc, setBit, setBit]

theorem clearBit_setBit {i j : Nat} (hij : j ≠ i) (w : Word) : clearBit i (setBit j w) = setBit j (clearBit i w) := by
  apply BitVec.eq_of_getLsbD_eq
  intro n _
  rw [getLsbD_clearBit, getLsbD_setBit, getLsbD_setBit, getLsbD_clearBit]
  by_cases hn : n = j
  · simp [hn, hij]
  · simp [hn]

theorem State.noteFinite_setNonFinite (ws : List Word) (s : State) : s.setNonFinite.noteFinite ws = (s.noteFinite ws).setNonFinite := by
  unfold State.noteFinite
  split <;> rfl

theorem State.setDirty_setNonFinite (s : State) : s.setNonFinite.setDirty = s.setDirty.setNonFinite :=
  congrArg (fun w : Word => { s with status := w }) (setBit_comm dirtyBit nfBit s.status)

theorem State.setInit_setNonFinite (s : State) : s.setNonFinite.setInit = s.setInit.setNonFinite :=
  congrArg (fun w : Word => { s with status := w }) (setBit_comm initBit nfBit s.status)

theorem State.clearDirty_setNonFinite (s : State) : s.setNonFinite.clearDirty = s.clearDirty.setNonFinite :=
  congrArg (fun w : Word => { s with status := w }) (clearBit_setBit (by decide) s.status)

/-- A sample computes the same with NF set (R225). -/
theorem State.sample_setNonFinite (ch : Channel) (x : Word) (s : State) :
    s.setNonFinite.sample ch x = (s.sample ch x).setNonFinite := by
  have h := State.noteFinite_setNonFinite [(s.sosResult ch x).acc, (s.sosResult ch x).nz1, (s.sosResult ch x).nz2]
    (s.writeDelay ch (s.sosResult ch x).nz1 (s.sosResult ch x).nz2)
  exact congrArg (fun t : State => { t with nanDraws := s.nanDraws + sosOps }.respond [(s.sosResult ch x).acc]) h

theorem State.frames_setNonFinite (fs : List Frame) (s : State) : s.setNonFinite.frames fs = (s.frames fs).setNonFinite := by
  induction fs generalizing s with
  | nil => rfl
  | cons f fs ih => simp only [State.frames_cons, State.frame, State.sample_setNonFinite, ih]

theorem State.commit_setNonFinite (s : State) : s.setNonFinite.commit = s.commit.setNonFinite := by
  have hwrite (c : CoefSet Word) : s.setNonFinite.writeAllCoefs c = (s.writeAllCoefs c).setNonFinite := rfl
  simp only [State.commit, State.setNonFinite_cfg, State.setNonFinite_pK, State.setNonFinite_pQ, hwrite,
    State.clearDirty_setNonFinite, State.noteFinite_setNonFinite]

theorem State.commitIfDirty_setNonFinite (s : State) : s.setNonFinite.commitIfDirty = s.commitIfDirty.setNonFinite := by
  unfold State.commitIfDirty
  rw [State.setNonFinite_dirty, State.commit_setNonFinite]
  split <;> rfl

theorem State.storeControl_setNonFinite (idx : BitVec 16) (v : Word) (s : State) :
    s.setNonFinite.storeControl idx v = (s.storeControl idx v).setNonFinite := by
  unfold State.storeControl
  cases controlOf idx with
  | cutoff => exact (s.writePK v).setDirty_setNonFinite
  | resonance => exact (s.writePQ v).setDirty_setNonFinite
  | ignored => rfl

theorem State.loadDefaults_setNonFinite (s : State) : s.setNonFinite.loadDefaults = s.loadDefaults.setNonFinite := by
  have hwrite (k q : Word) (c : CoefSet Word) : ((s.setNonFinite.writePK k).writePQ q).zeroAllDelays.writeAllCoefs c =
      (((s.writePK k).writePQ q).zeroAllDelays.writeAllCoefs c).setNonFinite := rfl
  simp only [State.loadDefaults, State.setNonFinite_cfg, hwrite, State.clearDirty_setNonFinite, State.setInit_setNonFinite,
    State.noteFinite_setNonFinite]

/-- A command but READ_CTRL does the same with NF set, and leaves it set. -/
theorem execState_setNonFinite {i : Instr} (hi : i ≠ .readCtrl) (s : State) :
    execState i s.setNonFinite = (execState i s).setNonFinite := by
  cases i with
  | nop | reset | readInst => rfl
  | init => exact s.loadDefaults_setNonFinite
  | assign ch c => exact State.noteFinite_setNonFinite _ (s.writeCoef ch c)
  | process ch x => exact State.sample_setNonFinite ch x s
  | compute k q => exact State.noteFinite_setNonFinite _ (s.respond _)
  | broadcast c => exact State.noteFinite_setNonFinite _ (s.writeAllCoefs c)
  | ctrlSet idx v => exact State.storeControl_setNonFinite idx v s
  | block fs => rw [execState, execState, State.commitIfDirty_setNonFinite, State.frames_setNonFinite]
  | readCtrl => exact absurd rfl hi

/-- Settles O37: setting NF before a command is setting it after. -/
theorem nonFiniteFlagChangesNoResult : Obligations.NonFiniteFlagChangesNoResult :=
  fun i s hi => ⟨execState i s, exec_eq_next i s, (exec_eq_next i s.setNonFinite).trans (congrArg _ (execState_setNonFinite hi s))⟩

end Sys2Proof.Machine
end

section
/-! Hardware reset (spec/70_reset_and_hazards.md R250) and the number of words that each command returns (R256). -/

namespace Sys2Proof.Machine

/-! ### Hardware reset (R43, R250) -/

/-- A step with the reset input asserted is hardware reset, whatever the parser and the command port hold. -/
theorem step_of_resetLine {s : State} (hr : s.resetLine = true) : step s = .next s.hardwareReset := by
  simp [step, fetch, hr]

/-- Settles O25: the step is hardware reset, which clears the registers of every channel and keeps the words that wait. -/
theorem hardwareResetGivesTheResetValues : Obligations.HardwareResetGivesTheResetValues := fun s hr =>
  ⟨s.hardwareReset, step_of_resetLine hr, s.hardwareReset_registers, rfl, rfl, rfl, rfl, rfl, rfl, rfl, rfl, rfl, rfl⟩

/-! ### Response accounting (R89, R256) -/

/-- A command makes the response queue longer by the number of its "responses" column. -/
theorem execState_responses_length (i : Instr) (s : State) :
    (execState i s).responses.length = s.responses.length + responseCount i := by
  cases i with
  | nop | init | reset | assign | broadcast | ctrlSet => simp [execState, responseCount]
  | process ch x => rw [execState, State.sample_responses, List.length_append]; rfl
  | compute k q => rw [execState, State.noteFinite_responses, State.respond_responses, List.length_append]; rfl
  | block fs =>
    obtain ⟨ys, hy, hlen⟩ := s.commitIfDirty.frames_responses fs
    rw [execState, hy, State.commitIfDirty_responses, List.length_append, hlen, responseCount]
  | readInst | readCtrl => rw [execState, State.respond_responses, List.length_append]; rfl

/-- Settles O17: a command appends to the queue, so the words it appended are as many as the queue grew by; the exception writes no
word. -/
theorem everyCommandReturnsItsResponseCount : Obligations.EveryCommandReturnsItsResponseCount := by
  refine ⟨fun i s => ?_, fun cause h s => s.raiseIllegal_responses cause h⟩
  obtain ⟨ys, hy⟩ := execState_responses i s
  have hgrown := execState_responses_length i s
  rw [hy, List.length_append] at hgrown
  exact ⟨execState i s, ys, exec_eq_next i s, hy, Nat.add_left_cancel hgrown⟩

end Sys2Proof.Machine
end
